-- ==== Sys2Proof/Word.lean ====
section
/-! DEFINITION. The machine's two word types (spec/00_scope.md R6, R10): a byte, which is the width of a register, of a
memory cell and of every data value, and a 16-bit word, which is the width of an address, of IP and of SP. All values
are unsigned. A register index is a plain `Nat`: an operand byte names any index from 0 to 255, and the second register of
a pair any index from 1 to 256, never wrapped (R12, spec/40_step_dispatch.md R104). -/

namespace Sys2Proof

/-- `XLEN` = 8 bits: a register, a memory cell, a literal operand (R6). -/
abbrev Byte := BitVec 8

/-- `ALEN` = 16 bits: an address, IP, SP (R6). -/
abbrev Word := BitVec 16

end Sys2Proof
end

