-- ==== Sys2Proof/Syntax.lean ====
section
/-! DEFINITION. The instructions: one constructor per row of the closed opcode table (spec/30_encoding.md R84), in the
table's order, its operands in the order of their bytes (R82). A `LIT` is a byte, an `ADDR` a 16-bit word (R81), a
`REG` the number its operand byte holds (0 to 255 when it comes from an encoding, see `Instr.wellFormed`). -/

namespace Sys2Proof

/-- The 29 instructions of R84. -/
inductive Instr where
  -- moves (spec/41_move.md; NOP: spec/40_step_dispatch.md R110)
  | nop
  | mlr (lit : Byte) (dst : Nat)
  | mrr (src dst : Nat)
  | mlm (lit : Byte) (ptr : Nat)
  | mrm (src ptr : Nat)
  | mmr (ptr dst : Nat)
  -- logical and shifts (spec/42_logical.md)
  | lnd (a b : Nat)
  | lor (a b : Nat)
  | lxr (a b : Nat)
  | lbc (a b : Nat)
  | lsl (reg : Nat) (lit : Byte)
  | lsr (reg : Nat) (lit : Byte)
  -- arithmetic (spec/43_arithmetic.md)
  | inc (reg : Nat)
  | dec (reg : Nat)
  | add (a b : Nat)
  | sub (a b : Nat)
  | mul (a b : Nat)
  | div (a b : Nat)
  -- jumps (spec/44_jump.md)
  | jmp (addr : Word)
  | jeq (reg : Nat) (addr : Word)
  | jne (reg : Nat) (addr : Word)
  -- stack, call and return (spec/45_stack_call.md)
  | spl (lit : Byte)
  | spr (reg : Nat)
  | stp (reg : Nat)
  | cll (addr : Word)
  | ret
  -- input and output (spec/46_io.md)
  | pnt (addr : Word) (len : Byte)
  | rin (reg : Nat)
  -- halt (spec/47_halt.md)
  | hlt
deriving DecidableEq, Repr

end Sys2Proof
end

