-- ==== Sys2Proof/WellFormed.lean ====
section
/-! DEFINITION. Which terms of `Instr` an encoding can hold: every `REG` operand is one operand byte, so its index is 0
to 255 (spec/30_encoding.md R81). `LIT` and `ADDR` operands are bytes and words already. An index of 8 to 255 is well
formed: it is encodable and decodes without complaint (R87); whether a register stands behind it is
`Instr.registersExist`, of which no instruction's meaning takes notice before it accesses the register. -/

namespace Sys2Proof

/-- The `REG` operands of an instruction, in the order of their bytes (R82). -/
def Instr.regOperands : Instr → List Nat
  | .nop | .jmp _ | .spl _ | .cll _ | .ret | .pnt _ _ | .hlt => []
  | .mlr _ r | .mlm _ r | .lsl r _ | .lsr r _ | .inc r | .dec r => [r]
  | .jeq r _ | .jne r _ | .spr r | .stp r | .rin r => [r]
  | .mrr a b | .mrm a b | .mmr a b | .lnd a b | .lor a b | .lxr a b | .lbc a b => [a, b]
  | .add a b | .sub a b | .mul a b | .div a b => [a, b]

/-- The base register of the pointer pair an instruction dereferences, if it has one (spec/10_state.md R22). -/
def Instr.pairBase : Instr → Option Nat
  | .mlm _ p | .mrm _ p | .mmr p _ => some p
  | .nop | .mlr _ _ | .mrr _ _ | .lnd _ _ | .lor _ _ | .lxr _ _ | .lbc _ _ | .lsl _ _ | .lsr _ _ => none
  | .inc _ | .dec _ | .add _ _ | .sub _ _ | .mul _ _ | .div _ _ | .jmp _ | .jeq _ _ | .jne _ _ => none
  | .spl _ | .spr _ | .stp _ | .cll _ | .ret | .pnt _ _ | .rin _ | .hlt => none

/-- Every `REG` operand fits its operand byte (R81). -/
def Instr.wellFormed (i : Instr) : Bool :=
  i.regOperands.all fun r => decide (r < 256)

/-- Every register an instruction names exists: `REG` operands 0 to 7, and 0 to 6 for the base of a pair (R22, R87). -/
def Instr.registersExist (i : Instr) : Bool :=
  (i.regOperands.all fun r => decide (r < 8)) && (i.pairBase.all fun p => decide (p < 7))

end Sys2Proof
end

