-- ==== Sys2Proof/Decode.lean ====
section
/-! DEFINITION. Decoding and encoding (spec/30_encoding.md). `decode` is total on every list of bytes and rejects by name;
`encode` writes the bytes of an instruction. Both follow the same tables: the formats of R82 and the opcodes of R84,
which `opcodeRow` lists once in the form of R91. -/

namespace Sys2Proof

/-! ### Byte order (R10, R55, R83): the high byte comes first -/

/-- `hi:lo` = `(hi << 8) | lo` (R10). -/
def joinBytes (hi lo : Byte) : Word := hi ++ lo

/-- Bits 15 to 8. -/
def highByte (w : Word) : Byte := w.extractLsb' 8 8

/-- Bits 7 to 0. -/
def lowByte (w : Word) : Byte := w.extractLsb' 0 8

/-- The `REG` operand byte that holds an index (R81). -/
def regByte (r : Nat) : Byte := BitVec.ofNat 8 r

/-! ### Decoding -/

/-- Why a list of bytes is no instruction. -/
inductive DecodeError where
  /-- The opcode byte is none of the 29 of R85 ("Any other opcode is an unknown-instruction error", R86). -/
  | unknownOpcode (op : Byte)
  /-- The list ends before the instruction does. The machine fetches as many bytes as the opcode asks for (R90), so no
  step meets this. -/
  | truncated
deriving DecidableEq, Repr

/-- A row of the opcode table: the instruction an opcode selects, by the format of its operands (R82). -/
inductive OpcodeRow where
  | op (i : Instr)
  | opLit (f : Byte → Instr)
  | opReg (f : Nat → Instr)
  | opLitReg (f : Byte → Nat → Instr)
  | opRegReg (f : Nat → Nat → Instr)
  | opRegLit (f : Nat → Byte → Instr)
  | opAddr (f : Word → Instr)
  | opRegAddr (f : Nat → Word → Instr)
  | opAddrLit (f : Word → Byte → Instr)

/-- How many operand bytes follow the opcode (R82, the length column less one). -/
def OpcodeRow.operandBytes : OpcodeRow → Nat
  | .op _ => 0
  | .opLit _ | .opReg _ => 1
  | .opLitReg _ | .opRegReg _ | .opRegLit _ | .opAddr _ => 2
  | .opRegAddr _ | .opAddrLit _ => 3

/-- Operand assembly (R83): each byte is used unchanged, an address is its high byte then its low byte. -/
def OpcodeRow.assemble : OpcodeRow → List Byte → Except DecodeError (Instr × List Byte)
  | .op i, rest => .ok (i, rest)
  | .opLit f, lit :: rest => .ok (f lit, rest)
  | .opReg f, reg :: rest => .ok (f reg.toNat, rest)
  | .opLitReg f, lit :: reg :: rest => .ok (f lit reg.toNat, rest)
  | .opRegReg f, ra :: rb :: rest => .ok (f ra.toNat rb.toNat, rest)
  | .opRegLit f, reg :: lit :: rest => .ok (f reg.toNat lit, rest)
  | .opAddr f, hi :: lo :: rest => .ok (f (joinBytes hi lo), rest)
  | .opRegAddr f, reg :: hi :: lo :: rest => .ok (f reg.toNat (joinBytes hi lo), rest)
  | .opAddrLit f, hi :: lo :: len :: rest => .ok (f (joinBytes hi lo) len, rest)
  | _, _ => .error .truncated

/-- The opcode table (R84), in the form of the decoder of R91. All 8 bits of the opcode byte are matched (R80). -/
def opcodeRow (op : Byte) : Option OpcodeRow :=
  match op.toNat with
  | 0x00 => some (.op .nop)
  | 0x01 => some (.opLitReg .mlr)
  | 0x02 => some (.opRegReg .mrr)
  | 0x03 => some (.opLitReg .mlm)
  | 0x04 => some (.opRegReg .mrm)
  | 0x05 => some (.opRegReg .mmr)
  | 0x20 => some (.opRegReg .lnd)
  | 0x21 => some (.opRegReg .lor)
  | 0x22 => some (.opRegReg .lxr)
  | 0x23 => some (.opRegReg .lbc)
  | 0x24 => some (.opRegLit .lsl)
  | 0x25 => some (.opRegLit .lsr)
  | 0x40 => some (.opReg .inc)
  | 0x41 => some (.opReg .dec)
  | 0x42 => some (.opRegReg .add)
  | 0x43 => some (.opRegReg .sub)
  | 0x44 => some (.opRegReg .mul)
  | 0x45 => some (.opRegReg .div)
  | 0x60 => some (.opAddr .jmp)
  | 0x61 => some (.opRegAddr .jeq)
  | 0x62 => some (.opRegAddr .jne)
  | 0x80 => some (.opLit .spl)
  | 0x81 => some (.opReg .spr)
  | 0x82 => some (.opReg .stp)
  | 0x83 => some (.opAddr .cll)
  | 0x84 => some (.op .ret)
  | 0xE0 => some (.opAddrLit .pnt)
  | 0xE1 => some (.opReg .rin)
  | 0xFF => some (.op .hlt)
  | _ => none

/-- How many operand bytes the instruction with this opcode fetches: a function of the opcode alone, and none for an
unknown opcode (R86, R90). -/
def operandBytes (op : Byte) : Nat :=
  match opcodeRow op with
  | some row => row.operandBytes
  | none => 0

/-- The decoder: the instruction at the front of a list of bytes and the bytes after it, or the reason there is none. -/
def decode : List Byte → Except DecodeError (Instr × List Byte)
  | [] => .error .truncated
  | op :: rest =>
    match opcodeRow op with
    | some row => row.assemble rest
    | none => .error (.unknownOpcode op)

/-! ### Encoding -/

/-- The opcode byte of an instruction (R84). -/
def Instr.opcode : Instr → Byte
  | .nop => 0x00#8
  | .mlr _ _ => 0x01#8
  | .mrr _ _ => 0x02#8
  | .mlm _ _ => 0x03#8
  | .mrm _ _ => 0x04#8
  | .mmr _ _ => 0x05#8
  | .lnd _ _ => 0x20#8
  | .lor _ _ => 0x21#8
  | .lxr _ _ => 0x22#8
  | .lbc _ _ => 0x23#8
  | .lsl _ _ => 0x24#8
  | .lsr _ _ => 0x25#8
  | .inc _ => 0x40#8
  | .dec _ => 0x41#8
  | .add _ _ => 0x42#8
  | .sub _ _ => 0x43#8
  | .mul _ _ => 0x44#8
  | .div _ _ => 0x45#8
  | .jmp _ => 0x60#8
  | .jeq _ _ => 0x61#8
  | .jne _ _ => 0x62#8
  | .spl _ => 0x80#8
  | .spr _ => 0x81#8
  | .stp _ => 0x82#8
  | .cll _ => 0x83#8
  | .ret => 0x84#8
  | .pnt _ _ => 0xE0#8
  | .rin _ => 0xE1#8
  | .hlt => 0xFF#8

/-- The operand bytes of an instruction, in the order of R82. -/
def Instr.operands : Instr → List Byte
  | .nop | .ret | .hlt => []
  | .spl lit => [lit]
  | .inc r | .dec r | .spr r | .stp r | .rin r => [regByte r]
  | .mlr lit r | .mlm lit r => [lit, regByte r]
  | .mrr a b | .mrm a b | .mmr a b | .lnd a b | .lor a b | .lxr a b | .lbc a b => [regByte a, regByte b]
  | .add a b | .sub a b | .mul a b | .div a b => [regByte a, regByte b]
  | .lsl r lit | .lsr r lit => [regByte r, lit]
  | .jmp addr | .cll addr => [highByte addr, lowByte addr]
  | .jeq r addr | .jne r addr => [regByte r, highByte addr, lowByte addr]
  | .pnt addr len => [highByte addr, lowByte addr, len]

/-- The bytes of an instruction, lowest address first (R80, R82). -/
def encode (i : Instr) : List Byte :=
  i.opcode :: i.operands

/-! ### The table's numbering -/

/-- The four bytes an instruction can have, from the number spec/opcode_table.json's numbering gives it: bit 0 is the
least significant bit of the first byte, each later byte counts on, and every bit from `nbits` up is 0. -/
def tableBytes (nbits w : Nat) : List Byte :=
  let v := w % 2 ^ nbits
  [BitVec.ofNat 8 v, BitVec.ofNat 8 (v / 2 ^ 8), BitVec.ofNat 8 (v / 2 ^ 16), BitVec.ofNat 8 (v / 2 ^ 24)]

/-- The instruction the decoder reads from a number of the opcode table's numbering, or none where it refuses. -/
def decodeTableWord (nbits w : Nat) : Option Instr :=
  match decode (tableBytes nbits w) with
  | .ok (i, _) => some i
  | .error _ => none

end Sys2Proof
end

