-- ==== Sys2Proof/Config.lean ====
section
/-! DEFINITION. What the spec fixes as a parameter of the block (spec/00_scope.md R6, R7), and the one value it leaves
open at every use (`RIN_FAIL_VALUE`). -/

namespace Sys2Proof

/-- `IP_RESET` (R6). -/
abbrev Config.ipReset : Word := 0x0000#16

/-- `SP_RESET` = `STACK_BASE` (R6). -/
abbrev Config.stackBase : Word := 0xFF00#16

/-- `STACK_LIMIT`, the SP value at which a push is refused (R6). -/
abbrev Config.stackLimit : Word := 0xFFFF#16

/-- The IP value at which a fetch is refused (spec/40_step_dispatch.md R102). -/
abbrev Config.fetchLimit : Word := 0xFFFF#16

/-- `FS_RESET` (R6). -/
abbrev Config.fsReset : Byte := 0x00#8

/-- The largest frame size: the push that finds FS at it wraps FS (spec/45_stack_call.md R160). -/
abbrev Config.frameLimit : Byte := 0xFF#8

/-- `REG_RESET` (R7, decision D15). DESIGN CHOICE of the spec, log entry 1. -/
abbrev Config.regReset : Byte := 0x00#8

/-- `INVALID_REG_READ_VALUE` (R7, decision D3). -/
abbrev Config.invalidRegReadValue : Byte := 0x00#8

/-- The byte a refused fetch delivers (spec/40_step_dispatch.md R102). -/
abbrev Config.refusedFetchByte : Byte := 0x00#8

/-- `ERRCAP`, the capacity of the error list in records (R7, decision D13). -/
abbrev Config.errCap : Nat := 10

/-- `MEMSIZE`, the number of memory cells (R6). -/
abbrev Config.memSize : Nat := 65536

/-- What an address that the memory's list does not name reads as. DESIGN CHOICE, unsafe, log entry 2: the spec leaves
the cells beyond the program to the host (`MEM_INIT`, spec/70_reset_and_hazards.md R243). Every image can be listed,
so the choice restricts `State.reset` alone. -/
abbrev Config.unlistedByte : Byte := 0x00#8

/-- `RIN_FAIL_VALUE` (R7, decision D17): the byte the `n`-th failing input read returns. The spec calls it unspecified,
any of the 256 values, drawn at each failing read, so it has no body and nothing can be proved of it. Log entry 3. -/
opaque Config.rinFailValue : Nat → Byte

end Sys2Proof
end

