-- ==== Sys2Proof/Machine/State.lean ====
section
/-! DEFINITION. The state of the machine as plain data: the whole tuple at the head of spec/10_state.md, and one counter
of the model's own (`failedReads`). The three outcomes' reason types, and the state after reset (R37, R240). -/

namespace Sys2Proof.Machine

/-- The memory `M`: the cells that hold something else than `Config.unlistedByte`, by rising address (log entry 2). -/
abbrev Memory := List Host.Cell

/-- The run status (spec/10_state.md R34). -/
inductive Status where
  | running
  | halted
  | faulted
deriving DecidableEq, Repr

/-- The eight errors the core can record (spec/60_exceptions.md R201). -/
inductive ErrorCode where
  | unknownOpcode
  | invalidRegister
  | ipOutOfBounds
  | divideByZero
  | stackOverflow
  | stackUnderflow
  | readInput
  | frameTooLarge
deriving DecidableEq, Repr

/-- An error record (spec/10_state.md R33). -/
structure ErrorRecord where
  code : ErrorCode
  info0 : Word
  info1 : Word
deriving DecidableEq, Repr

/-- What the output trace holds (spec/10_state.md R35): a byte emitted, or the flush mark that ends a `PNT`. -/
inductive OutEvent where
  | byte (b : Byte)
  | flush
deriving DecidableEq, Repr

/-- What the environment does once the bytes it has supplied are used up (spec/46_io.md R182, spec/10_state.md R36). -/
inductive InputTail where
  /-- The input is closed or errors: every further read fails. -/
  | fails
  /-- The environment has not answered yet: a read waits. -/
  | silent
deriving DecidableEq, Repr

/-- The input stream `IN`: the bytes supplied and not yet read, then its tail. Log entry 4. -/
structure InputStream where
  pending : List Byte
  tail : InputTail
deriving DecidableEq, Repr

/-- The argument `INPUT` of the model (spec/00_scope.md R7): a finite sequence of bytes, after which every read fails for
good, or an infinite sequence. An argument of a run, not a part of the state: of it the state holds what has been supplied
and not yet read. -/
inductive Input where
  | finite (bytes : List Byte)
  | infinite (byte : Nat → Byte)

/-- The state between two steps (spec/10_state.md, the tuple at its head; nothing survives a step beside it, R38). -/
structure State where
  /-- `x[0]` to `x[7]` (R20). -/
  regs : Vector Byte 8
  /-- The instruction pointer (R25). -/
  ip : Word
  /-- The stack pointer: the next free cell (R28). -/
  sp : Word
  /-- The frame size (R29). -/
  fs : Byte
  /-- The error list `ERR`, oldest record first (R32). -/
  err : List ErrorRecord
  /-- `STATUS` (R34). -/
  status : Status
  /-- The memory `M` (spec/20_memory.md R50). -/
  mem : Memory
  /-- The input stream `IN` (R36). -/
  input : InputStream
  /-- The output trace `OUT`, oldest event first (R35). -/
  output : List OutEvent
  /-- THE MODEL'S OWN, not the spec's: how many input reads have failed, which selects the next value of
  `Config.rinFailValue` (log entry 3). -/
  failedReads : Nat
deriving DecidableEq, Repr

/-- Why no next state is answered. -/
inductive Fault where
  /-- Raised by `step` in `HALTED` and in `FAULTED`: the machine takes no step there (spec/47_halt.md R192). Safe: the
  hardware does nothing either. -/
  | notRunning (status : Status)
  /-- Raised by the meaning of `RIN` while the environment has not answered its read (spec/46_io.md R182). `step` never
  answers it: it answers the state unchanged, which is what waiting is. Safe. -/
  | awaitingInput
deriving DecidableEq, Repr

/-- Why an instruction has no meaning here. -/
inductive Refusal where
  /-- Raised by an arm of `exec` whose instruction has no meaning yet. Safe. No arm of this model raises it. -/
  | notModelled (mnemonic : String)
deriving DecidableEq, Repr

/-- What a step, or the meaning of an instruction, answers. -/
abbrev Result := Host.Outcome State Fault Refusal

/-- The state right after reset (R37, R240) with nothing in memory (log entry 2) and the input closed (log entry 4). -/
def State.reset : State where
  regs := Vector.replicate 8 Config.regReset
  ip := Config.ipReset
  sp := Config.stackBase
  fs := Config.fsReset
  err := []
  status := .running
  mem := []
  input := { pending := [], tail := .fails }
  output := []
  failedReads := 0

end Sys2Proof.Machine
end

