-- ==== Sys2Proof/Machine/Ops.lean ====
section
/-! DEFINITION. The named operations over the state: memory, the update of each field, the errors and the fault entry, the
fetch, the stack primitives, the streams, and reset. Every instruction's meaning is made of these. -/

namespace Sys2Proof.Machine

/-! ### Memory (spec/20_memory.md R50 to R53) -/

/-- The byte at an address; an unlisted address reads as `Config.unlistedByte` (log entry 2). -/
def Memory.read : Memory → Nat → Byte
  | [], _ => Config.unlistedByte
  | (k, w) :: rest, a => if k = a then w else Memory.read rest a

/-- `cell` put in front of `rest`, unless it holds what an unlisted address reads as. -/
def Memory.put (a : Nat) (v : Byte) (rest : Memory) : Memory :=
  if v = Config.unlistedByte then rest else (a, v) :: rest

/-- Write one byte, keeping the canonical form. -/
def Memory.write : Memory → Nat → Byte → Memory
  | [], a, v => Memory.put a v []
  | (k, w) :: rest, a, v =>
    if a < k then Memory.put a v ((k, w) :: rest)
    else if a = k then Memory.put a v rest
    else (k, w) :: Memory.write rest a v

/-- The canonical form from an address on: addresses strictly rising, inside the address space, and no entry equal to
what an unlisted address reads as. -/
def Memory.wfFrom : Nat → Memory → Bool
  | _, [] => true
  | n, (k, w) :: rest =>
    decide (n ≤ k) && decide (k < Config.memSize) && decide (w ≠ Config.unlistedByte) && Memory.wfFrom (k + 1) rest

/-- The memory is in canonical form. -/
def Memory.wf (m : Memory) : Bool := Memory.wfFrom 0 m

/-- A list of bytes stored from an address upward, the address wrapping at the top. -/
def Memory.load : Memory → Word → List Byte → Memory
  | m, _, [] => m
  | m, a, v :: rest => Memory.load (Memory.write m a.toNat v) (a + 1) rest

/-! ### One update per field -/

/-- `x[i] <- v` (R12: it never fails). -/
def State.setX (s : State) (i : Fin 8) (v : Byte) : State := { s with regs := s.regs.set i.val v i.isLt }

/-- `x[i]` (R12: it never fails). -/
def State.x (s : State) (i : Fin 8) : Byte := s.regs[i.val]

def State.setIp (s : State) (v : Word) : State := { s with ip := v }

def State.setSp (s : State) (v : Word) : State := { s with sp := v }

def State.setFs (s : State) (v : Byte) : State := { s with fs := v }

def State.setErr (s : State) (v : List ErrorRecord) : State := { s with err := v }

def State.setStatus (s : State) (v : Status) : State := { s with status := v }

def State.setMem (s : State) (v : Memory) : State := { s with mem := v }

def State.setInput (s : State) (v : InputStream) : State := { s with input := v }

def State.setOutput (s : State) (v : List OutEvent) : State := { s with output := v }

def State.setFailedReads (s : State) (v : Nat) : State := { s with failedReads := v }

/-- `MemRead(addr, 1)`: total, no error, no effect (R52). -/
def State.memRead (s : State) (a : Word) : Byte := s.mem.read a.toNat

/-- `MemWrite(addr, 1, v)`: total, no error, one cell (R53). -/
def State.memWrite (s : State) (a : Word) (v : Byte) : State := s.setMem (s.mem.write a.toNat v)

/-! ### Errors: taking the machine's only kind of exception (spec/60_exceptions.md R200, R214)

An error is recorded and the instruction goes on to its end; the end of the step then enters the fault. Nothing is
saved, no handler runs, and there is no return from a fault (R218): reset alone leaves it. -/

/-- An `UNKNOWN_OPCODE` record: the opcode byte and the address it was fetched from (R111, decision D11). -/
def ErrorRecord.ofOpcode (op : Byte) (pos : Word) : ErrorRecord :=
  { code := .unknownOpcode, info0 := op.setWidth 16, info1 := pos }

/-- An `INVALID_REGISTER` record: the offending index, 8 to 256 (R33). -/
def ErrorRecord.ofIndex (i : Nat) : ErrorRecord :=
  { code := .invalidRegister, info0 := BitVec.ofNat 16 i, info1 := 0 }

/-- A record of an error that carries no information (R33). -/
def ErrorRecord.ofCode (c : ErrorCode) : ErrorRecord := { code := c, info0 := 0, info1 := 0 }

/-- `raise`: append one record and do nothing else; a full list drops it (R200). -/
def State.raise (s : State) (r : ErrorRecord) : State :=
  if s.err.length < Config.errCap then s.setErr (s.err ++ [r]) else s

/-- One `raise` for each record of a list, in its order. -/
def State.raiseAll : State → List ErrorRecord → State
  | s, [] => s
  | s, r :: rest => State.raiseAll (s.raise r) rest

/-- The end of a step: a non-empty `ERR` enters the fault, whatever the instruction was (R100, R214; `FAULTED` has
priority over `HALTED`, decision D24). -/
def State.endStep (s : State) : State :=
  if s.err = [] then s else s.setStatus .faulted

/-! ### Fetch (spec/40_step_dispatch.md R102) -/

/-- `Fetch()`: the byte at IP, and IP advanced; at `0xFFFF` an error, the byte `0x00`, and IP at `0x0000`. -/
def State.fetch (s : State) : Byte × State :=
  if s.ip = Config.fetchLimit then
    (Config.refusedFetchByte, (s.setIp 0).raise (ErrorRecord.ofCode .ipOutOfBounds))
  else (s.memRead s.ip, s.setIp (s.ip + 1))

/-- `n` fetches in a row. -/
def State.fetchMany : Nat → State → List Byte × State
  | 0, s => ([], s)
  | n + 1, s =>
    let (b, s1) := s.fetch
    let (bs, s2) := State.fetchMany n s1
    (b :: bs, s2)

/-- The bytes of the next instruction: its opcode byte, then as many operand bytes as that opcode has (R90, R100). All of
them are fetched before the instruction does anything else (R64). -/
def State.fetchInstr (s : State) : List Byte × State :=
  let (op, s1) := s.fetch
  let (operands, s2) := State.fetchMany (operandBytes op) s1
  (op :: operands, s2)

/-- The step at an opcode byte that selects no instruction, fetched from `pos` (R111). -/
def State.unknownOpcode (s : State) (op : Byte) (pos : Word) : State :=
  s.raise (ErrorRecord.ofOpcode op pos)

/-! ### The stack (spec/45_stack_call.md R160 to R163) -/

/-- `Push(v)`, the primitive of `SPL` and `SPR` (R160). -/
def State.push (s : State) (v : Byte) : State :=
  if s.sp = Config.stackLimit then s.raise (ErrorRecord.ofCode .stackOverflow)
  else
    let s1 := (s.memWrite s.sp v).setSp (s.sp + 1)
    let s2 := if s.fs = Config.frameLimit then s1.raise (ErrorRecord.ofCode .frameTooLarge) else s1
    s2.setFs (s.fs + 1)

/-- `Pop()`, the primitive of `STP` (R161). -/
def State.pop (s : State) : Byte × State :=
  (s.memRead (s.sp - 1), (s.setSp (s.sp - 1)).setFs (s.fs - 1))

/-- `STP` refuses to pop: the frame is empty, or SP is at the stack's base (R166). -/
def State.popRefused (s : State) : Bool :=
  decide (s.fs = 0) || decide (s.sp = Config.stackBase)

/-- `Save(v)`, the stack write of `CLL` (R162). -/
def State.save (s : State) (v : Byte) : State :=
  if s.sp = Config.stackLimit then s.raise (ErrorRecord.ofCode .stackOverflow)
  else (s.memWrite s.sp v).setSp (s.sp + 1)

/-- One `Save` for each byte of a list, in its order. -/
def State.saveAll : State → List Byte → State
  | s, [] => s
  | s, v :: rest => State.saveAll (s.save v) rest

/-- `Restore()`, the stack read of `RET` (R163). -/
def State.restore (s : State) : Byte × State :=
  (s.memRead (s.sp - 1), s.setSp (s.sp - 1))

/-- `x[i] <- Restore()`. -/
def State.restoreX (s : State) (i : Fin 8) : State :=
  let (v, s1) := s.restore
  s1.setX i v

/-- The nine bytes `CLL` saves, in its order: FS, R2 to R7, IP's high byte, IP's low byte (R167). -/
def State.frame (s : State) : List Byte :=
  [s.fs, s.x 2, s.x 3, s.x 4, s.x 5, s.x 6, s.x 7, highByte s.ip, lowByte s.ip]

/-! ### The streams (spec/46_io.md R180, R182) -/

/-- `Out(b)`. -/
def State.out (s : State) (b : Byte) : State := s.setOutput (s.output ++ [.byte b])

/-- `OutFlush()`. -/
def State.outFlush (s : State) : State := s.setOutput (s.output ++ [.flush])

/-- `Out(M[a]), Out(M[a + 1]), …` for `n` bytes, the address wrapping modulo 65536 (R181). -/
def State.outRange : Nat → Word → State → State
  | 0, _, s => s
  | n + 1, a, s => State.outRange n (a + 1) (s.out (s.memRead a))

/-- What the environment answers to `InRead()` (R182). -/
inductive InAnswer where
  | byte (b : Byte) (s : State)
  | failure (b : Byte) (s : State)
  | none

/-- `InRead()`: the first byte of `IN`, removed; or failure with an unspecified byte; or no answer yet (R182). -/
def State.inRead (s : State) : InAnswer :=
  match s.input.pending with
  | b :: rest => .byte b (s.setInput { s.input with pending := rest })
  | [] =>
    match s.input.tail with
    | .fails => .failure (Config.rinFailValue s.failedReads) (s.setFailedReads (s.failedReads + 1))
    | .silent => .none

/-- The environment supplies one more byte of input. -/
def State.deliver (s : State) (b : Byte) : State :=
  s.setInput { s.input with pending := s.input.pending ++ [b] }

/-- The environment closes the input: once the pending bytes are read, every read fails. -/
def State.closeInput (s : State) : State :=
  s.setInput { s.input with tail := .fails }

/-- The input stream a run on `INPUT` starts with: all of a finite sequence, then permanent failure; nothing yet of an
infinite one, whose bytes come by `Input.supply` (R7, R36). -/
def Input.stream : Input → InputStream
  | .finite bytes => { pending := bytes, tail := .fails }
  | .infinite _ => { pending := [], tail := .silent }

/-- What the environment does before a step of a run on `INPUT`, of which it has supplied `k` bytes: where none of an
infinite sequence is waiting to be read, it supplies the next one. The new count, and the state (R7, R182). -/
def Input.supply (input : Input) (k : Nat) (s : State) : Nat × State :=
  match input with
  | .finite _ => (k, s)
  | .infinite byte => if s.input.pending = [] then (k + 1, s.deliver (byte k)) else (k, s)

/-! ### The step's outcome -/

/-- What a step answers, from what the meaning of its instruction answers: a next state goes through the end of the
step; a read that the environment has not answered leaves the state `before` the step as it was (R100, R182). -/
def State.settle (before : State) : Result → Result
  | .next s => .next s.endStep
  | .fault .awaitingInput => .next before
  | .fault f => .fault f
  | .refused r => .refused r

/-! ### Reset (spec/70_reset_and_hazards.md R240, R243) -/

/-- Reset, asserted between two steps: every field takes its reset value, the memory stays, and the input stream is the
one the host connects. The model's own counter of failed reads stays too. -/
def State.applyReset (s : State) (input : InputStream) : State :=
  { State.reset with mem := s.mem, input := input, failedReads := s.failedReads }

/-- The machine as the host releases it from reset: `MEM_INIT` and `INPUT` are its arguments (R7, R243, R244). -/
def State.powerOn (image : Memory) (input : Input) : State :=
  { State.reset with mem := image, input := input.stream }

/-- `MEM_INIT` for a program loaded verbatim from address 0, over what the host leaves in the other cells (R243). -/
def Memory.image (program : List Byte) (others : Memory) : Memory := Memory.load others 0 program

end Sys2Proof.Machine
end

