-- ==== Sys2Proof/Machine/Operands.lean ====
section
/-! DEFINITION. The operand forms: checked access to a register through an operand byte (spec/40_step_dispatch.md R104,
R105) and the one memory addressing mode, a pointer held in a register pair (R106). -/

namespace Sys2Proof.Machine

/-- `RegRead(i)`: `x[i]`, or an error and `0x00` when the register does not exist (R104). -/
def State.regRead (s : State) (i : Nat) : Byte × State :=
  if h : i < 8 then (s.x ⟨i, h⟩, s) else (Config.invalidRegReadValue, s.raise (ErrorRecord.ofIndex i))

/-- `RegWrite(i, v)`: `x[i] <- v`, or an error and nothing written when the register does not exist (R105). -/
def State.regWrite (s : State) (i : Nat) (v : Byte) : State :=
  if h : i < 8 then s.setX ⟨i, h⟩ v else s.raise (ErrorRecord.ofIndex i)

/-- `Ptr(r)`: the high byte from `r`, then the low byte from `r + 1`, which never wraps (R106). -/
def State.ptr (s : State) (r : Nat) : Word × State :=
  let (hi, s1) := s.regRead r
  let (lo, s2) := s1.regRead (r + 1)
  (joinBytes hi lo, s2)

/-! ### The same, as values and as the records they raise -/

/-- The value a read of register index `i` delivers (R104). -/
def State.regVal (s : State) (i : Nat) : Byte :=
  if h : i < 8 then s.x ⟨i, h⟩ else Config.invalidRegReadValue

/-- The address `Ptr(r)` delivers (R106). -/
def State.ptrVal (s : State) (r : Nat) : Word := joinBytes (s.regVal r) (s.regVal (r + 1))

/-- The records one access to register index `i` raises (R104, R105, R205). -/
def regErrors (i : Nat) : List ErrorRecord := if i < 8 then [] else [ErrorRecord.ofIndex i]

/-- The records `Ptr(r)` raises, in its order (R106). -/
def ptrErrors (r : Nat) : List ErrorRecord := regErrors r ++ regErrors (r + 1)

end Sys2Proof.Machine
end

