-- ==== Sys2Proof/Machine/Alu.lean ====
section
/-! DEFINITION. The operators of the ALU (spec/00_scope.md R11, spec/43_arithmetic.md R146, spec/42_logical.md), computed in
the natural numbers and then reduced modulo 256, and the shape the two-operand instructions share. -/

namespace Sys2Proof.Machine

/-- `(a + b) mod 256` (R142). -/
def aluAdd (a b : Byte) : Byte := BitVec.ofNat 8 (a.toNat + b.toNat)

/-- `(a - b) mod 256` (R143). -/
def aluSub (a b : Byte) : Byte := BitVec.ofInt 8 ((a.toNat : Int) - (b.toNat : Int))

/-- `(a * b) mod 256` (R144). -/
def aluMul (a b : Byte) : Byte := BitVec.ofNat 8 (a.toNat * b.toNat)

/-- The integer quotient for a divisor that is not 0 (R145); `DIV` never asks for it with a divisor of 0. -/
def aluDiv (a b : Byte) : Byte := BitVec.ofNat 8 (a.toNat / b.toNat)

/-- `a & b` (R130). -/
def aluAnd (a b : Byte) : Byte := a &&& b

/-- `a | b` (R131). -/
def aluOr (a b : Byte) : Byte := a ||| b

/-- `a ^ b` (R132). -/
def aluXor (a b : Byte) : Byte := a ^^^ b

/-- `a & (~b)`, with `~b = 255 - b` (R133). -/
def aluBitClear (a b : Byte) : Byte := a &&& ~~~b

/-- `(v << n) mod 256`, and 0 for a count of 8 or more: the count is not taken modulo 8 (R134). -/
def aluShiftLeft (v n : Byte) : Byte := if 8 ≤ n.toNat then 0 else v <<< n.toNat

/-- `v >> n`, zeros entering at bit 7, and 0 for a count of 8 or more (R135). -/
def aluShiftRight (v n : Byte) : Byte := if 8 ≤ n.toNat then 0 else v >>> n.toNat

/-- The shape of the two-register operations: both registers are read, then `x[0]` is written, even after an error
(R21, R107). -/
def State.aluRegReg (s : State) (f : Byte → Byte → Byte) (a b : Nat) : State :=
  let (va, s1) := s.regRead a
  let (vb, s2) := s1.regRead b
  s2.setX 0 (f va vb)

/-- The shape of the shifts: the count is the literal (R134, R135). -/
def State.aluRegLit (s : State) (f : Byte → Byte → Byte) (r : Nat) (lit : Byte) : State :=
  let (v, s1) := s.regRead r
  s1.setX 0 (f v lit)

/-- The shape of `INC` and `DEC`: the register they read is the one they write, each access checked on its own
(R140, R141, decision D5). -/
def State.aluInPlace (s : State) (f : Byte → Byte) (r : Nat) : State :=
  let (v, s1) := s.regRead r
  s1.regWrite r (f v)

end Sys2Proof.Machine
end

