-- ==== Sys2Proof/Machine/Arith.lean ====
section
/-! DEFINITION. The arithmetic instructions (spec/43_arithmetic.md R140 to R145). -/

namespace Sys2Proof.Machine

/-- `INC r` (R140): the destination is `Rr`, not `R0`. -/
def execInc (reg : Nat) (s : State) : Result := .next (s.aluInPlace (aluAdd · 1) reg)

/-- `DEC r` (R141). -/
def execDec (reg : Nat) (s : State) : Result := .next (s.aluInPlace (aluSub · 1) reg)

/-- `ADD a, b` (R142). -/
def execAdd (a b : Nat) (s : State) : Result := .next (s.aluRegReg aluAdd a b)

/-- `SUB a, b` (R143). -/
def execSub (a b : Nat) (s : State) : Result := .next (s.aluRegReg aluSub a b)

/-- `MUL a, b` (R144). -/
def execMul (a b : Nat) (s : State) : Result := .next (s.aluRegReg aluMul a b)

/-- `DIV a, b` (R145): a divisor value of 0 is the error, and `x[0]` keeps its value (decision D6). -/
def execDiv (a b : Nat) (s : State) : Result :=
  let (va, s1) := s.regRead a
  let (vb, s2) := s1.regRead b
  if vb = 0 then .next (s2.raise (ErrorRecord.ofCode .divideByZero))
  else .next (s2.setX 0 (aluDiv va vb))

end Sys2Proof.Machine
end

