-- ==== Sys2Proof/Machine/Halt.lean ====
section
/-! DEFINITION. `HLT` (spec/47_halt.md R190). -/

namespace Sys2Proof.Machine

/-- `HLT` (R190): the run ends normally. An error of the same step would have priority at its end (decision D24), but
none can occur. -/
def execHlt (s : State) : Result := .next (s.setStatus .halted)

end Sys2Proof.Machine
end

