-- ==== Sys2Proof/Machine/Io.lean ====
section
/-! DEFINITION. Input and output (spec/46_io.md R181, R183). -/

namespace Sys2Proof.Machine

/-- `PNT addr, len` (R181): one flush at the end, also when `len` is 0 (decision D19). -/
def execPnt (addr : Word) (len : Byte) (s : State) : Result :=
  .next (State.outRange len.toNat addr s).outFlush

/-- `RIN r` (R183): the read comes first, then its error, then the register write, which is made in both cases. While the
environment has not answered the instruction waits (R182). -/
def execRin (reg : Nat) (s : State) : Result :=
  match s.inRead with
  | .byte b s1 => .next (s1.regWrite reg b)
  | .failure b s1 => .next ((s1.raise (ErrorRecord.ofCode .readInput)).regWrite reg b)
  | .none => .fault .awaitingInput

end Sys2Proof.Machine
end

