-- ==== Sys2Proof/Machine/Flags.lean ====
section
/-! DEFINITION. The machine has no flags, no condition codes and no predicates (spec/10_state.md R30): no instruction
writes one and no rule computes one. What stands in their place are the two conditions of `JEQ` and `JNE`, computed from
the registers at the time of the jump and remembered nowhere (spec/44_jump.md R153). -/

namespace Sys2Proof.Machine

/-- The condition of `JEQ`: the whole bytes are equal (R151). -/
def condEq (x0 v : Byte) : Bool := x0 == v

/-- The condition of `JNE`: the whole bytes differ (R152). -/
def condNe (x0 v : Byte) : Bool := x0 != v

/-- `IP <- addr` if the condition holds, else IP stays at the byte after the instruction (R151, R152). -/
def State.jumpIf (s : State) (c : Bool) (addr : Word) : State := if c then s.setIp addr else s

end Sys2Proof.Machine
end

