-- ==== Sys2Proof/Machine/Jump.lean ====
section
/-! DEFINITION. The jumps (spec/44_jump.md R150 to R152). Every target is absolute and none is checked (R153). -/

namespace Sys2Proof.Machine

/-- `JMP addr` (R150). -/
def execJmp (addr : Word) (s : State) : Result := .next (s.setIp addr)

/-- `JEQ r, addr` (R151). -/
def execJeq (reg : Nat) (addr : Word) (s : State) : Result :=
  let (v, s1) := s.regRead reg
  .next (s1.jumpIf (condEq (s1.x 0) v) addr)

/-- `JNE r, addr` (R152). -/
def execJne (reg : Nat) (addr : Word) (s : State) : Result :=
  let (v, s1) := s.regRead reg
  .next (s1.jumpIf (condNe (s1.x 0) v) addr)

end Sys2Proof.Machine
end

