-- ==== Sys2Proof/Machine/Logical.lean ====
section
/-! DEFINITION. The logical and shift instructions (spec/42_logical.md R130 to R135). -/

namespace Sys2Proof.Machine

/-- `LND a, b` (R130). -/
def execLnd (a b : Nat) (s : State) : Result := .next (s.aluRegReg aluAnd a b)

/-- `LOR a, b` (R131). -/
def execLor (a b : Nat) (s : State) : Result := .next (s.aluRegReg aluOr a b)

/-- `LXR a, b` (R132). -/
def execLxr (a b : Nat) (s : State) : Result := .next (s.aluRegReg aluXor a b)

/-- `LBC a, b` (R133): the second operand is the mask. -/
def execLbc (a b : Nat) (s : State) : Result := .next (s.aluRegReg aluBitClear a b)

/-- `LSL r, n` (R134). -/
def execLsl (reg : Nat) (lit : Byte) (s : State) : Result := .next (s.aluRegLit aluShiftLeft reg lit)

/-- `LSR r, n` (R135). -/
def execLsr (reg : Nat) (lit : Byte) (s : State) : Result := .next (s.aluRegLit aluShiftRight reg lit)

end Sys2Proof.Machine
end

