-- ==== Sys2Proof/Machine/Move.lean ====
section
/-! DEFINITION. `NOP` (spec/40_step_dispatch.md R110) and the moves (spec/41_move.md R120 to R124). -/

namespace Sys2Proof.Machine

/-- `NOP`: no effect (R110). -/
def execNop (s : State) : Result := .next s

/-- `MLR lit, dst` (R120). -/
def execMlr (lit : Byte) (dst : Nat) (s : State) : Result := .next (s.regWrite dst lit)

/-- `MRR src, dst` (R121). -/
def execMrr (src dst : Nat) (s : State) : Result :=
  let (v, s1) := s.regRead src
  .next (s1.regWrite dst v)

/-- `MLM lit, ptr` (R122): the store is made whatever `Ptr` raised. -/
def execMlm (lit : Byte) (ptr : Nat) (s : State) : Result :=
  let (a, s1) := s.ptr ptr
  .next (s1.memWrite a lit)

/-- `MRM src, ptr` (R123): the value register is read before the pair (decision D25). -/
def execMrm (src ptr : Nat) (s : State) : Result :=
  let (v, s1) := s.regRead src
  let (a, s2) := s1.ptr ptr
  .next (s2.memWrite a v)

/-- `MMR ptr, dst` (R124): the address is formed from the old values of the pair. -/
def execMmr (ptr dst : Nat) (s : State) : Result :=
  let (a, s1) := s.ptr ptr
  .next (s1.regWrite dst (s1.memRead a))

end Sys2Proof.Machine
end

