-- ==== Sys2Proof/Machine/Stack.lean ====
section
/-! DEFINITION. The stack, call and return instructions (spec/45_stack_call.md R164 to R168). -/

namespace Sys2Proof.Machine

/-- `SPL lit` (R164). -/
def execSpl (lit : Byte) (s : State) : Result := .next (s.push lit)

/-- `SPR r` (R165): the register is read before the limit is checked. -/
def execSpr (reg : Nat) (s : State) : Result :=
  let (v, s1) := s.regRead reg
  .next (s1.push v)

/-- `STP r` (R166): one error and nothing else when the pop is refused (decision D20). -/
def execStp (reg : Nat) (s : State) : Result :=
  if s.popRefused then .next (s.raise (ErrorRecord.ofCode .stackUnderflow))
  else
    let (v, s1) := s.pop
    .next (s1.regWrite reg v)

/-- `CLL addr` (R167): nine saves, of which the refused ones each raise an error; FS and IP are set even then
(decision D23). IP is the return address already: the operands have been fetched (R25). -/
def execCll (addr : Word) (s : State) : Result :=
  .next (((s.saveAll s.frame).setFs 0).setIp addr)

/-- `RET` (R168): the FS bytes the callee left are dropped unread, then the frame is read back in reverse. No check of
any kind. -/
def execRet (s : State) : Result :=
  let s0 := s.setSp (s.sp - s.fs.setWidth 16)
  let (lo, s1) := s0.restore
  let (hi, s2) := s1.restore
  let s3 := s2.setIp (joinBytes hi lo)
  let s4 := (((((s3.restoreX 7).restoreX 6).restoreX 5).restoreX 4).restoreX 3).restoreX 2
  let (fs, s5) := s4.restore
  .next (s5.setFs fs)

end Sys2Proof.Machine
end

