-- ==== Sys2Proof/Machine/Dispatch.lean ====
section
/-! DEFINITION. The dispatch: one arm per instruction, each one call of its meaning. The state is the one after the
instruction's bytes have been fetched (spec/20_memory.md R64). -/

namespace Sys2Proof.Machine

def exec (i : Instr) (s : State) : Host.Outcome State Fault Refusal :=
  match i with
  | .nop => Sys2Proof.Machine.execNop s
  | .mlr lit dst => Sys2Proof.Machine.execMlr lit dst s
  | .mrr src dst => Sys2Proof.Machine.execMrr src dst s
  | .mlm lit ptr => Sys2Proof.Machine.execMlm lit ptr s
  | .mrm src ptr => Sys2Proof.Machine.execMrm src ptr s
  | .mmr ptr dst => Sys2Proof.Machine.execMmr ptr dst s
  | .lnd a b => Sys2Proof.Machine.execLnd a b s
  | .lor a b => Sys2Proof.Machine.execLor a b s
  | .lxr a b => Sys2Proof.Machine.execLxr a b s
  | .lbc a b => Sys2Proof.Machine.execLbc a b s
  | .lsl reg lit => Sys2Proof.Machine.execLsl reg lit s
  | .lsr reg lit => Sys2Proof.Machine.execLsr reg lit s
  | .inc reg => Sys2Proof.Machine.execInc reg s
  | .dec reg => Sys2Proof.Machine.execDec reg s
  | .add a b => Sys2Proof.Machine.execAdd a b s
  | .sub a b => Sys2Proof.Machine.execSub a b s
  | .mul a b => Sys2Proof.Machine.execMul a b s
  | .div a b => Sys2Proof.Machine.execDiv a b s
  | .jmp addr => Sys2Proof.Machine.execJmp addr s
  | .jeq reg addr => Sys2Proof.Machine.execJeq reg addr s
  | .jne reg addr => Sys2Proof.Machine.execJne reg addr s
  | .spl lit => Sys2Proof.Machine.execSpl lit s
  | .spr reg => Sys2Proof.Machine.execSpr reg s
  | .stp reg => Sys2Proof.Machine.execStp reg s
  | .cll addr => Sys2Proof.Machine.execCll addr s
  | .ret => Sys2Proof.Machine.execRet s
  | .pnt addr len => Sys2Proof.Machine.execPnt addr len s
  | .rin reg => Sys2Proof.Machine.execRin reg s
  | .hlt => Sys2Proof.Machine.execHlt s

end Sys2Proof.Machine
end

