-- ==== Sys2Proof/Machine/Step.lean ====
section
/-! DEFINITION. The step (spec/40_step_dispatch.md R100) and the run loop (R101). -/

namespace Sys2Proof.Machine

/-- What the fetched bytes do: the instruction they decode to is executed and the step is settled; bytes that are no
instruction are the `UNKNOWN_OPCODE` error (R111). `s` is the state before the fetch, `s1` the one after it. -/
def runFetched (s : State) (bytes : List Byte) (s1 : State) : Result :=
  match decode bytes with
  | .ok (i, _) => s.settle (exec i s1)
  | .error _ => .next (s1.unknownOpcode (bytes.headD 0) s.ip).endStep

/-- One step executes exactly one instruction, and only while `STATUS` is `RUNNING` (R100). In `HALTED` and `FAULTED` no
transition exists (spec/47_halt.md R192). -/
def step (s : State) : Host.Outcome State Fault Refusal :=
  match s.status with
  | .running => runFetched s s.fetchInstr.1 s.fetchInstr.2
  | .halted => .fault (.notRunning .halted)
  | .faulted => .fault (.notRunning .faulted)

/-- At most `n` steps of the run loop, which stops for good where no step is taken (R101). -/
def run : Nat → State → State
  | 0, s => s
  | n + 1, s =>
    match step s with
    | .next t => run n t
    | .fault _ => s
    | .refused _ => s

/-- At most `n` steps of the run loop on the argument `INPUT`, of which `k` bytes have been supplied: before each step the
environment supplies what `Input.supply` says (R7, R36, R101). The count of bytes supplied, and the state. -/
def runOn (input : Input) : Nat → Nat → State → Nat × State
  | 0, k, s => (k, s)
  | n + 1, k, s =>
    let (k1, s1) := input.supply k s
    match step s1 with
    | .next t => runOn input n k1 t
    | .fault _ => (k, s)
    | .refused _ => (k, s)

/-- The machine after at most `n` steps of its run on the arguments `MEM_INIT` and `INPUT` (R7, R243), with the count of the
bytes of `INPUT` supplied by then. -/
def runFrom (image : Memory) (input : Input) (n : Nat) : Nat × State :=
  runOn input n 0 (State.powerOn image input)

/-- `s` with an instruction, given by its number in the opcode table's numbering, stored where the next step fetches: at
IP and the three addresses after it. -/
def State.withFetchWord (s : State) (nbits w : Nat) : State :=
  s.setMem (Memory.load s.mem s.ip (tableBytes nbits w))

end Sys2Proof.Machine
end

