-- ==== Sys2Proof/Machine/Ports.lean ====
section
/-! DEFINITION. The block's interfaces in the abstract reading of spec/00_scope.md R8: what the status and error outputs
show, and which accesses the memory port carries in a step (spec/20_memory.md R69), in order. The step itself does not
use this file; the statements tie the two together. -/

namespace Sys2Proof.Machine

/-! ### The status and error outputs -/

/-- `status[1:0]` (spec/10_state.md R34). -/
def Status.bits : Status → BitVec 2
  | .running => 0
  | .halted => 1
  | .faulted => 2

/-- `exit_status`: 1 in `FAULTED`, 0 otherwise (spec/60_exceptions.md R217). -/
def State.exitStatus (s : State) : BitVec 1 :=
  match s.status with
  | .faulted => 1
  | .running | .halted => 0

/-- The code of an error (spec/60_exceptions.md R201). -/
def ErrorCode.bits : ErrorCode → BitVec 4
  | .unknownOpcode => 1
  | .invalidRegister => 2
  | .ipOutOfBounds => 3
  | .divideByZero => 4
  | .stackOverflow => 5
  | .stackUnderflow => 6
  | .readInput => 7
  | .frameTooLarge => 8

/-- `err_count` (R215). -/
def State.errCount (s : State) : BitVec 4 := BitVec.ofNat 4 s.err.length

/-- `err_rec[k]`: code, `info0`, `info1` of record `k`, and all zero where there is none (R201, R215). -/
def State.errRec (s : State) (k : Nat) : BitVec 4 × Word × Word :=
  match s.err[k]? with
  | some r => (r.code.bits, r.info0, r.info1)
  | none => (0, 0, 0)

/-! ### The memory port -/

/-- One access: `MemRead(addr, 1)` or `MemWrite(addr, 1, v)`. -/
inductive MemAccess where
  | read (a : Word)
  | write (a : Word) (v : Byte)
deriving DecidableEq, Repr

/-- What an access does to the memory. -/
def MemAccess.apply (m : Memory) : MemAccess → Memory
  | .read _ => m
  | .write a v => m.write a.toNat v

/-- What a list of accesses does to the memory, in its order. -/
def Memory.applyAll (m : Memory) (as : List MemAccess) : Memory := as.foldl MemAccess.apply m

/-- The accesses of `n` fetches from an IP on: a fetch at `0xFFFF` issues none (R69). -/
def fetchAccesses : Nat → Word → List MemAccess
  | 0, _ => []
  | n + 1, ip => (if ip = Config.fetchLimit then [] else [.read ip]) ++ fetchAccesses n (ip + 1)

/-- The accesses of a row of stack writes from an SP on: a write at `0xFFFF` is refused, and so is every later one
(spec/45_stack_call.md R162). -/
def saveAccesses : Word → List Byte → List MemAccess
  | _, [] => []
  | sp, v :: rest => if sp = Config.stackLimit then [] else .write sp v :: saveAccesses (sp + 1) rest

/-- `n` stack reads below an SP, downward (R163). -/
def restoreAccesses : Nat → Word → List MemAccess
  | 0, _ => []
  | n + 1, sp => .read (sp - 1) :: restoreAccesses n (sp - 1)

/-- `n` reads from an address upward (spec/46_io.md R181). -/
def rangeAccesses : Nat → Word → List MemAccess
  | 0, _ => []
  | n + 1, a => .read a :: rangeAccesses n (a + 1)

/-- The data, stack and block accesses of an instruction, after its bytes have been fetched (spec/20_memory.md R54). -/
def dataAccesses (i : Instr) (s : State) : List MemAccess :=
  match i with
  | .mlm lit p => [.write (s.ptrVal p) lit]
  | .mrm r p => [.write (s.ptrVal p) (s.regVal r)]
  | .mmr p _ => [.read (s.ptrVal p)]
  | .spl lit => saveAccesses s.sp [lit]
  | .spr r => saveAccesses s.sp [s.regVal r]
  | .stp _ => if s.popRefused then [] else restoreAccesses 1 s.sp
  | .cll _ => saveAccesses s.sp s.frame
  | .ret => restoreAccesses 9 (s.sp - s.fs.setWidth 16)
  | .pnt addr len => rangeAccesses len.toNat addr
  | .nop | .mlr _ _ | .mrr _ _ | .lnd _ _ | .lor _ _ | .lxr _ _ | .lbc _ _ | .lsl _ _ | .lsr _ _ => []
  | .inc _ | .dec _ | .add _ _ | .sub _ _ | .mul _ _ | .div _ _ => []
  | .jmp _ | .jeq _ _ | .jne _ _ | .rin _ | .hlt => []

/-- The accesses of one step, in order: its fetches, then those of its instruction (R64, R69). None in `HALTED` and in
`FAULTED` (spec/10_state.md R34). None in a step that only waits for input: the fetches of the waiting `RIN` are counted
once, in the step that completes it (log entry 6). -/
def State.memAccesses (s : State) : List MemAccess :=
  match s.status with
  | .running =>
    match decode s.fetchInstr.1 with
    | .ok (i, _) =>
      match exec i s.fetchInstr.2 with
      | .next _ => fetchAccesses s.fetchInstr.1.length s.ip ++ dataAccesses i s.fetchInstr.2
      | .fault _ => []
      | .refused _ => []
    | .error _ => fetchAccesses s.fetchInstr.1.length s.ip
  | .halted => []
  | .faulted => []

/-- Reset in the middle of a step, after `n` of its memory accesses: the writes among them stay done, the others are not
made, and nothing else of the step remains (spec/70_reset_and_hazards.md R240, decision D27). -/
def State.resetMidStep (s : State) (n : Nat) (input : InputStream) : State :=
  (s.setMem (s.mem.applyAll (s.memAccesses.take n))).applyReset input

end Sys2Proof.Machine
end

