-- ==== Sys2Proof/Safety.lean ====
section
/-! DEFINITION. The words the statements use: what a step can reach, the invariant of the state, what a clean state is, and the
spec's own tables of which instruction may change what. -/

namespace Sys2Proof

/-- The 29 defined opcode bytes (spec/30_encoding.md R85). -/
def definedOpcodes : List Nat :=
  [0x00, 0x01, 0x02, 0x03, 0x04, 0x05, 0x20, 0x21, 0x22, 0x23, 0x24, 0x25, 0x40, 0x41, 0x42, 0x43, 0x44, 0x45,
   0x60, 0x61, 0x62, 0x80, 0x81, 0x82, 0x83, 0x84, 0xE0, 0xE1, 0xFF]

/-- The registers an instruction may write (spec/10_state.md R23, the table's last column). -/
def Instr.writesReg : Instr → List Nat
  | .nop | .jmp _ | .spl _ | .pnt _ _ | .hlt => []
  | .mlm _ _ | .mrm _ _ | .jeq _ _ | .jne _ _ | .spr _ | .cll _ => []
  | .mlr _ d | .mrr _ d | .mmr _ d | .inc d | .dec d | .stp d | .rin d => [d]
  | .lnd _ _ | .lor _ _ | .lxr _ _ | .lbc _ _ | .lsl _ _ | .lsr _ _ => [0]
  | .add _ _ | .sub _ _ | .mul _ _ | .div _ _ => [0]
  | .ret => [2, 3, 4, 5, 6, 7]

/-- The instructions that write IP themselves (spec/10_state.md R26). -/
def Instr.writesIp : Instr → Bool
  | .jmp _ | .jeq _ _ | .jne _ _ | .cll _ | .ret => true
  | .nop | .mlr _ _ | .mrr _ _ | .mlm _ _ | .mrm _ _ | .mmr _ _ => false
  | .lnd _ _ | .lor _ _ | .lxr _ _ | .lbc _ _ | .lsl _ _ | .lsr _ _ => false
  | .inc _ | .dec _ | .add _ _ | .sub _ _ | .mul _ _ | .div _ _ => false
  | .spl _ | .spr _ | .stp _ | .pnt _ _ | .rin _ | .hlt => false

/-- The instructions that read or write SP and FS (spec/10_state.md R31). -/
def Instr.usesStack : Instr → Bool
  | .spl _ | .spr _ | .stp _ | .cll _ | .ret => true
  | .nop | .mlr _ _ | .mrr _ _ | .mlm _ _ | .mrm _ _ | .mmr _ _ => false
  | .lnd _ _ | .lor _ _ | .lxr _ _ | .lbc _ _ | .lsl _ _ | .lsr _ _ => false
  | .inc _ | .dec _ | .add _ _ | .sub _ _ | .mul _ _ | .div _ _ => false
  | .jmp _ | .jeq _ _ | .jne _ _ | .pnt _ _ | .rin _ | .hlt => false

/-- The instructions that write memory (spec/20_memory.md R54). -/
def Instr.writesMemory : Instr → Bool
  | .mlm _ _ | .mrm _ _ | .spl _ | .spr _ | .cll _ => true
  | .nop | .mlr _ _ | .mrr _ _ | .mmr _ _ => false
  | .lnd _ _ | .lor _ _ | .lxr _ _ | .lbc _ _ | .lsl _ _ | .lsr _ _ => false
  | .inc _ | .dec _ | .add _ _ | .sub _ _ | .mul _ _ | .div _ _ => false
  | .jmp _ | .jeq _ _ | .jne _ _ | .stp _ | .ret | .pnt _ _ | .rin _ | .hlt => false

/-- How many data, stack and block accesses an instruction makes that starts in `s` (spec/70_reset_and_hazards.md R260). -/
def Instr.dataAccessCount (i : Instr) (s : Machine.State) : Nat :=
  match i with
  | .mlm _ _ | .mrm _ _ | .mmr _ _ => 1
  | .spl _ | .spr _ => if s.sp = 0xFFFF then 0 else 1
  | .stp _ => if s.fs = 0 ∨ s.sp = 0xFF00 then 0 else 1
  | .cll _ => min 9 (65535 - s.sp.toNat)
  | .ret => 9
  | .pnt _ len => len.toNat
  | .nop | .mlr _ _ | .mrr _ _ | .lnd _ _ | .lor _ _ | .lxr _ _ | .lbc _ _ | .lsl _ _ | .lsr _ _ => 0
  | .inc _ | .dec _ | .add _ _ | .sub _ _ | .mul _ _ | .div _ _ => 0
  | .jmp _ | .jeq _ _ | .jne _ _ | .rin _ | .hlt => 0

end Sys2Proof

namespace Sys2Proof.Machine

/-- `t` follows `s` by zero or more steps. -/
inductive Reaches (s : State) : State → Prop where
  | refl : Reaches s s
  | step {t u : State} : Reaches s t → Sys2Proof.Machine.step t = .next u → Reaches s u

/-- What holds of every state between two steps: the memory is in canonical form, the error list fits its capacity
(spec/60_exceptions.md R212), and the run is `FAULTED` exactly when an error is recorded (spec/10_state.md R34). -/
def State.Inv (s : State) : Prop :=
  s.mem.wf = true ∧ s.err.length ≤ Config.errCap ∧ (s.status = .faulted ↔ s.err ≠ [])

/-- The state a step starts from in any run: `RUNNING`, and no error recorded (spec/10_state.md R34). -/
def State.Ready (s : State) : Prop := s.status = .running ∧ s.err = []

/-- A safe run: no error is recorded in any state it reaches. -/
def State.Safe (s : State) : Prop := ∀ t, Reaches s t → t.err = []

/-- `t` is a state of the run on the arguments `MEM_INIT` and `INPUT` (spec/00_scope.md R7). -/
def ReachesOn (image : Memory) (input : Input) (t : State) : Prop := ∃ n, (runFrom image input n).2 = t

/-- A safe run on `MEM_INIT` and `INPUT`: no error is recorded in any of its states. -/
def SafeOn (image : Memory) (input : Input) : Prop := ∀ t, ReachesOn image input t → t.err = []

/-- Whenever a running machine fetches exactly these bytes, its step is the meaning of `i` in the state after the fetch
(which holds the record of a refused fetch, if there was one), settled. It says how `i` is encoded, how many bytes it
has, and that the errors of the fetch come before its own (spec/40_step_dispatch.md R100). -/
def RunsAs (bytes : List Byte) (i : Instr) : Prop :=
  ∀ s : State, s.status = .running → s.fetchInstr.1 = bytes → step s = s.settle (exec i s.fetchInstr.2)

/-- The environment has not answered the read that a `RIN` would make (spec/46_io.md R182). -/
def State.Waits (s : State) : Prop := s.input.pending = [] ∧ s.input.tail = .silent

/-- The meanings of a list of instructions one after another, without a fetch or an end of step between them; it stops
where one of them answers no next state. -/
def execAll : List Instr → State → Result
  | [], s => .next s
  | i :: rest, s =>
    match exec i s with
    | .next t => execAll rest t
    | .fault f => .fault f
    | .refused r => .refused r

end Sys2Proof.Machine
end

