-- ==== Sys2Proof/Certificates/Slice0/Obligations.lean ====
section
/-! DEFINITION. The statements for the provers. Each docstring names the rule of spec/ it rests on; the records, addresses
and values the rules give are written out here, not taken from the meanings. `regVal`, `ptrVal`, `regErrors` and
`ptrErrors` (Sys2Proof/Machine/Operands.lean) are the value a checked access delivers and the records it raises. -/

open Sys2Proof Sys2Proof.Machine

/-! ## Encoding -/

/-- R80, R82, R84, R91: decoding the bytes of a well-formed instruction gives it back, and leaves the bytes after it. -/
def Obligations.DecodeInvertsEncode : Prop :=
  ∀ (i : Instr) (rest : List Byte), i.wellFormed = true → decode (encode i ++ rest) = .ok (i, rest)

/-- R83, R84: whatever the decoder accepts is the encoding of the instruction it answers, byte for byte. -/
def Obligations.EncodeInvertsDecode : Prop :=
  ∀ (bytes : List Byte) (i : Instr) (rest : List Byte), decode bytes = .ok (i, rest) →
    i.wellFormed = true ∧ bytes = encode i ++ rest

/-- R85, R86: the decoder refuses, as unknown, exactly the opcode bytes outside the 29 of the table, which are distinct bytes
(so 227 are refused). -/
def Obligations.UnknownOpcodesAreRefused : Prop :=
  (∀ (op : Byte) (rest : List Byte),
    decode (op :: rest) = .error (.unknownOpcode op) ↔ op.toNat ∉ definedOpcodes) ∧
  definedOpcodes.length = 29 ∧ definedOpcodes.Nodup ∧ (∀ n ∈ definedOpcodes, n < 256)

/-- The eleven encodings written out in R82 (`01 01 01`, `01 00 02`, `45 01 02`, `60 FF FF`, `83 00 03`) and in R93 (the other
six) decode to the instructions they stand for. -/
def Obligations.WrittenOutWordsDecode : Prop :=
  decode [0x01, 0x01, 0x01] = .ok (.mlr 0x01 1, []) ∧
  decode [0x01, 0x00, 0x02] = .ok (.mlr 0x00 2, []) ∧
  decode [0x60, 0xFF, 0xFF] = .ok (.jmp 0xFFFF, []) ∧
  decode [0x83, 0x00, 0x03] = .ok (.cll 0x0003, []) ∧
  decode [0x01, 0x2A, 0x03] = .ok (.mlr 0x2A 3, []) ∧
  decode [0x05, 0x02, 0x05] = .ok (.mmr 2 5, []) ∧
  decode [0x24, 0x05, 0x03] = .ok (.lsl 5 0x03, []) ∧
  decode [0x45, 0x01, 0x02] = .ok (.div 1 2, []) ∧
  decode [0x61, 0x01, 0x12, 0x34] = .ok (.jeq 1 0x1234, []) ∧
  decode [0x83, 0x02, 0x00] = .ok (.cll 0x0200, []) ∧
  decode [0xE0, 0x00, 0x06, 0x05] = .ok (.pnt 0x0006 0x05, [])

/-! ## The step -/

/-- R100: when the fetched bytes decode to `i`, that is a well-formed instruction with no byte left over, and the step is
`exec i` in the state after the fetch, then the end of the step (`ERR` non-empty: `STATUS` becomes `FAULTED`); while a
read is unanswered the step leaves everything as it was.
That waiting is a step that changes nothing is the model's choice (log entry 6); the `STATUS` values are the spec's decision D14
(log entry 20). -/
def Obligations.StepRunsFetchedInstruction : Prop :=
  ∀ (s : State) (i : Instr) (rest : List Byte), s.status = .running → decode s.fetchInstr.1 = .ok (i, rest) →
    i.wellFormed = true ∧ rest = [] ∧
    (∀ t, exec i s.fetchInstr.2 = .next t →
      step s = .next (if t.err = [] then t else t.setStatus .faulted)) ∧
    (exec i s.fetchInstr.2 = .fault .awaitingInput → step s = .next s)

/-- R100, R25, R26: when the bytes in memory from IP on are the encoding of a well-formed instruction that lies below
`0xFFFF`, the step is that instruction in the state with IP at the byte after it.
Waiting as a step that changes nothing is the model's choice (log entry 6). -/
def Obligations.StepRunsInstructionAtIp : Prop :=
  ∀ (s : State) (i : Instr), s.status = .running → i.wellFormed = true →
    s.ip.toNat + (encode i).length ≤ 0xFFFF →
    (∀ k (h : k < (encode i).length), s.memRead (s.ip + BitVec.ofNat 16 k) = (encode i)[k]) →
    (∀ t, exec i (s.setIp (s.ip + BitVec.ofNat 16 (encode i).length)) = .next t →
      step s = .next (if t.err = [] then t else t.setStatus .faulted)) ∧
    (exec i (s.setIp (s.ip + BitVec.ofNat 16 (encode i).length)) = .fault .awaitingInput → step s = .next s)

/-- R102: a fetch below `0xFFFF` delivers the byte at IP and advances IP; at `0xFFFF` it puts IP at `0x0000`, raises
`IP_OUT_OF_BOUNDS` and delivers `0x00`, whatever the memory holds; an instruction's fetches raise at most one error. -/
def Obligations.FetchAdvancesOrIsRefused : Prop :=
  (∀ s : State, s.ip ≠ 0xFFFF → s.fetch = (s.memRead s.ip, s.setIp (s.ip + 1))) ∧
  (∀ s : State, s.ip = 0xFFFF → s.fetch = (0x00, (s.setIp 0x0000).raise ⟨.ipOutOfBounds, 0, 0⟩)) ∧
  (∀ s : State, s.fetchInstr.1.length ≤ 4 ∧
    (s.fetchInstr.2.err = s.err ∨ s.fetchInstr.2.err = (s.raise ⟨.ipOutOfBounds, 0, 0⟩).err))

/-- R111, R204: the step at an unknown opcode byte advances IP by one, records `UNKNOWN_OPCODE` with the byte and the
address it was fetched from, enters the fault, and changes nothing else.
That the position is the address of the opcode byte, and the record's layout, are the spec's decisions D11 and D12
(log entry 11). -/
def Obligations.UnknownOpcodeFaults : Prop :=
  ∀ (s : State) (op : Byte), s.Ready → s.ip ≠ 0xFFFF → s.memRead s.ip = op → op.toNat ∉ definedOpcodes →
    step s = .next (((s.setIp (s.ip + 1)).setErr [⟨.unknownOpcode, op.setWidth 16, s.ip⟩]).setStatus .faulted)

/-- R26, R102, R110, R206: the step at IP `0xFFFF` is a `NOP` with the `IP_OUT_OF_BOUNDS` error, whatever `M[0xFFFF]`
holds. -/
def Obligations.StepAtTopOfMemoryFaults : Prop :=
  ∀ s : State, s.Ready → s.ip = 0xFFFF →
    step s = .next (((s.setIp 0x0000).setErr [⟨.ipOutOfBounds, 0, 0⟩]).setStatus .faulted)

/-- R192, R34: in `HALTED` and `FAULTED` the machine takes no step, makes no memory access and changes nothing; only reset
leaves them.
That no step exists there is the spec's decision D14; that the model's step answers a fault for it is the model's choice (log
entry 5). -/
def Obligations.TerminalStatesAreFinal : Prop :=
  ∀ s : State, s.status ≠ .running →
    step s = .fault (.notRunning s.status) ∧ s.memAccesses = [] ∧ (∀ n, run n s = s) ∧
    (∀ input n k, (runOn input n k s).2 = s) ∧ (∀ t, Reaches s t → t = s) ∧
    (∀ input, (s.applyReset input).status = .running)

/-- R34, R191: from a running machine without errors the step answers a next state, which is exactly one of fault, halt and
continue. That the step of a `RIN` whose read is unanswered answers one too, the unchanged state, counted here as continue,
is the model's choice (log entry 6): by R100 and R182 that step has not ended.
The three `STATUS` values and `exit_status` are the spec's decisions D14 and D26 (log entries 15 and 20). -/
def Obligations.StepHasOneOutcome : Prop :=
  ∀ s : State, s.Ready → ∃ t, step s = .next t ∧
    (t.err ≠ [] → t.status = .faulted ∧ t.exitStatus = 1) ∧
    (t.err = [] → decode s.fetchInstr.1 = .ok (.hlt, []) → t.status = .halted ∧ t.exitStatus = 0) ∧
    (t.err = [] → decode s.fetchInstr.1 ≠ .ok (.hlt, []) → t.status = .running ∧ t.exitStatus = 0)

/-- R112: every instruction that does not overwrite IP advances it by one plus its operand bytes, whatever the state; when
a fetch meets `0xFFFF`, IP ends at the count of bytes fetched after the wrap.
R112 is derived by the spec from the other rules. -/
def Obligations.IpAdvancesByLength : Prop :=
  ∀ (s : State) (i : Instr), s.status = .running → decode s.fetchInstr.1 = .ok (i, []) →
    (∀ a, i ≠ .jmp a) → (∀ a, i ≠ .cll a) → i ≠ .ret →
    (∀ r a, i = .jeq r a → s.x 0 ≠ s.regVal r) → (∀ r a, i = .jne r a → s.x 0 = s.regVal r) →
    (∀ r, i = .rin r → ¬ s.Waits) →
    ∃ t, step s = .next t ∧
      (s.ip.toNat + (1 + operandBytes i.opcode) < 65536 →
        t.ip.toNat = s.ip.toNat + (1 + operandBytes i.opcode)) ∧
      (65536 ≤ s.ip.toNat + (1 + operandBytes i.opcode) →
        t.ip.toNat = s.ip.toNat + (1 + operandBytes i.opcode) - 65536)

/-! ## Whole-machine rules -/

/-- R32, R215: along every run, on any `INPUT` too, the error list only grows, and once it is non-empty the
run is over. -/
def Obligations.ErrorListIsMonotonic : Prop :=
  (∀ s t : State, Reaches s t → s.err <+: t.err) ∧
  (∀ s t : State, s.Inv → Reaches s t → s.err ≠ [] → t = s) ∧
  (∀ (input : Input) (n k : Nat) (s : State), s.err <+: (runOn input n k s).2.err ∧
    (s.Inv → s.err ≠ [] → (runOn input n k s).2 = s))

/-- R34, R53, R212: every step keeps the invariant (canonical memory, at most ten records, `FAULTED` exactly when `ERR`
is non-empty), from every state that meets it.
The canonical form is the model's own (log entry 2), the bound of ten the spec's decision D13 (log entry 17). -/
def Obligations.StepKeepsInvariant : Prop :=
  ∀ s t : State, s.Inv → step s = .next t → t.Inv

/-- R37, R240, R243: the invariant holds after reset, for every canonical memory image, and after a reset of any state
whose memory is canonical.
The empty memory of `State.reset` is the model's choice (log entry 2). -/
def Obligations.ResetMeetsInvariant : Prop :=
  State.reset.Inv ∧
  (∀ (image : Memory) (input : Input), image.wf = true → (State.powerOn image input).Inv) ∧
  (∀ (s : State) (input : InputStream), s.mem.wf = true → (s.applyReset input).Inv)

/-- R54, R64, R69: the memory after a step is the memory before it with exactly the writes the memory port carries, in
their order; and what a completed step does depends on the memory only through the reads the port carries: over another
memory that answers those the same, it does the same to everything else and makes the same writes.
The port is the spec's decision D2 in its abstract reading (log entry 15). -/
def Obligations.MemoryFollowsThePort : Prop :=
  (∀ s t : State, step s = .next t → t.mem = s.mem.applyAll s.memAccesses) ∧
  (∀ (s t : State) (m : Memory), step s = .next t →
    (∀ r, decode s.fetchInstr.1 = .ok (.rin r, []) → ¬ s.Waits) →
    (∀ a, MemAccess.read a ∈ s.memAccesses → m.read a.toNat = s.memRead a) →
    step (s.setMem m) = .next (t.setMem (m.applyAll s.memAccesses)))

/-- R260, R69, R34: how many accesses the memory port carries in a step: for every instruction its length (less one where a
fetch is refused) and its data accesses (`Instr.dataAccessCount` of Sys2Proof/Safety.lean is R260's table); one for an unknown
opcode; none in `HALTED` and `FAULTED`. That the reads it carries are all the step depends on says `MemoryFollowsThePort`.
R260 is derived by the spec; that a refused fetch and a dropped byte read nothing are its decisions D10 and D9 (log entries 9
and 12); that a step which only waits carries none is the model's choice (log entry 6). -/
def Obligations.MemoryAccessCounts : Prop :=
  (∀ (s : State) (i : Instr), s.status = .running → decode s.fetchInstr.1 = .ok (i, []) →
    (∀ r, i = .rin r → ¬ s.Waits) →
    s.memAccesses.length =
      (if s.ip.toNat + (1 + operandBytes i.opcode) ≤ 0xFFFF then 1 + operandBytes i.opcode else operandBytes i.opcode) +
      i.dataAccessCount s) ∧
  (∀ (s : State) (op : Byte), s.status = .running → decode s.fetchInstr.1 = .error (.unknownOpcode op) →
    s.memAccesses = [.read s.ip]) ∧
  (∀ (s : State) (r : Nat), decode s.fetchInstr.1 = .ok (.rin r, []) → s.Waits → s.memAccesses = []) ∧
  (∀ s : State, s.status ≠ .running → s.memAccesses = [])

/-- R35: the output trace is empty at reset and only grows, and only a `PNT` step makes it grow. -/
def Obligations.OnlyPntWritesOutput : Prop :=
  State.reset.output = [] ∧
  ∀ s t : State, step s = .next t → s.output <+: t.output ∧
    ((∀ a len, decode s.fetchInstr.1 ≠ .ok (.pnt a len, [])) → t.output = s.output)

/-- R35: the machine never reads its output: with any other trace before the step, the step appends the same events and
does the same to everything else. -/
def Obligations.OutputIsNeverRead : Prop :=
  ∀ (s t : State) (o : List OutEvent), step s = .next t →
    step (s.setOutput o) = .next (t.setOutput (o ++ t.output.drop s.output.length))

/-- R36, R182: a step takes at most one byte from the front of the input, and only a `RIN` step touches the input. -/
def Obligations.OnlyRinReadsInput : Prop :=
  ∀ s t : State, step s = .next t →
    (∃ used, s.input.pending = used ++ t.input.pending ∧ used.length ≤ 1) ∧ t.input.tail = s.input.tail ∧
    ((∀ r, decode s.fetchInstr.1 ≠ .ok (.rin r, [])) → t.input = s.input ∧ t.failedReads = s.failedReads)

/-- R23: an instruction writes no register but those the table of R23 gives it.
The table is derived by the spec from its instruction rules. -/
def Obligations.RegistersWrittenAsTabled : Prop :=
  ∀ (i : Instr) (s t : State) (r : Fin 8), exec i s = .next t → r.val ∉ i.writesReg → t.x r = s.x r

/-- R31: SP and FS change only in the stack instructions, IP only in those that write it (beyond the fetch), and `STATUS`
only in `HLT` (beyond the end of the step).
The rule is derived by the spec from its instruction rules. -/
def Obligations.ControlStateWrittenAsTabled : Prop :=
  ∀ (i : Instr) (s t : State), exec i s = .next t →
    (i.usesStack = false → t.sp = s.sp ∧ t.fs = s.fs) ∧ (i.writesIp = false → t.ip = s.ip) ∧
    (i ≠ .hlt → t.status = s.status)

/-- R54: an instruction outside the stores, the pushes and `CLL` leaves every byte of memory as it was.
The rule is derived by the spec from its instruction rules. -/
def Obligations.MemoryWrittenAsTabled : Prop :=
  ∀ (i : Instr) (s t : State), exec i s = .next t → i.writesMemory = false → ∀ a, t.memRead a = s.memRead a

/-- R100, R107, R182: in every state every instruction runs to its end, but for a `RIN` whose read is unanswered.
That the unanswered read is the one exception is the model's choice (log entry 6). -/
def Obligations.EveryInstructionCompletes : Prop :=
  ∀ (i : Instr) (s : State), (∀ r, i = .rin r → ¬ s.Waits) → ∃ t, exec i s = .next t

/-- R87, R205: an instruction whose registers all exist raises no `INVALID_REGISTER`. -/
def Obligations.ExistingRegistersRaiseNoRegisterError : Prop :=
  ∀ (i : Instr) (s t : State), exec i s = .next t → i.registersExist = true →
    ∀ q ∈ t.err, q.code = .invalidRegister → q ∈ s.err

/-- R212: from a running state without errors one step records at most ten errors, and at most three unless it is a `CLL`;
ten are reached.
The spec derives the bound and takes it as `ERRCAP` by its decision D13 (log entry 17). -/
def Obligations.ErrorsOfAStepAreBounded : Prop :=
  (∀ s t : State, s.Ready → step s = .next t → t.err.length ≤ 10 ∧
    ((∀ a, decode s.fetchInstr.1 ≠ .ok (.cll a, [])) → t.err.length ≤ 3)) ∧
  (∃ s t : State, s.Ready ∧ step s = .next t ∧ t.err.length = 10)

/-! ## Shared operations -/

/-- R53 (and R52): a write sets the byte at its address, leaves every other byte, and changes nothing but the memory. -/
def Obligations.MemoryReadAfterWrite : Prop :=
  ∀ (s : State) (a : Word) (v : Byte), s.mem.wf = true →
    (s.memWrite a v).memRead a = v ∧ (∀ b, b ≠ a → (s.memWrite a v).memRead b = s.memRead b) ∧
    ∃ m, s.memWrite a v = s.setMem m

/-- R50, R243: a canonical memory is determined by its bytes, and every image of the address space is some canonical
memory.
The canonical form is the model's own (log entry 2). -/
def Obligations.CanonicalMemoryIsTheImage : Prop :=
  (∀ m m' : Memory, m.wf = true → m'.wf = true → (∀ a, a < 65536 → m.read a = m'.read a) → m = m') ∧
  (∀ image : Nat → Byte, ∃ m : Memory, m.wf = true ∧ ∀ a, a < 65536 → m.read a = image a)

/-- R104, R105: reading or writing a register that exists reads or writes it and raises nothing; with an index of 8 or more
a read delivers `0x00` and a write is dropped, each raising `INVALID_REGISTER` with that index.
The `0x00` and the dropped write are the spec's decision D3 (log entry 7). -/
def Obligations.CheckedRegisterAccess : Prop :=
  (∀ (s : State) (i : Fin 8), s.regRead i.val = (s.x i, s)) ∧
  (∀ (s : State) (i : Nat), 8 ≤ i → s.regRead i = (0x00, s.raise ⟨.invalidRegister, BitVec.ofNat 16 i, 0⟩)) ∧
  (∀ (s : State) (i : Fin 8) (v : Byte), (s.regWrite i.val v).x i = v ∧
    (∀ j, j ≠ i → (s.regWrite i.val v).x j = s.x j) ∧ (s.regWrite i.val v).err = s.err) ∧
  (∀ (s : State) (i : Nat) (v : Byte), 8 ≤ i →
    s.regWrite i v = s.raise ⟨.invalidRegister, BitVec.ofNat 16 i, 0⟩)

/-- R106: the four outcomes of `Ptr(r)`; the pair never wraps, neither from R7 to R0 nor from index 255 (whose
partner is the invalid index 256).
That 255 has the partner 256 is the spec's decision D4, the `0x00` its decision D3 (log entry 7). -/
def Obligations.PointerPairOutcomes : Prop :=
  (∀ (s : State) (r : Nat) (h : r < 7),
    s.ptr r = (joinBytes (s.x ⟨r, by omega⟩) (s.x ⟨r + 1, by omega⟩), s)) ∧
  (∀ s : State, s.ptr 7 = (joinBytes (s.x 7) 0x00, s.raise ⟨.invalidRegister, 8, 0⟩)) ∧
  (∀ (s : State) (r : Nat), 8 ≤ r →
    s.ptr r = (0x0000, (s.raise ⟨.invalidRegister, BitVec.ofNat 16 r, 0⟩).raise
      ⟨.invalidRegister, BitVec.ofNat 16 (r + 1), 0⟩)) ∧
  (∀ hi lo : Byte, (joinBytes hi lo).toNat = hi.toNat * 256 + lo.toNat)

/-- R200: `raise` appends one record and does nothing else; a list of ten records drops it.
That ten is the capacity and a further record is dropped is the spec's decision D13 (log entry 17). -/
def Obligations.RaiseAppendsOneRecord : Prop :=
  ∀ (s : State) (q : ErrorRecord),
    (s.err.length < 10 → s.raise q = s.setErr (s.err ++ [q])) ∧ (10 ≤ s.err.length → s.raise q = s)

/-! ## The instructions: encoding, effect in every form, errors in order, and what stays -/

/-- R110: no effect; the only state change of the step is the IP of the opcode fetch; at `0xFFFF` a `NOP` is what runs, with the
error of the refused fetch. -/
def Obligations.NopHasNoEffect : Prop :=
  RunsAs [0x00] .nop ∧ (∀ s : State, exec .nop s = .next s) ∧
  (∀ s : State, s.Ready → s.ip ≠ 0xFFFF → s.memRead s.ip = 0x00 → step s = .next (s.setIp (s.ip + 1))) ∧
  (∀ s : State, s.Ready → s.ip = 0xFFFF → decode s.fetchInstr.1 = .ok (.nop, []) ∧
    s.fetchInstr.2 = (s.setIp 0x0000).setErr [⟨.ipOutOfBounds, 0, 0⟩])

/-- R120, R121.
The `0x00` of a missing register and the dropped write are the spec's decision D3 (log entry 7). -/
def Obligations.MovesToARegister : Prop :=
  (∀ lit d : Byte, RunsAs [0x01, lit, d] (.mlr lit d.toNat)) ∧
  (∀ (lit : Byte) (d : Fin 8) (s : State), exec (.mlr lit d.val) s = .next (s.setX d lit)) ∧
  (∀ (lit : Byte) (d : Nat) (s : State), 8 ≤ d →
    exec (.mlr lit d) s = .next (s.raise ⟨.invalidRegister, BitVec.ofNat 16 d, 0⟩)) ∧
  (∀ r d : Byte, RunsAs [0x02, r, d] (.mrr r.toNat d.toNat)) ∧
  (∀ (r : Nat) (d : Fin 8) (s : State),
    exec (.mrr r d.val) s = .next ((s.raiseAll (regErrors r)).setX d (s.regVal r))) ∧
  (∀ (r d : Nat) (s : State), 8 ≤ d →
    exec (.mrr r d) s = .next (s.raiseAll (regErrors r ++ [⟨.invalidRegister, BitVec.ofNat 16 d, 0⟩])))

/-- R122, R123: the store is made in every form, to the address the pair holds; every other byte stays.
What a missing register delivers is the spec's decision D3, the order of the errors its decision D25 (log entry 7). -/
def Obligations.MovesToMemory : Prop :=
  (∀ lit p : Byte, RunsAs [0x03, lit, p] (.mlm lit p.toNat)) ∧
  (∀ r p : Byte, RunsAs [0x04, r, p] (.mrm r.toNat p.toNat)) ∧
  (∀ (lit : Byte) (p : Nat) (s : State),
    exec (.mlm lit p) s = .next ((s.raiseAll (ptrErrors p)).memWrite (s.ptrVal p) lit)) ∧
  (∀ (r p : Nat) (s : State),
    exec (.mrm r p) s =
      .next ((s.raiseAll (regErrors r ++ ptrErrors p)).memWrite (s.ptrVal p) (s.regVal r))) ∧
  (∀ (lit : Byte) (p : Nat) (s t : State), s.mem.wf = true → exec (.mlm lit p) s = .next t →
    t.memRead (s.ptrVal p) = lit ∧ ∀ a, a ≠ s.ptrVal p → t.memRead a = s.memRead a) ∧
  (∀ (r p : Nat) (s t : State), s.mem.wf = true → exec (.mrm r p) s = .next t →
    t.memRead (s.ptrVal p) = s.regVal r ∧ ∀ a, a ≠ s.ptrVal p → t.memRead a = s.memRead a)

/-- R124: the byte at the address of the old pair goes to the destination; memory stays.
What a missing register delivers is the spec's decision D3, the order of the errors its decision D25 (log entry 7). -/
def Obligations.MovesFromMemory : Prop :=
  (∀ p d : Byte, RunsAs [0x05, p, d] (.mmr p.toNat d.toNat)) ∧
  (∀ (p : Nat) (d : Fin 8) (s : State),
    exec (.mmr p d.val) s = .next ((s.raiseAll (ptrErrors p)).setX d (s.memRead (s.ptrVal p)))) ∧
  (∀ (p d : Nat) (s : State), 8 ≤ d →
    exec (.mmr p d) s = .next (s.raiseAll (ptrErrors p ++ [⟨.invalidRegister, BitVec.ofNat 16 d, 0⟩])))

/-- R130 to R133, R21: the result goes to `x[0]` and nowhere else, also after a register error.
The `0x00` of a missing register is the spec's decision D3 (log entry 7). -/
def Obligations.LogicalOperations : Prop :=
  (∀ a b : Byte, RunsAs [0x20, a, b] (.lnd a.toNat b.toNat) ∧ RunsAs [0x21, a, b] (.lor a.toNat b.toNat) ∧
    RunsAs [0x22, a, b] (.lxr a.toNat b.toNat) ∧ RunsAs [0x23, a, b] (.lbc a.toNat b.toNat)) ∧
  (∀ (a b : Nat) (s : State),
    exec (.lnd a b) s =
      .next ((s.raiseAll (regErrors a ++ regErrors b)).setX 0 (s.regVal a &&& s.regVal b)) ∧
    exec (.lor a b) s =
      .next ((s.raiseAll (regErrors a ++ regErrors b)).setX 0 (s.regVal a ||| s.regVal b)) ∧
    exec (.lxr a b) s =
      .next ((s.raiseAll (regErrors a ++ regErrors b)).setX 0 (s.regVal a ^^^ s.regVal b)) ∧
    exec (.lbc a b) s =
      .next ((s.raiseAll (regErrors a ++ regErrors b)).setX 0 (s.regVal a &&& (255#8 - s.regVal b))))

/-- R134, R135: a count of 8 or more gives 0; the count is not taken modulo 8; the right shift is logical.
The `0x00` of a missing register is the spec's decision D3 (log entry 7). -/
def Obligations.ShiftOperations : Prop :=
  (∀ r n : Byte, RunsAs [0x24, r, n] (.lsl r.toNat n) ∧ RunsAs [0x25, r, n] (.lsr r.toNat n)) ∧
  (∀ (r : Nat) (n : Byte) (s : State),
    exec (.lsl r n) s = .next ((s.raiseAll (regErrors r)).setX 0
      (if 8 ≤ n.toNat then 0 else BitVec.ofNat 8 ((s.regVal r).toNat * 2 ^ n.toNat % 256))) ∧
    exec (.lsr r n) s = .next ((s.raiseAll (regErrors r)).setX 0
      (if 8 ≤ n.toNat then 0 else BitVec.ofNat 8 ((s.regVal r).toNat / 2 ^ n.toNat))))

/-- R140, R141: the register named is the one written; one that does not exist is two errors and no write.
The two errors are the spec's decision D5 (log entry 7). -/
def Obligations.IncrementAndDecrement : Prop :=
  (∀ r : Byte, RunsAs [0x40, r] (.inc r.toNat) ∧ RunsAs [0x41, r] (.dec r.toNat)) ∧
  (∀ (r : Fin 8) (s : State),
    exec (.inc r.val) s = .next (s.setX r (BitVec.ofNat 8 (((s.x r).toNat + 1) % 256))) ∧
    exec (.dec r.val) s = .next (s.setX r (BitVec.ofNat 8 (((s.x r).toNat + 255) % 256)))) ∧
  (∀ (r : Nat) (s : State), 8 ≤ r →
    exec (.inc r) s = .next ((s.raise ⟨.invalidRegister, BitVec.ofNat 16 r, 0⟩).raise
      ⟨.invalidRegister, BitVec.ofNat 16 r, 0⟩) ∧
    exec (.dec r) s = .next ((s.raise ⟨.invalidRegister, BitVec.ofNat 16 r, 0⟩).raise
      ⟨.invalidRegister, BitVec.ofNat 16 r, 0⟩))

/-- R142 to R144: sum, difference and product modulo 256, to `x[0]`.
The `0x00` of a missing register is the spec's decision D3 (log entry 7). -/
def Obligations.AddSubtractMultiply : Prop :=
  (∀ a b : Byte, RunsAs [0x42, a, b] (.add a.toNat b.toNat) ∧ RunsAs [0x43, a, b] (.sub a.toNat b.toNat) ∧
    RunsAs [0x44, a, b] (.mul a.toNat b.toNat)) ∧
  (∀ (a b : Nat) (s : State),
    exec (.add a b) s = .next ((s.raiseAll (regErrors a ++ regErrors b)).setX 0
      (BitVec.ofNat 8 (((s.regVal a).toNat + (s.regVal b).toNat) % 256))) ∧
    exec (.sub a b) s = .next ((s.raiseAll (regErrors a ++ regErrors b)).setX 0
      (BitVec.ofNat 8 (((s.regVal a).toNat + 256 - (s.regVal b).toNat) % 256))) ∧
    exec (.mul a b) s = .next ((s.raiseAll (regErrors a ++ regErrors b)).setX 0
      (BitVec.ofNat 8 ((s.regVal a).toNat * (s.regVal b).toNat % 256))))

/-- R145: the quotient goes to `x[0]`; a divisor value of 0, also of a register that does not exist, is `DIVIDE_BY_ZERO`
after the register errors, and `x[0]` keeps its value.
That `x[0]` keeps its value is the spec's decision D6 (log entry 8), the `0x00` of a missing register its decision D3 (log entry
7). -/
def Obligations.DivideOrRaise : Prop :=
  (∀ a b : Byte, RunsAs [0x45, a, b] (.div a.toNat b.toNat)) ∧
  (∀ (a b : Nat) (s : State), s.regVal b ≠ 0 →
    exec (.div a b) s = .next ((s.raiseAll (regErrors a ++ regErrors b)).setX 0
      (BitVec.ofNat 8 ((s.regVal a).toNat / (s.regVal b).toNat)))) ∧
  (∀ (a b : Nat) (s : State), s.regVal b = 0 →
    exec (.div a b) s = .next (s.raiseAll (regErrors a ++ regErrors b ++ [⟨.divideByZero, 0, 0⟩])))

/-- R150: IP becomes the address, high byte first; nothing else changes. The jump is still made where a fetch is refused, with
`0x00` for the byte not fetched and the low byte then taken from `0x0000`. -/
def Obligations.JumpSetsIp : Prop :=
  (∀ hi lo : Byte, RunsAs [0x60, hi, lo] (.jmp (joinBytes hi lo))) ∧
  (∀ (a : Word) (s : State), exec (.jmp a) s = .next (s.setIp a)) ∧
  (∀ (s : State) (hi lo : Byte), s.Ready → s.ip.toNat ≤ 0xFFFC → s.memRead s.ip = 0x60 → s.memRead (s.ip + 1) = hi →
    s.memRead (s.ip + 2) = lo → step s = .next (s.setIp (joinBytes hi lo))) ∧
  (∀ (s : State) (hi : Byte), s.Ready → s.ip = 0xFFFD → s.memRead 0xFFFD = 0x60 → s.memRead 0xFFFE = hi →
    step s = .next (((s.setIp (joinBytes hi 0x00)).setErr [⟨.ipOutOfBounds, 0, 0⟩]).setStatus .faulted)) ∧
  (∀ (s : State) (lo : Byte), s.Ready → s.ip = 0xFFFE → s.memRead 0xFFFE = 0x60 → s.memRead 0x0000 = lo →
    step s = .next (((s.setIp (joinBytes 0x00 lo)).setErr [⟨.ipOutOfBounds, 0, 0⟩]).setStatus .faulted))

/-- R151, R152: the jump is taken exactly when `x[0]` equals, or differs from, the value read; all operand bytes are fetched
either way.
The `0x00` of a missing register is the spec's decision D3 (log entry 7). -/
def Obligations.ConditionalJumps : Prop :=
  (∀ r hi lo : Byte, RunsAs [0x61, r, hi, lo] (.jeq r.toNat (joinBytes hi lo)) ∧
    RunsAs [0x62, r, hi, lo] (.jne r.toNat (joinBytes hi lo))) ∧
  (∀ (r : Nat) (a : Word) (s : State),
    (s.x 0 = s.regVal r → exec (.jeq r a) s = .next ((s.raiseAll (regErrors r)).setIp a) ∧
      exec (.jne r a) s = .next (s.raiseAll (regErrors r))) ∧
    (s.x 0 ≠ s.regVal r → exec (.jeq r a) s = .next (s.raiseAll (regErrors r)) ∧
      exec (.jne r a) s = .next ((s.raiseAll (regErrors r)).setIp a)))

/-- R164, R165, R160: refused at SP `0xFFFF` with nothing done; else the byte is written at SP, SP and FS go up by one, and a
frame of 255 bytes raises `FRAME_TOO_LARGE` with FS wrapped to 0. Every other byte stays.
The push that wraps FS is the spec's decision D7 (log entry 9), the `0x00` of a missing register its decision D3 (log entry 7). -/
def Obligations.PushInstructions : Prop :=
  (∀ lit : Byte, RunsAs [0x80, lit] (.spl lit)) ∧ (∀ r : Byte, RunsAs [0x81, r] (.spr r.toNat)) ∧
  (∀ (v : Byte) (s : State),
    (s.sp = 0xFFFF → exec (.spl v) s = .next (s.raise ⟨.stackOverflow, 0, 0⟩)) ∧
    (s.sp ≠ 0xFFFF → s.fs ≠ 0xFF →
      exec (.spl v) s = .next (((s.memWrite s.sp v).setSp (s.sp + 1)).setFs (s.fs + 1))) ∧
    (s.sp ≠ 0xFFFF → s.fs = 0xFF →
      exec (.spl v) s =
        .next ((((s.raise ⟨.frameTooLarge, 0, 0⟩).memWrite s.sp v).setSp (s.sp + 1)).setFs 0))) ∧
  (∀ (r : Nat) (s : State),
    (s.sp = 0xFFFF → exec (.spr r) s = .next (s.raiseAll (regErrors r ++ [⟨.stackOverflow, 0, 0⟩]))) ∧
    (s.sp ≠ 0xFFFF → s.fs ≠ 0xFF →
      exec (.spr r) s = .next ((((s.raiseAll (regErrors r)).memWrite s.sp (s.regVal r)).setSp (s.sp + 1)).setFs
        (s.fs + 1))) ∧
    (s.sp ≠ 0xFFFF → s.fs = 0xFF →
      exec (.spr r) s = .next ((((s.raiseAll (regErrors r ++ [⟨.frameTooLarge, 0, 0⟩])).memWrite s.sp
        (s.regVal r)).setSp (s.sp + 1)).setFs 0))) ∧
  (∀ (i : Instr) (s t : State), (∃ v, i = .spl v) ∨ (∃ r, i = .spr r) → s.mem.wf = true → exec i s = .next t →
    ∀ a, a ≠ s.sp ∨ s.sp = 0xFFFF → t.memRead a = s.memRead a)

/-- R166: refused, with one error and nothing else, when FS is 0 or SP is `0xFF00`; else the top byte goes to the register
and SP and FS go down by one, also when the register does not exist.
The one error and the untouched register are the spec's decision D20, SP modulo 65536 its decision D9 (log entry 9). -/
def Obligations.PopInstruction : Prop :=
  (∀ r : Byte, RunsAs [0x82, r] (.stp r.toNat)) ∧
  (∀ (r : Nat) (s : State), s.fs = 0 ∨ s.sp = 0xFF00 →
    exec (.stp r) s = .next (s.raise ⟨.stackUnderflow, 0, 0⟩)) ∧
  (∀ (r : Fin 8) (s : State), s.fs ≠ 0 → s.sp ≠ 0xFF00 →
    exec (.stp r.val) s = .next (((s.setSp (s.sp - 1)).setFs (s.fs - 1)).setX r (s.memRead (s.sp - 1)))) ∧
  (∀ (r : Nat) (s : State), 8 ≤ r → s.fs ≠ 0 → s.sp ≠ 0xFF00 →
    exec (.stp r) s =
      .next (((s.setSp (s.sp - 1)).setFs (s.fs - 1)).raise ⟨.invalidRegister, BitVec.ofNat 16 r, 0⟩))

/-- R167, R169: of the nine bytes, as many as lie below `0xFFFF` are written from SP upward, in the order FS, R2 to R7, IP
high, IP low, and each of the others raises `STACK_OVERFLOW`; FS becomes 0 and IP the target in every case; no register
changes, and every other byte stays.
FS and IP after refused saves are the spec's decision D23 (log entry 9). -/
def Obligations.CallSavesFrame : Prop :=
  (∀ hi lo : Byte, RunsAs [0x83, hi, lo] (.cll (joinBytes hi lo))) ∧
  (∀ (a : Word) (s : State), ∃ t, exec (.cll a) s = .next t ∧
    t.sp = s.sp + BitVec.ofNat 16 (min 9 (65535 - s.sp.toNat)) ∧ t.fs = 0 ∧ t.ip = a ∧
    t.err = (s.raiseAll (List.replicate (9 - min 9 (65535 - s.sp.toNat)) ⟨.stackOverflow, 0, 0⟩)).err ∧
    (∀ r, t.x r = s.x r) ∧ t.status = s.status ∧ t.input = s.input ∧ t.output = s.output ∧
    t.failedReads = s.failedReads ∧
    (s.mem.wf = true →
      (∀ k (h : k < 9), k < 65535 - s.sp.toNat → t.memRead (s.sp + BitVec.ofNat 16 k) =
        [s.fs, s.x 2, s.x 3, s.x 4, s.x 5, s.x 6, s.x 7, highByte s.ip, lowByte s.ip][k]) ∧
      (∀ b, (∀ k, k < min 9 (65535 - s.sp.toNat) → b ≠ s.sp + BitVec.ofNat 16 k) →
        t.memRead b = s.memRead b)))

/-- R168: the callee's FS bytes are dropped, then IP, R7 down to R2 and FS are read back from below; no error, no check;
R0, R1 and the memory stay.
That SP is taken modulo 65536 without error and FS is dropped by one subtraction is the spec's decision D9 (log entry 9). -/
def Obligations.ReturnRestoresFrame : Prop :=
  RunsAs [0x84] .ret ∧
  (∀ (s : State) (b : Word), b = s.sp - s.fs.setWidth 16 → ∃ t, exec .ret s = .next t ∧
    t.ip = joinBytes (s.memRead (b - 2)) (s.memRead (b - 1)) ∧
    t.x 7 = s.memRead (b - 3) ∧ t.x 6 = s.memRead (b - 4) ∧ t.x 5 = s.memRead (b - 5) ∧
    t.x 4 = s.memRead (b - 6) ∧ t.x 3 = s.memRead (b - 7) ∧ t.x 2 = s.memRead (b - 8) ∧
    t.fs = s.memRead (b - 9) ∧ t.sp = b - 9 ∧ t.x 0 = s.x 0 ∧ t.x 1 = s.x 1 ∧ t.err = s.err ∧
    t.status = s.status ∧ t.mem = s.mem ∧ t.input = s.input ∧ t.output = s.output ∧
    t.failedReads = s.failedReads)

/-- R181: the bytes `M[(addr + i) mod 65536]` for `i` from 0 to `len - 1`, then one flush mark, also for `len` 0; nothing
else changes.
The one flush is the spec's decision D19 (log entry 16). -/
def Obligations.PrintEmitsBytes : Prop :=
  (∀ hi lo len : Byte, RunsAs [0xE0, hi, lo, len] (.pnt (joinBytes hi lo) len)) ∧
  (∀ (a : Word) (len : Byte) (s : State),
    exec (.pnt a len) s = .next (s.setOutput (s.output ++
      (List.range len.toNat).map (fun k => OutEvent.byte (s.memRead (BitVec.ofNat 16 ((a.toNat + k) % 65536)))) ++
      [.flush])))

/-- R182, R183: an available byte is taken from the input and written to the register (or lost, with the register error,
where the register does not exist); a failing read is `READ_INPUT` first, then the write of the unspecified byte (the
opaque `Config.rinFailValue`, log entry 3); an unanswered read waits, for which the meaning answers the fault
`awaitingInput` by the model's choice (log entry 6).
The open byte is the spec's decision D17, the read before the register check its decision D18 (log entry 10), the pending bytes
and the tail of the input the model's form of `INPUT` (log entry 4). -/
def Obligations.ReadInput : Prop :=
  (∀ r : Byte, RunsAs [0xE1, r] (.rin r.toNat)) ∧
  (∀ (r : Fin 8) (s : State) (b : Byte) (rest : List Byte), s.input.pending = b :: rest →
    exec (.rin r.val) s = .next ((s.setInput ⟨rest, s.input.tail⟩).setX r b)) ∧
  (∀ (r : Nat) (s : State) (b : Byte) (rest : List Byte), 8 ≤ r → s.input.pending = b :: rest →
    exec (.rin r) s =
      .next ((s.setInput ⟨rest, s.input.tail⟩).raise ⟨.invalidRegister, BitVec.ofNat 16 r, 0⟩)) ∧
  (∀ (r : Fin 8) (s : State), s.input.pending = [] → s.input.tail = .fails →
    exec (.rin r.val) s = .next (((s.setFailedReads (s.failedReads + 1)).raise ⟨.readInput, 0, 0⟩).setX r
      (Config.rinFailValue s.failedReads))) ∧
  (∀ (r : Nat) (s : State), 8 ≤ r → s.input.pending = [] → s.input.tail = .fails →
    exec (.rin r) s = .next ((s.setFailedReads (s.failedReads + 1)).raiseAll
      [⟨.readInput, 0, 0⟩, ⟨.invalidRegister, BitVec.ofNat 16 r, 0⟩])) ∧
  (∀ (r : Nat) (s : State), s.Waits → exec (.rin r) s = .fault .awaitingInput)

/-- R190: the run ends normally, with IP past the `HLT` and nothing else changed. -/
def Obligations.HaltEndsTheRun : Prop :=
  RunsAs [0xFF] .hlt ∧ (∀ s : State, exec .hlt s = .next (s.setStatus .halted)) ∧
  (∀ s : State, s.Ready → s.ip ≠ 0xFFFF → s.memRead s.ip = 0xFF →
    step s = .next ((s.setIp (s.ip + 1)).setStatus .halted))

/-! ## Laws over several instructions -/

/-- R170: a `CLL` that fits, then any callee that leaves the nine saved bytes alone and ends with SP at their end plus its
own FS, then a `RET`: SP, FS, R2 to R7 and IP are the caller's again, R0 and R1 the callee's.
The premise `SP <= 0xFFF6` and the callee's are the spec's own reading of the source's law. -/
def Obligations.CallAndReturnAreInverse : Prop :=
  ∀ (a : Word) (s t u : State), s.mem.wf = true → s.sp.toNat ≤ 0xFFF6 → exec (.cll a) s = .next t →
    (∀ k, k < 9 → u.memRead (s.sp + BitVec.ofNat 16 k) = t.memRead (s.sp + BitVec.ofNat 16 k)) →
    u.sp = s.sp + 9 + u.fs.setWidth 16 →
    t.err = s.err ∧ t.sp = s.sp + 9 + t.fs.setWidth 16 ∧
    ∃ v, exec .ret u = .next v ∧ v.sp = s.sp ∧ v.fs = s.fs ∧ v.ip = s.ip ∧
      (∀ r : Fin 8, 2 ≤ r.val → v.x r = s.x r) ∧ v.x 0 = u.x 0 ∧ v.x 1 = u.x 1 ∧
      v.err = u.err ∧ v.mem = u.mem

/-- R170: the callee's stack instructions keep SP at the end of the save area plus FS: without an error, `SPL`, `SPR` and
`STP` change SP and FS by the same amount. -/
def Obligations.StackInstructionsKeepFrameBase : Prop :=
  ∀ (i : Instr) (s t : State), (∃ v, i = .spl v) ∨ (∃ r, i = .spr r) ∨ (∃ r, i = .stp r) →
    s.err.length < 10 → exec i s = .next t → t.err = s.err →
    t.sp - t.fs.setWidth 16 = s.sp - s.fs.setWidth 16

/-- R171: pushes followed by the same number of pops, in the reverse order, into distinct registers, give each register its
value and SP and FS back; `SPR r1` then `STP r2` copies `r1` to `r2`. The premise that SP is not below `0xFF00` is the
discipline of R169: below it a pop can meet SP at `0xFF00` and be refused (R166); the rule does not name it (log entry 18). -/
def Obligations.PushesAndPopsAreInverse : Prop :=
  (∀ (s : State) (vs : List Byte) (rs : List (Fin 8)), s.mem.wf = true → s.fs = 0 → 0xFF00 ≤ s.sp.toNat →
    s.sp.toNat + vs.length ≤ 0xFFFF → rs.length = vs.length → rs.Nodup →
    ∃ t, execAll (vs.map Instr.spl ++ rs.reverse.map (fun r => Instr.stp r.val)) s = .next t ∧
      t.sp = s.sp ∧ t.fs = 0 ∧ t.err = s.err ∧
      (∀ k (h : k < rs.length) (h' : k < vs.length), t.x rs[k] = vs[k]) ∧
      (∀ r, r ∉ rs → t.x r = s.x r)) ∧
  (∀ (s : State) (r1 r2 : Fin 8), s.mem.wf = true → s.fs ≠ 0xFF → 0xFF00 ≤ s.sp.toNat → s.sp ≠ 0xFFFF →
    ∃ t, execAll [.spr r1.val, .stp r2.val] s = .next t ∧ t.x r2 = s.x r1 ∧ (∀ r, r ≠ r2 → t.x r = s.x r) ∧
      t.sp = s.sp ∧ t.fs = s.fs ∧ t.err = s.err)

/-- R125, R67: what a store writes is what a load through the same pair reads; and what a store, a push or a call writes is
what a later fetch at its address delivers.
The spec derives the law from its rules. -/
def Obligations.StoreThenLoadOrFetch : Prop :=
  (∀ (v : Byte) (p : Nat) (q r : Fin 8) (s : State), s.mem.wf = true → p < 7 →
    (∃ t u, exec (.mlm v p) s = .next t ∧ exec (.mmr p r.val) t = .next u ∧ u.x r = v ∧ u.err = s.err) ∧
    (∃ t u, exec (.mrm q.val p) s = .next t ∧ exec (.mmr p r.val) t = .next u ∧ u.x r = s.x q ∧ u.err = s.err)) ∧
  (∀ (v : Byte) (p q : Nat) (s : State), s.mem.wf = true → s.ptrVal p ≠ 0xFFFF →
    (∃ t, exec (.mlm v p) s = .next t ∧ (t.setIp (s.ptrVal p)).fetch.1 = v) ∧
    (∃ t, exec (.mrm q p) s = .next t ∧ (t.setIp (s.ptrVal p)).fetch.1 = s.regVal q)) ∧
  (∀ (v : Byte) (q : Nat) (s : State), s.mem.wf = true → s.sp ≠ 0xFFFF →
    (∃ t, exec (.spl v) s = .next t ∧ (t.setIp s.sp).fetch.1 = v) ∧
    (∃ t, exec (.spr q) s = .next t ∧ (t.setIp s.sp).fetch.1 = s.regVal q)) ∧
  (∀ (a : Word) (k : Nat) (h : k < 9) (s : State), s.mem.wf = true → k < 65535 - s.sp.toNat →
    ∃ t, exec (.cll a) s = .next t ∧ (t.setIp (s.sp + BitVec.ofNat 16 k)).fetch.1 =
      [s.fs, s.x 2, s.x 3, s.x 4, s.x 5, s.x 6, s.x 7, highByte s.ip, lowByte s.ip][k])

/-- R136, R147: after `MLR A, R1; MLR B, R2; op R1, R2`, `x[0]` is the modular result of `op(A, B)`, and R1 and R2 still
hold A and B.
The spec derives the law from its rules. -/
def Obligations.OperationAfterLoadingOperands : Prop :=
  ∀ (s : State) (a b : Byte) (i : Instr) (result : Nat),
    (i, result) ∈ [(Instr.lnd 1 2, (a &&& b).toNat), (.lor 1 2, (a ||| b).toNat), (.lxr 1 2, (a ^^^ b).toNat),
      (.lbc 1 2, (a &&& ~~~b).toNat), (.add 1 2, (a.toNat + b.toNat) % 256),
      (.sub 1 2, (a.toNat + (256 - b.toNat)) % 256), (.mul 1 2, a.toNat * b.toNat % 256),
      (.div 1 2, a.toNat / b.toNat)] →
    (i = .div 1 2 → b ≠ 0) →
    ∃ t, execAll [.mlr a 1, .mlr b 2, i] s = .next t ∧ (t.x 0).toNat = result ∧ t.x 1 = a ∧ t.x 2 = b ∧
      t.err = s.err

/-- R28, R59: no push ever writes `M[0xFFFF]`; nor does a call, whose saves have the limit check of a push by the spec's
decision D8 (R162, log entry 9). -/
def Obligations.StackNeverWritesTopCell : Prop :=
  ∀ (i : Instr) (s t : State), (∃ v, i = .spl v) ∨ (∃ r, i = .spr r) ∨ (∃ a, i = .cll a) → s.mem.wf = true →
    exec i s = .next t → t.memRead 0xFFFF = s.memRead 0xFFFF

/-! ## Reset, waiting, and the outputs -/

/-- R37, R240: reset puts every piece of the core's state at its reset value and leaves the memory; the output is empty and
the input is the one connected.
The registers' `0x00` is the spec's decision D15 (log entry 1), `STATUS` its decision D14 (log entry 20). -/
def Obligations.ResetValues : Prop :=
  ∀ (s : State) (input : InputStream),
    (∀ r, (s.applyReset input).x r = 0x00) ∧ (s.applyReset input).ip = 0x0000 ∧
    (s.applyReset input).sp = 0xFF00 ∧ (s.applyReset input).fs = 0x00 ∧ (s.applyReset input).err = [] ∧
    (s.applyReset input).status = .running ∧ (s.applyReset input).output = [] ∧
    (s.applyReset input).input = input ∧ (∀ a, (s.applyReset input).memRead a = s.memRead a) ∧
    (∀ r, State.reset.x r = 0x00) ∧ State.reset.ip = 0x0000 ∧ State.reset.sp = 0xFF00 ∧
    State.reset.fs = 0x00 ∧ State.reset.err = [] ∧ State.reset.status = .running ∧ State.reset.output = []

/-- R240: a reset in the middle of a step keeps the writes of the accesses already made and no other: after all of them the
memory is the step's, before any it is the old one; where no step is taken the memory stays.
It is the spec's decision D27 (log entry 14). -/
def Obligations.ResetInMidStep : Prop :=
  (∀ (s t : State) (n : Nat) (input : InputStream), step s = .next t →
    (s.resetMidStep n input).mem = s.mem.applyAll (s.memAccesses.take n) ∧
    (s.memAccesses.length ≤ n → (s.resetMidStep n input).mem = t.mem) ∧
    (s.resetMidStep 0 input).mem = s.mem ∧ (s.resetMidStep n input).ip = 0x0000 ∧
    (s.resetMidStep n input).status = .running ∧ (s.resetMidStep n input).err = []) ∧
  (∀ (s : State) (n : Nat) (input : InputStream), s.status ≠ .running → (s.resetMidStep n input).mem = s.mem)

/-- R182: while the environment has not answered, the step of a `RIN` changes nothing; once it supplies a byte, the same
step completes with that byte.
A waiting step that answers the unchanged state is the model's choice (log entry 6). -/
def Obligations.WaitingChangesNothing : Prop :=
  ∀ (s : State) (r : Nat) (b : Byte), s.status = .running → decode s.fetchInstr.1 = .ok (.rin r, []) → s.Waits →
    step s = .next s ∧
    ∃ t, step (s.deliver b) = .next t ∧ t.input = s.input ∧ t.ip = s.fetchInstr.2.ip ∧
      (∀ h : r < 8, t.x ⟨r, h⟩ = b)

/-- R34, R201, R215, R217: what the status and error outputs show.
The codes and the outputs are the spec's decisions D12, D14 and D26 (log entries 11, 15 and 20). -/
def Obligations.StatusAndErrorOutputs : Prop :=
  (Status.running.bits = 0 ∧ Status.halted.bits = 1 ∧ Status.faulted.bits = 2) ∧
  (∀ s : State, s.exitStatus = if s.status = .faulted then 1 else 0) ∧
  (ErrorCode.unknownOpcode.bits = 1 ∧ ErrorCode.invalidRegister.bits = 2 ∧ ErrorCode.ipOutOfBounds.bits = 3 ∧
    ErrorCode.divideByZero.bits = 4 ∧ ErrorCode.stackOverflow.bits = 5 ∧ ErrorCode.stackUnderflow.bits = 6 ∧
    ErrorCode.readInput.bits = 7 ∧ ErrorCode.frameTooLarge.bits = 8) ∧
  (∀ s : State, s.err.length ≤ 10 → s.errCount.toNat = s.err.length) ∧
  (∀ (s : State) (k : Nat) (h : k < s.err.length),
    s.errRec k = (s.err[k].code.bits, s.err[k].info0, s.err[k].info1)) ∧
  (∀ (s : State) (k : Nat), s.err.length ≤ k → s.errRec k = (0, 0, 0))

/-! ## The argument `INPUT` -/

/-- R7, R36, R182: on an infinite `INPUT` no read waits and none fails, for any program: each `RIN` gets the first byte not
yet read, in the order of the sequence, of which at most the last byte supplied is still unread between two steps. On a
finite `INPUT` the run is the plain run loop, over its bytes and then permanent failure.
That the environment supplies a byte of an infinite `INPUT` before the step that may read it is the model's choice (log entry
4). -/
def Obligations.InfiniteInputIsReadInOrder : Prop :=
  (∀ (image : Memory) (byte : Nat → Byte) (n : Nat),
    (runFrom image (.infinite byte) n).2.failedReads = 0 ∧
    (runFrom image (.infinite byte) n).2.input.tail = .silent ∧
    (∀ q ∈ (runFrom image (.infinite byte) n).2.err, q.code ≠ .readInput) ∧
    ((runFrom image (.infinite byte) n).2.input.pending = [] ∨
      ∃ k, (runFrom image (.infinite byte) n).1 = k + 1 ∧
        (runFrom image (.infinite byte) n).2.input.pending = [byte k])) ∧
  (∀ (byte : Nat → Byte) (k : Nat) (s : State), ¬ ((Input.infinite byte).supply k s).2.Waits) ∧
  (∀ (byte : Nat → Byte) (k : Nat) (r : Fin 8) (s : State), s.status = .running →
    decode s.fetchInstr.1 = .ok (.rin r.val, []) →
    (s.input = ⟨[], .silent⟩ → ((Input.infinite byte).supply k s).1 = k + 1 ∧
      ∃ t, step ((Input.infinite byte).supply k s).2 = .next t ∧ t.x r = byte k ∧ t.input = ⟨[], .silent⟩) ∧
    (s.input = ⟨[byte k], .silent⟩ → ((Input.infinite byte).supply (k + 1) s).1 = k + 1 ∧
      ∃ t, step ((Input.infinite byte).supply (k + 1) s).2 = .next t ∧ t.x r = byte k ∧ t.input = ⟨[], .silent⟩)) ∧
  (∀ (image : Memory) (bytes : List Byte) (n : Nat),
    (State.powerOn image (.finite bytes)).input = ⟨bytes, .fails⟩ ∧
    (runFrom image (.finite bytes) n).2 = run n (State.powerOn image (.finite bytes)))
end

