-- ==== Sys2Proof/Laws/Decode.lean ====
section
/-! SUPPORT. The pieces of decoding and encoding: byte order, register bytes, and the table row of each opcode. -/

namespace Sys2Proof

/-! ### Byte order -/

/-- `hi:lo` is `hi * 256 + lo`. -/
theorem joinBytes_toNat (hi lo : Byte) : (joinBytes hi lo).toNat = hi.toNat * 256 + lo.toNat := by
  have h : (joinBytes hi lo).toNat = (hi.toNat <<< 8) ||| lo.toNat := BitVec.toNat_append hi lo
  rw [h, ← Nat.shiftLeft_add_eq_or_of_lt lo.isLt, Nat.shiftLeft_eq]

theorem highByte_toNat (w : Word) : (highByte w).toNat = w.toNat / 256 := by
  have := w.isLt
  simp only [highByte, BitVec.extractLsb'_toNat, Nat.shiftRight_eq_div_pow]
  omega

theorem lowByte_toNat (w : Word) : (lowByte w).toNat = w.toNat % 256 := by
  simp only [lowByte, BitVec.extractLsb'_toNat, Nat.shiftRight_zero]

@[simp] theorem highByte_joinBytes (hi lo : Byte) : highByte (joinBytes hi lo) = hi := by
  have := lo.isLt
  exact BitVec.eq_of_toNat_eq (by rw [highByte_toNat, joinBytes_toNat]; omega)

@[simp] theorem lowByte_joinBytes (hi lo : Byte) : lowByte (joinBytes hi lo) = lo := by
  have := lo.isLt
  exact BitVec.eq_of_toNat_eq (by rw [lowByte_toNat, joinBytes_toNat]; omega)

@[simp] theorem joinBytes_highByte_lowByte (w : Word) : joinBytes (highByte w) (lowByte w) = w :=
  BitVec.eq_of_toNat_eq (by rw [joinBytes_toNat, highByte_toNat, lowByte_toNat]; omega)

/-! ### Register bytes -/

@[simp] theorem regByte_toNat {r : Nat} (h : r < 256) : (regByte r).toNat = r := by
  simp [regByte, Nat.mod_eq_of_lt h]

@[simp] theorem regByte_ofToNat (b : Byte) : regByte b.toNat = b := by simp [regByte]

/-! ### The opcode table -/

/-- The row an instruction's opcode selects, by constructor (spec/30_encoding.md R84). -/
def Instr.row : Instr → OpcodeRow
  | .nop => .op .nop
  | .mlr _ _ => .opLitReg .mlr
  | .mrr _ _ => .opRegReg .mrr
  | .mlm _ _ => .opLitReg .mlm
  | .mrm _ _ => .opRegReg .mrm
  | .mmr _ _ => .opRegReg .mmr
  | .lnd _ _ => .opRegReg .lnd
  | .lor _ _ => .opRegReg .lor
  | .lxr _ _ => .opRegReg .lxr
  | .lbc _ _ => .opRegReg .lbc
  | .lsl _ _ => .opRegLit .lsl
  | .lsr _ _ => .opRegLit .lsr
  | .inc _ => .opReg .inc
  | .dec _ => .opReg .dec
  | .add _ _ => .opRegReg .add
  | .sub _ _ => .opRegReg .sub
  | .mul _ _ => .opRegReg .mul
  | .div _ _ => .opRegReg .div
  | .jmp _ => .opAddr .jmp
  | .jeq _ _ => .opRegAddr .jeq
  | .jne _ _ => .opRegAddr .jne
  | .spl _ => .opLit .spl
  | .spr _ => .opReg .spr
  | .stp _ => .opReg .stp
  | .cll _ => .opAddr .cll
  | .ret => .op .ret
  | .pnt _ _ => .opAddrLit .pnt
  | .rin _ => .opReg .rin
  | .hlt => .op .hlt

/-- The decoder's table and the encoder's opcodes agree. -/
theorem opcodeRow_opcode (i : Instr) : opcodeRow i.opcode = some i.row := by
  cases i <;> rfl

/-- The decoder refuses as unknown exactly the bytes whose opcode has no row. -/
theorem decode_cons (op : Byte) (rest : List Byte) :
    decode (op :: rest) = match opcodeRow op with
      | some row => row.assemble rest
      | none => .error (.unknownOpcode op) := rfl

/-- Given all its operand bytes, a row assembles an instruction. -/
theorem OpcodeRow.assemble_total (row : OpcodeRow) (operands rest : List Byte)
    (h : operands.length = row.operandBytes) : ∃ i, row.assemble (operands ++ rest) = .ok (i, rest) := by
  cases row <;> simp only [OpcodeRow.operandBytes] at h
  case op i => exact ⟨i, by rw [List.length_eq_zero_iff.1 h]; rfl⟩
  case opLit f =>
    obtain ⟨a, rfl⟩ := List.length_eq_one_iff.1 h
    exact ⟨_, rfl⟩
  case opReg f =>
    obtain ⟨a, rfl⟩ := List.length_eq_one_iff.1 h
    exact ⟨_, rfl⟩
  case opLitReg f | opRegReg f | opRegLit f | opAddr f =>
    obtain ⟨a, b, rfl⟩ := List.length_eq_two.1 h
    exact ⟨_, rfl⟩
  case opRegAddr f | opAddrLit f =>
    obtain ⟨a, b, c, rfl⟩ := List.length_eq_three.1 h
    exact ⟨_, rfl⟩

end Sys2Proof
end

