-- ==== Sys2Proof/Laws/State.lean ====
section
/-! SUPPORT. What each update of the state does to each field: one lemma per field per update, so that no proof unfolds a
record update. -/

namespace Sys2Proof.Machine

/-! ### `setX` -/

theorem State.setX_regs (s : State) (i : Fin 8) (v : Byte) : (s.setX i v).regs = s.regs.set i.val v i.isLt := rfl
@[simp] theorem State.setX_ip (s : State) (i : Fin 8) (v : Byte) : (s.setX i v).ip = s.ip := rfl
@[simp] theorem State.setX_sp (s : State) (i : Fin 8) (v : Byte) : (s.setX i v).sp = s.sp := rfl
@[simp] theorem State.setX_fs (s : State) (i : Fin 8) (v : Byte) : (s.setX i v).fs = s.fs := rfl
@[simp] theorem State.setX_err (s : State) (i : Fin 8) (v : Byte) : (s.setX i v).err = s.err := rfl
@[simp] theorem State.setX_status (s : State) (i : Fin 8) (v : Byte) : (s.setX i v).status = s.status := rfl
@[simp] theorem State.setX_mem (s : State) (i : Fin 8) (v : Byte) : (s.setX i v).mem = s.mem := rfl
@[simp] theorem State.setX_input (s : State) (i : Fin 8) (v : Byte) : (s.setX i v).input = s.input := rfl
@[simp] theorem State.setX_output (s : State) (i : Fin 8) (v : Byte) : (s.setX i v).output = s.output := rfl
@[simp] theorem State.setX_failedReads (s : State) (i : Fin 8) (v : Byte) : (s.setX i v).failedReads = s.failedReads := rfl
@[simp] theorem State.setX_memRead (s : State) (i : Fin 8) (v : Byte) (a : Word) : (s.setX i v).memRead a = s.memRead a := rfl

/-! ### `setIp` -/

@[simp] theorem State.setIp_regs (s : State) (v : Word) : (s.setIp v).regs = s.regs := rfl
@[simp] theorem State.setIp_ip (s : State) (v : Word) : (s.setIp v).ip = v := rfl
@[simp] theorem State.setIp_sp (s : State) (v : Word) : (s.setIp v).sp = s.sp := rfl
@[simp] theorem State.setIp_fs (s : State) (v : Word) : (s.setIp v).fs = s.fs := rfl
@[simp] theorem State.setIp_err (s : State) (v : Word) : (s.setIp v).err = s.err := rfl
@[simp] theorem State.setIp_status (s : State) (v : Word) : (s.setIp v).status = s.status := rfl
@[simp] theorem State.setIp_mem (s : State) (v : Word) : (s.setIp v).mem = s.mem := rfl
@[simp] theorem State.setIp_input (s : State) (v : Word) : (s.setIp v).input = s.input := rfl
@[simp] theorem State.setIp_output (s : State) (v : Word) : (s.setIp v).output = s.output := rfl
@[simp] theorem State.setIp_failedReads (s : State) (v : Word) : (s.setIp v).failedReads = s.failedReads := rfl
@[simp] theorem State.setIp_x (s : State) (v : Word) (j : Fin 8) : (s.setIp v).x j = s.x j := rfl
@[simp] theorem State.setIp_memRead (s : State) (v : Word) (a : Word) : (s.setIp v).memRead a = s.memRead a := rfl
@[simp] theorem State.setIp_self (s : State) : s.setIp s.ip = s := rfl

/-! ### `setSp` -/

@[simp] theorem State.setSp_regs (s : State) (v : Word) : (s.setSp v).regs = s.regs := rfl
@[simp] theorem State.setSp_ip (s : State) (v : Word) : (s.setSp v).ip = s.ip := rfl
@[simp] theorem State.setSp_sp (s : State) (v : Word) : (s.setSp v).sp = v := rfl
@[simp] theorem State.setSp_fs (s : State) (v : Word) : (s.setSp v).fs = s.fs := rfl
@[simp] theorem State.setSp_err (s : State) (v : Word) : (s.setSp v).err = s.err := rfl
@[simp] theorem State.setSp_status (s : State) (v : Word) : (s.setSp v).status = s.status := rfl
@[simp] theorem State.setSp_mem (s : State) (v : Word) : (s.setSp v).mem = s.mem := rfl
@[simp] theorem State.setSp_input (s : State) (v : Word) : (s.setSp v).input = s.input := rfl
@[simp] theorem State.setSp_output (s : State) (v : Word) : (s.setSp v).output = s.output := rfl
@[simp] theorem State.setSp_failedReads (s : State) (v : Word) : (s.setSp v).failedReads = s.failedReads := rfl
@[simp] theorem State.setSp_x (s : State) (v : Word) (j : Fin 8) : (s.setSp v).x j = s.x j := rfl
@[simp] theorem State.setSp_memRead (s : State) (v : Word) (a : Word) : (s.setSp v).memRead a = s.memRead a := rfl
@[simp] theorem State.setSp_self (s : State) : s.setSp s.sp = s := rfl

/-! ### `setFs` -/

@[simp] theorem State.setFs_regs (s : State) (v : Byte) : (s.setFs v).regs = s.regs := rfl
@[simp] theorem State.setFs_ip (s : State) (v : Byte) : (s.setFs v).ip = s.ip := rfl
@[simp] theorem State.setFs_sp (s : State) (v : Byte) : (s.setFs v).sp = s.sp := rfl
@[simp] theorem State.setFs_fs (s : State) (v : Byte) : (s.setFs v).fs = v := rfl
@[simp] theorem State.setFs_err (s : State) (v : Byte) : (s.setFs v).err = s.err := rfl
@[simp] theorem State.setFs_status (s : State) (v : Byte) : (s.setFs v).status = s.status := rfl
@[simp] theorem State.setFs_mem (s : State) (v : Byte) : (s.setFs v).mem = s.mem := rfl
@[simp] theorem State.setFs_input (s : State) (v : Byte) : (s.setFs v).input = s.input := rfl
@[simp] theorem State.setFs_output (s : State) (v : Byte) : (s.setFs v).output = s.output := rfl
@[simp] theorem State.setFs_failedReads (s : State) (v : Byte) : (s.setFs v).failedReads = s.failedReads := rfl
@[simp] theorem State.setFs_x (s : State) (v : Byte) (j : Fin 8) : (s.setFs v).x j = s.x j := rfl
@[simp] theorem State.setFs_memRead (s : State) (v : Byte) (a : Word) : (s.setFs v).memRead a = s.memRead a := rfl
@[simp] theorem State.setFs_self (s : State) : s.setFs s.fs = s := rfl

/-! ### `setErr` -/

@[simp] theorem State.setErr_regs (s : State) (v : List ErrorRecord) : (s.setErr v).regs = s.regs := rfl
@[simp] theorem State.setErr_ip (s : State) (v : List ErrorRecord) : (s.setErr v).ip = s.ip := rfl
@[simp] theorem State.setErr_sp (s : State) (v : List ErrorRecord) : (s.setErr v).sp = s.sp := rfl
@[simp] theorem State.setErr_fs (s : State) (v : List ErrorRecord) : (s.setErr v).fs = s.fs := rfl
@[simp] theorem State.setErr_err (s : State) (v : List ErrorRecord) : (s.setErr v).err = v := rfl
@[simp] theorem State.setErr_status (s : State) (v : List ErrorRecord) : (s.setErr v).status = s.status := rfl
@[simp] theorem State.setErr_mem (s : State) (v : List ErrorRecord) : (s.setErr v).mem = s.mem := rfl
@[simp] theorem State.setErr_input (s : State) (v : List ErrorRecord) : (s.setErr v).input = s.input := rfl
@[simp] theorem State.setErr_output (s : State) (v : List ErrorRecord) : (s.setErr v).output = s.output := rfl
@[simp] theorem State.setErr_failedReads (s : State) (v : List ErrorRecord) : (s.setErr v).failedReads = s.failedReads := rfl
@[simp] theorem State.setErr_x (s : State) (v : List ErrorRecord) (j : Fin 8) : (s.setErr v).x j = s.x j := rfl
@[simp] theorem State.setErr_memRead (s : State) (v : List ErrorRecord) (a : Word) : (s.setErr v).memRead a = s.memRead a := rfl
@[simp] theorem State.setErr_self (s : State) : s.setErr s.err = s := rfl

/-! ### `setStatus` -/

@[simp] theorem State.setStatus_regs (s : State) (v : Status) : (s.setStatus v).regs = s.regs := rfl
@[simp] theorem State.setStatus_ip (s : State) (v : Status) : (s.setStatus v).ip = s.ip := rfl
@[simp] theorem State.setStatus_sp (s : State) (v : Status) : (s.setStatus v).sp = s.sp := rfl
@[simp] theorem State.setStatus_fs (s : State) (v : Status) : (s.setStatus v).fs = s.fs := rfl
@[simp] theorem State.setStatus_err (s : State) (v : Status) : (s.setStatus v).err = s.err := rfl
@[simp] theorem State.setStatus_status (s : State) (v : Status) : (s.setStatus v).status = v := rfl
@[simp] theorem State.setStatus_mem (s : State) (v : Status) : (s.setStatus v).mem = s.mem := rfl
@[simp] theorem State.setStatus_input (s : State) (v : Status) : (s.setStatus v).input = s.input := rfl
@[simp] theorem State.setStatus_output (s : State) (v : Status) : (s.setStatus v).output = s.output := rfl
@[simp] theorem State.setStatus_failedReads (s : State) (v : Status) : (s.setStatus v).failedReads = s.failedReads := rfl
@[simp] theorem State.setStatus_x (s : State) (v : Status) (j : Fin 8) : (s.setStatus v).x j = s.x j := rfl
@[simp] theorem State.setStatus_memRead (s : State) (v : Status) (a : Word) : (s.setStatus v).memRead a = s.memRead a := rfl
@[simp] theorem State.setStatus_self (s : State) : s.setStatus s.status = s := rfl

/-! ### `setMem` -/

@[simp] theorem State.setMem_regs (s : State) (v : Memory) : (s.setMem v).regs = s.regs := rfl
@[simp] theorem State.setMem_ip (s : State) (v : Memory) : (s.setMem v).ip = s.ip := rfl
@[simp] theorem State.setMem_sp (s : State) (v : Memory) : (s.setMem v).sp = s.sp := rfl
@[simp] theorem State.setMem_fs (s : State) (v : Memory) : (s.setMem v).fs = s.fs := rfl
@[simp] theorem State.setMem_err (s : State) (v : Memory) : (s.setMem v).err = s.err := rfl
@[simp] theorem State.setMem_status (s : State) (v : Memory) : (s.setMem v).status = s.status := rfl
@[simp] theorem State.setMem_mem (s : State) (v : Memory) : (s.setMem v).mem = v := rfl
@[simp] theorem State.setMem_input (s : State) (v : Memory) : (s.setMem v).input = s.input := rfl
@[simp] theorem State.setMem_output (s : State) (v : Memory) : (s.setMem v).output = s.output := rfl
@[simp] theorem State.setMem_failedReads (s : State) (v : Memory) : (s.setMem v).failedReads = s.failedReads := rfl
@[simp] theorem State.setMem_x (s : State) (v : Memory) (j : Fin 8) : (s.setMem v).x j = s.x j := rfl
@[simp] theorem State.setMem_self (s : State) : s.setMem s.mem = s := rfl

/-! ### `setInput` -/

@[simp] theorem State.setInput_regs (s : State) (v : InputStream) : (s.setInput v).regs = s.regs := rfl
@[simp] theorem State.setInput_ip (s : State) (v : InputStream) : (s.setInput v).ip = s.ip := rfl
@[simp] theorem State.setInput_sp (s : State) (v : InputStream) : (s.setInput v).sp = s.sp := rfl
@[simp] theorem State.setInput_fs (s : State) (v : InputStream) : (s.setInput v).fs = s.fs := rfl
@[simp] theorem State.setInput_err (s : State) (v : InputStream) : (s.setInput v).err = s.err := rfl
@[simp] theorem State.setInput_status (s : State) (v : InputStream) : (s.setInput v).status = s.status := rfl
@[simp] theorem State.setInput_mem (s : State) (v : InputStream) : (s.setInput v).mem = s.mem := rfl
@[simp] theorem State.setInput_input (s : State) (v : InputStream) : (s.setInput v).input = v := rfl
@[simp] theorem State.setInput_output (s : State) (v : InputStream) : (s.setInput v).output = s.output := rfl
@[simp] theorem State.setInput_failedReads (s : State) (v : InputStream) : (s.setInput v).failedReads = s.failedReads := rfl
@[simp] theorem State.setInput_x (s : State) (v : InputStream) (j : Fin 8) : (s.setInput v).x j = s.x j := rfl
@[simp] theorem State.setInput_memRead (s : State) (v : InputStream) (a : Word) : (s.setInput v).memRead a = s.memRead a := rfl
@[simp] theorem State.setInput_self (s : State) : s.setInput s.input = s := rfl

/-! ### `setOutput` -/

@[simp] theorem State.setOutput_regs (s : State) (v : List OutEvent) : (s.setOutput v).regs = s.regs := rfl
@[simp] theorem State.setOutput_ip (s : State) (v : List OutEvent) : (s.setOutput v).ip = s.ip := rfl
@[simp] theorem State.setOutput_sp (s : State) (v : List OutEvent) : (s.setOutput v).sp = s.sp := rfl
@[simp] theorem State.setOutput_fs (s : State) (v : List OutEvent) : (s.setOutput v).fs = s.fs := rfl
@[simp] theorem State.setOutput_err (s : State) (v : List OutEvent) : (s.setOutput v).err = s.err := rfl
@[simp] theorem State.setOutput_status (s : State) (v : List OutEvent) : (s.setOutput v).status = s.status := rfl
@[simp] theorem State.setOutput_mem (s : State) (v : List OutEvent) : (s.setOutput v).mem = s.mem := rfl
@[simp] theorem State.setOutput_input (s : State) (v : List OutEvent) : (s.setOutput v).input = s.input := rfl
@[simp] theorem State.setOutput_output (s : State) (v : List OutEvent) : (s.setOutput v).output = v := rfl
@[simp] theorem State.setOutput_failedReads (s : State) (v : List OutEvent) : (s.setOutput v).failedReads = s.failedReads := rfl
@[simp] theorem State.setOutput_x (s : State) (v : List OutEvent) (j : Fin 8) : (s.setOutput v).x j = s.x j := rfl
@[simp] theorem State.setOutput_memRead (s : State) (v : List OutEvent) (a : Word) : (s.setOutput v).memRead a = s.memRead a := rfl
@[simp] theorem State.setOutput_self (s : State) : s.setOutput s.output = s := rfl

/-! ### `setFailedReads` -/

@[simp] theorem State.setFailedReads_regs (s : State) (v : Nat) : (s.setFailedReads v).regs = s.regs := rfl
@[simp] theorem State.setFailedReads_ip (s : State) (v : Nat) : (s.setFailedReads v).ip = s.ip := rfl
@[simp] theorem State.setFailedReads_sp (s : State) (v : Nat) : (s.setFailedReads v).sp = s.sp := rfl
@[simp] theorem State.setFailedReads_fs (s : State) (v : Nat) : (s.setFailedReads v).fs = s.fs := rfl
@[simp] theorem State.setFailedReads_err (s : State) (v : Nat) : (s.setFailedReads v).err = s.err := rfl
@[simp] theorem State.setFailedReads_status (s : State) (v : Nat) : (s.setFailedReads v).status = s.status := rfl
@[simp] theorem State.setFailedReads_mem (s : State) (v : Nat) : (s.setFailedReads v).mem = s.mem := rfl
@[simp] theorem State.setFailedReads_input (s : State) (v : Nat) : (s.setFailedReads v).input = s.input := rfl
@[simp] theorem State.setFailedReads_output (s : State) (v : Nat) : (s.setFailedReads v).output = s.output := rfl
@[simp] theorem State.setFailedReads_failedReads (s : State) (v : Nat) : (s.setFailedReads v).failedReads = v := rfl
@[simp] theorem State.setFailedReads_x (s : State) (v : Nat) (j : Fin 8) : (s.setFailedReads v).x j = s.x j := rfl
@[simp] theorem State.setFailedReads_memRead (s : State) (v : Nat) (a : Word) : (s.setFailedReads v).memRead a = s.memRead a := rfl
@[simp] theorem State.setFailedReads_self (s : State) : s.setFailedReads s.failedReads = s := rfl

/-! ### Reading a register back -/

theorem State.setX_x (s : State) (i j : Fin 8) (v : Byte) : (s.setX i v).x j = if i = j then v else s.x j := by
  simp only [State.x, State.setX, Vector.getElem_set, Fin.ext_iff]

@[simp] theorem State.setX_x_same (s : State) (i : Fin 8) (v : Byte) : (s.setX i v).x i = v := by
  simp [State.setX_x]

theorem State.setX_x_other (s : State) {i j : Fin 8} (v : Byte) (h : i ≠ j) : (s.setX i v).x j = s.x j := by
  simp [State.setX_x, h]

/-! ### `memWrite` -/

@[simp] theorem State.memWrite_regs (s : State) (a : Word) (v : Byte) : (s.memWrite a v).regs = s.regs := rfl
@[simp] theorem State.memWrite_ip (s : State) (a : Word) (v : Byte) : (s.memWrite a v).ip = s.ip := rfl
@[simp] theorem State.memWrite_sp (s : State) (a : Word) (v : Byte) : (s.memWrite a v).sp = s.sp := rfl
@[simp] theorem State.memWrite_fs (s : State) (a : Word) (v : Byte) : (s.memWrite a v).fs = s.fs := rfl
@[simp] theorem State.memWrite_err (s : State) (a : Word) (v : Byte) : (s.memWrite a v).err = s.err := rfl
@[simp] theorem State.memWrite_status (s : State) (a : Word) (v : Byte) : (s.memWrite a v).status = s.status := rfl
@[simp] theorem State.memWrite_mem (s : State) (a : Word) (v : Byte) : (s.memWrite a v).mem = s.mem.write a.toNat v := rfl
@[simp] theorem State.memWrite_input (s : State) (a : Word) (v : Byte) : (s.memWrite a v).input = s.input := rfl
@[simp] theorem State.memWrite_output (s : State) (a : Word) (v : Byte) : (s.memWrite a v).output = s.output := rfl
@[simp] theorem State.memWrite_failedReads (s : State) (a : Word) (v : Byte) : (s.memWrite a v).failedReads = s.failedReads := rfl
@[simp] theorem State.memWrite_x (s : State) (a : Word) (v : Byte) (j : Fin 8) : (s.memWrite a v).x j = s.x j := rfl

/-- Two states are equal when all their fields are. -/
theorem State.eq_of_fields {s t : State} (hx : ∀ i, s.x i = t.x i) (hip : s.ip = t.ip) (hsp : s.sp = t.sp)
    (hfs : s.fs = t.fs) (herr : s.err = t.err) (hst : s.status = t.status) (hm : s.mem = t.mem)
    (hin : s.input = t.input) (hout : s.output = t.output) (hf : s.failedReads = t.failedReads) : s = t := by
  have hregs : s.regs = t.regs := Vector.ext fun i h => hx ⟨i, h⟩
  cases s; cases t; simp_all

end Sys2Proof.Machine
end

