-- ==== Sys2Proof/Laws/Memory.lean ====
section
/-! SUPPORT. The laws of memory: what a read gives after a write, and that every memory operation keeps the canonical
form. -/

namespace Sys2Proof.Machine

/-! ### Read after write -/

/-- The entries of a canonical memory are at or above its bound, so a lower address reads as unlisted. -/
theorem Memory.read_below {n : Nat} {m : Memory} (h : m.wfFrom n = true) {a : Nat} (ha : a < n) :
    m.read a = Config.unlistedByte := by
  induction m generalizing n with
  | nil => rfl
  | cons cell rest ih =>
    obtain ⟨k, w⟩ := cell
    simp only [Memory.wfFrom, Bool.and_eq_true, decide_eq_true_eq] at h
    simp only [Memory.read, show k ≠ a by omega, if_false]
    exact ih h.2 (by omega)

theorem Memory.put_read (a b : Nat) (v : Byte) (rest : Memory) (h : rest.read a = Config.unlistedByte) :
    (Memory.put a v rest).read b = if a = b then v else rest.read b := by
  unfold Memory.put
  split
  · split
    · subst_vars; exact h
    · rfl
  · rfl

theorem Memory.put_wf {n a : Nat} {v : Byte} {rest : Memory} (hn : n ≤ a) (ha : a < Config.memSize)
    (h : rest.wfFrom (a + 1) = true) : (Memory.put a v rest).wfFrom n = true := by
  unfold Memory.put
  split
  · cases rest with
    | nil => rfl
    | cons cell rest =>
      simp only [Memory.wfFrom, Bool.and_eq_true, decide_eq_true_eq] at h ⊢
      exact ⟨⟨⟨by omega, h.1.1.2⟩, h.1.2⟩, h.2⟩
  · simp_all [Memory.wfFrom]

/-- A canonical memory is canonical from every lower bound too. -/
theorem Memory.wfFrom_mono {n k : Nat} {m : Memory} (hk : k ≤ n) (h : m.wfFrom n = true) : m.wfFrom k = true := by
  cases m with
  | nil => rfl
  | cons cell rest =>
    simp only [Memory.wfFrom, Bool.and_eq_true, decide_eq_true_eq] at h ⊢
    exact ⟨⟨⟨by omega, h.1.1.2⟩, h.1.2⟩, h.2⟩

/-- A write keeps the canonical form. -/
theorem Memory.write_wfFrom {n a : Nat} {v : Byte} {m : Memory} (hn : n ≤ a) (ha : a < Config.memSize)
    (h : m.wfFrom n = true) : (m.write a v).wfFrom n = true := by
  induction m generalizing n with
  | nil => exact Memory.put_wf hn ha rfl
  | cons cell rest ih =>
    obtain ⟨k, w⟩ := cell
    have h' := h
    simp only [Memory.wfFrom, Bool.and_eq_true, decide_eq_true_eq] at h'
    unfold Memory.write
    split
    · refine Memory.put_wf hn ha ?_
      simp only [Memory.wfFrom, Bool.and_eq_true, decide_eq_true_eq]
      exact ⟨⟨⟨by omega, h'.1.1.2⟩, h'.1.2⟩, h'.2⟩
    · split
      · subst_vars; exact Memory.put_wf hn ha h'.2
      · simp only [Memory.wfFrom, Bool.and_eq_true, decide_eq_true_eq]
        exact ⟨h'.1, ih (by omega) h'.2⟩

theorem Memory.write_wf {a : Nat} {v : Byte} {m : Memory} (ha : a < Config.memSize) (h : m.wf = true) :
    (m.write a v).wf = true :=
  Memory.write_wfFrom (Nat.zero_le a) ha h

/-- A read after a write gives the value written, and every other address reads as before. -/
theorem Memory.write_read {n : Nat} {m : Memory} (h : m.wfFrom n = true) (a b : Nat) (v : Byte) :
    (m.write a v).read b = if a = b then v else m.read b := by
  induction m generalizing n with
  | nil => exact Memory.put_read a b v [] rfl
  | cons cell rest ih =>
    obtain ⟨k, w⟩ := cell
    have h' := h
    simp only [Memory.wfFrom, Bool.and_eq_true, decide_eq_true_eq] at h'
    unfold Memory.write
    split
    · rename_i hlt
      refine Memory.put_read a b v _ ?_
      simp only [Memory.read, show k ≠ a by omega, if_false]
      exact Memory.read_below h'.2 (by omega)
    · split
      · rename_i _ heq
        subst heq
        rw [Memory.put_read a b v rest (Memory.read_below h'.2 (by omega))]
        by_cases hab : a = b
        · simp [hab]
        · simp [hab, Memory.read]
      · rename_i _ hne
        simp only [Memory.read]
        by_cases hkb : k = b
        · subst hkb; simp [hne]
        · simp only [hkb, if_false]; exact ih h'.2

theorem Memory.load_wf {m : Memory} (h : m.wf = true) (a : Word) (bs : List Byte) : (m.load a bs).wf = true := by
  induction bs generalizing m a with
  | nil => exact h
  | cons b rest ih => exact ih (Memory.write_wf a.isLt h) _

/-- What the memory port carries keeps the canonical form. -/
theorem Memory.applyAll_wf {m : Memory} (h : m.wf = true) (as : List MemAccess) : (m.applyAll as).wf = true := by
  induction as generalizing m with
  | nil => exact h
  | cons a rest ih =>
    cases a with
    | read a => exact ih h
    | write a v => exact ih (Memory.write_wf a.isLt h)

/-- The memory of the reset state is canonical. -/
theorem State.reset_mem_wf : State.reset.mem.wf = true := rfl

/-! ### Through the state -/

theorem State.memWrite_memRead (s : State) (h : s.mem.wf = true) (a b : Word) (v : Byte) :
    (s.memWrite a v).memRead b = if a = b then v else s.memRead b := by
  simp only [State.memRead, State.memWrite_mem, Memory.write_read h, BitVec.toNat_inj]

@[simp] theorem State.memWrite_memRead_same (s : State) (h : s.mem.wf = true) (a : Word) (v : Byte) :
    (s.memWrite a v).memRead a = v := by
  simp [State.memWrite_memRead s h]

theorem State.memWrite_memRead_other (s : State) (h : s.mem.wf = true) {a b : Word} (v : Byte) (hab : a ≠ b) :
    (s.memWrite a v).memRead b = s.memRead b := by
  simp [State.memWrite_memRead s h, hab]

theorem State.memWrite_wf {s : State} (h : s.mem.wf = true) (a : Word) (v : Byte) : (s.memWrite a v).mem.wf = true :=
  Memory.write_wf a.isLt h

end Sys2Proof.Machine
end

