-- ==== Sys2Proof/Laws/Ops.lean ====
section
/-! SUPPORT. The shared operations: for each, what it leaves unchanged, and once everything it can do. -/

namespace Sys2Proof.Machine

/-! ### `raise` -/

@[simp] theorem State.raise_regs (s : State) (r : ErrorRecord) : (s.raise r).regs = s.regs := by unfold State.raise; split <;> rfl
@[simp] theorem State.raise_ip (s : State) (r : ErrorRecord) : (s.raise r).ip = s.ip := by unfold State.raise; split <;> rfl
@[simp] theorem State.raise_sp (s : State) (r : ErrorRecord) : (s.raise r).sp = s.sp := by unfold State.raise; split <;> rfl
@[simp] theorem State.raise_fs (s : State) (r : ErrorRecord) : (s.raise r).fs = s.fs := by unfold State.raise; split <;> rfl
@[simp] theorem State.raise_status (s : State) (r : ErrorRecord) : (s.raise r).status = s.status := by unfold State.raise; split <;> rfl
@[simp] theorem State.raise_mem (s : State) (r : ErrorRecord) : (s.raise r).mem = s.mem := by unfold State.raise; split <;> rfl
@[simp] theorem State.raise_input (s : State) (r : ErrorRecord) : (s.raise r).input = s.input := by unfold State.raise; split <;> rfl
@[simp] theorem State.raise_output (s : State) (r : ErrorRecord) : (s.raise r).output = s.output := by unfold State.raise; split <;> rfl
@[simp] theorem State.raise_failedReads (s : State) (r : ErrorRecord) : (s.raise r).failedReads = s.failedReads := by unfold State.raise; split <;> rfl
@[simp] theorem State.raise_x (s : State) (r : ErrorRecord) (i : Fin 8) : (s.raise r).x i = s.x i := by
  simp [State.x]
@[simp] theorem State.raise_memRead (s : State) (r : ErrorRecord) (a : Word) : (s.raise r).memRead a = s.memRead a := by
  simp [State.memRead]

/-- `raise` updates `ERR` alone. -/
theorem State.raise_eq_setErr (s : State) (r : ErrorRecord) :
    s.raise r = s.setErr (if s.err.length < Config.errCap then s.err ++ [r] else s.err) := by
  unfold State.raise; split <;> rfl

/-- Where the list has room, `raise` appends. -/
theorem State.raise_of_room {s : State} (r : ErrorRecord) (h : s.err.length < Config.errCap) :
    s.raise r = s.setErr (s.err ++ [r]) := by
  simp [State.raise, h]

theorem State.raise_err (s : State) (r : ErrorRecord) :
    (s.raise r).err = if s.err.length < Config.errCap then s.err ++ [r] else s.err := by
  unfold State.raise; split <;> rfl

theorem State.raise_err_grows (s : State) (r : ErrorRecord) : s.err <+: (s.raise r).err := by
  rw [State.raise_err]; split <;> simp

theorem State.raise_err_length {s : State} (r : ErrorRecord) (h : s.err.length ≤ Config.errCap) :
    (s.raise r).err.length ≤ Config.errCap := by
  rw [State.raise_err]
  split
  · simp only [List.length_append, List.length_singleton]; omega
  · exact h

/-- After a `raise` from a list within its capacity, the list is not empty. -/
theorem State.raise_err_ne_nil (s : State) (r : ErrorRecord) : (s.raise r).err ≠ [] := by
  rw [State.raise_err]
  split
  · simp
  · rename_i h; intro h0; simp [h0] at h

/-! `raise` looks at `ERR` alone, so it commutes with every other update. -/

theorem State.raise_setX (s : State) (r : ErrorRecord) (i : Fin 8) (v : Byte) : (s.raise r).setX i v = (s.setX i v).raise r := by
  rw [State.raise_eq_setErr, State.raise_eq_setErr]; rfl
theorem State.raise_setIp (s : State) (r : ErrorRecord) (v : Word) : (s.raise r).setIp v = (s.setIp v).raise r := by
  rw [State.raise_eq_setErr, State.raise_eq_setErr]; rfl
theorem State.raise_setSp (s : State) (r : ErrorRecord) (v : Word) : (s.raise r).setSp v = (s.setSp v).raise r := by
  rw [State.raise_eq_setErr, State.raise_eq_setErr]; rfl
theorem State.raise_setFs (s : State) (r : ErrorRecord) (v : Byte) : (s.raise r).setFs v = (s.setFs v).raise r := by
  rw [State.raise_eq_setErr, State.raise_eq_setErr]; rfl
theorem State.raise_setStatus (s : State) (r : ErrorRecord) (v : Status) : (s.raise r).setStatus v = (s.setStatus v).raise r := by
  rw [State.raise_eq_setErr, State.raise_eq_setErr]; rfl
theorem State.raise_setMem (s : State) (r : ErrorRecord) (v : Memory) : (s.raise r).setMem v = (s.setMem v).raise r := by
  rw [State.raise_eq_setErr, State.raise_eq_setErr]; rfl
theorem State.raise_setInput (s : State) (r : ErrorRecord) (v : InputStream) : (s.raise r).setInput v = (s.setInput v).raise r := by
  rw [State.raise_eq_setErr, State.raise_eq_setErr]; rfl
theorem State.raise_setOutput (s : State) (r : ErrorRecord) (v : List OutEvent) : (s.raise r).setOutput v = (s.setOutput v).raise r := by
  rw [State.raise_eq_setErr, State.raise_eq_setErr]; rfl
theorem State.raise_setFailedReads (s : State) (r : ErrorRecord) (v : Nat) : (s.raise r).setFailedReads v = (s.setFailedReads v).raise r := by
  rw [State.raise_eq_setErr, State.raise_eq_setErr]; rfl
theorem State.raise_memWrite (s : State) (r : ErrorRecord) (a : Word) (v : Byte) : (s.raise r).memWrite a v = (s.memWrite a v).raise r := by
  rw [State.raise_eq_setErr, State.raise_eq_setErr]; rfl

/-! ### `raiseAll` -/

@[simp] theorem State.raiseAll_nil (s : State) : s.raiseAll [] = s := rfl
@[simp] theorem State.raiseAll_cons (s : State) (r : ErrorRecord) (rs : List ErrorRecord) :
    s.raiseAll (r :: rs) = (s.raise r).raiseAll rs := rfl

theorem State.raiseAll_append (s : State) (rs qs : List ErrorRecord) :
    s.raiseAll (rs ++ qs) = (s.raiseAll rs).raiseAll qs := by
  induction rs generalizing s with
  | nil => rfl
  | cons r rest ih => exact ih (s.raise r)

@[simp] theorem State.raiseAll_regs (s : State) (rs : List ErrorRecord) : (s.raiseAll rs).regs = s.regs := by
  induction rs generalizing s with
  | nil => rfl
  | cons r rest ih => rw [State.raiseAll_cons, ih, State.raise_regs]
@[simp] theorem State.raiseAll_ip (s : State) (rs : List ErrorRecord) : (s.raiseAll rs).ip = s.ip := by
  induction rs generalizing s with
  | nil => rfl
  | cons r rest ih => rw [State.raiseAll_cons, ih, State.raise_ip]
@[simp] theorem State.raiseAll_sp (s : State) (rs : List ErrorRecord) : (s.raiseAll rs).sp = s.sp := by
  induction rs generalizing s with
  | nil => rfl
  | cons r rest ih => rw [State.raiseAll_cons, ih, State.raise_sp]
@[simp] theorem State.raiseAll_fs (s : State) (rs : List ErrorRecord) : (s.raiseAll rs).fs = s.fs := by
  induction rs generalizing s with
  | nil => rfl
  | cons r rest ih => rw [State.raiseAll_cons, ih, State.raise_fs]
@[simp] theorem State.raiseAll_status (s : State) (rs : List ErrorRecord) : (s.raiseAll rs).status = s.status := by
  induction rs generalizing s with
  | nil => rfl
  | cons r rest ih => rw [State.raiseAll_cons, ih, State.raise_status]
@[simp] theorem State.raiseAll_mem (s : State) (rs : List ErrorRecord) : (s.raiseAll rs).mem = s.mem := by
  induction rs generalizing s with
  | nil => rfl
  | cons r rest ih => rw [State.raiseAll_cons, ih, State.raise_mem]
@[simp] theorem State.raiseAll_input (s : State) (rs : List ErrorRecord) : (s.raiseAll rs).input = s.input := by
  induction rs generalizing s with
  | nil => rfl
  | cons r rest ih => rw [State.raiseAll_cons, ih, State.raise_input]
@[simp] theorem State.raiseAll_output (s : State) (rs : List ErrorRecord) : (s.raiseAll rs).output = s.output := by
  induction rs generalizing s with
  | nil => rfl
  | cons r rest ih => rw [State.raiseAll_cons, ih, State.raise_output]
@[simp] theorem State.raiseAll_failedReads (s : State) (rs : List ErrorRecord) : (s.raiseAll rs).failedReads = s.failedReads := by
  induction rs generalizing s with
  | nil => rfl
  | cons r rest ih => rw [State.raiseAll_cons, ih, State.raise_failedReads]
@[simp] theorem State.raiseAll_x (s : State) (rs : List ErrorRecord) (i : Fin 8) : (s.raiseAll rs).x i = s.x i := by
  simp [State.x]
@[simp] theorem State.raiseAll_memRead (s : State) (rs : List ErrorRecord) (a : Word) :
    (s.raiseAll rs).memRead a = s.memRead a := by
  simp [State.memRead]

/-- Where the list has room for all of them, `raiseAll` appends. -/
theorem State.raiseAll_of_room {s : State} {rs : List ErrorRecord} (h : s.err.length + rs.length ≤ Config.errCap) :
    s.raiseAll rs = s.setErr (s.err ++ rs) := by
  induction rs generalizing s with
  | nil => simp
  | cons r rest ih =>
    simp only [List.length_cons] at h
    rw [State.raiseAll_cons, State.raise_of_room r (by omega), ih (by simp; omega)]
    simp [State.setErr]

theorem State.raiseAll_err_grows (s : State) (rs : List ErrorRecord) : s.err <+: (s.raiseAll rs).err := by
  induction rs generalizing s with
  | nil => exact List.prefix_rfl
  | cons r rest ih => exact (State.raise_err_grows s r).trans (ih (s.raise r))

theorem State.raiseAll_err_length {s : State} (rs : List ErrorRecord) (h : s.err.length ≤ Config.errCap) :
    (s.raiseAll rs).err.length ≤ Config.errCap := by
  induction rs generalizing s with
  | nil => exact h
  | cons r rest ih => exact ih (State.raise_err_length r h)

/-- What `raiseAll` leaves in `ERR` depends on `ERR` alone. -/
theorem State.raiseAll_err_congr {s t : State} (h : s.err = t.err) (rs : List ErrorRecord) :
    (s.raiseAll rs).err = (t.raiseAll rs).err := by
  induction rs generalizing s t with
  | nil => exact h
  | cons r rest ih => exact ih (by rw [State.raise_err, State.raise_err, h])

/-- Every record of the list afterwards was there before or was raised. -/
theorem State.mem_raiseAll_err {s : State} {rs : List ErrorRecord} {q : ErrorRecord} (h : q ∈ (s.raiseAll rs).err) :
    q ∈ s.err ∨ q ∈ rs := by
  induction rs generalizing s with
  | nil => exact .inl h
  | cons r rest ih =>
    rcases ih h with h1 | h1
    · rw [State.raise_err] at h1
      split at h1
      · rcases List.mem_append.1 h1 with h2 | h2
        · exact .inl h2
        · exact .inr (by simp_all)
      · exact .inl h1
    · exact .inr (List.mem_cons_of_mem r h1)

theorem State.raiseAll_setX (s : State) (rs : List ErrorRecord) (i : Fin 8) (v : Byte) :
    (s.raiseAll rs).setX i v = (s.setX i v).raiseAll rs := by
  induction rs generalizing s with
  | nil => rfl
  | cons r rest ih => rw [State.raiseAll_cons, State.raiseAll_cons, ih, State.raise_setX]
theorem State.raiseAll_setIp (s : State) (rs : List ErrorRecord) (v : Word) :
    (s.raiseAll rs).setIp v = (s.setIp v).raiseAll rs := by
  induction rs generalizing s with
  | nil => rfl
  | cons r rest ih => rw [State.raiseAll_cons, State.raiseAll_cons, ih, State.raise_setIp]
theorem State.raiseAll_setSp (s : State) (rs : List ErrorRecord) (v : Word) :
    (s.raiseAll rs).setSp v = (s.setSp v).raiseAll rs := by
  induction rs generalizing s with
  | nil => rfl
  | cons r rest ih => rw [State.raiseAll_cons, State.raiseAll_cons, ih, State.raise_setSp]
theorem State.raiseAll_setFs (s : State) (rs : List ErrorRecord) (v : Byte) :
    (s.raiseAll rs).setFs v = (s.setFs v).raiseAll rs := by
  induction rs generalizing s with
  | nil => rfl
  | cons r rest ih => rw [State.raiseAll_cons, State.raiseAll_cons, ih, State.raise_setFs]
theorem State.raiseAll_setStatus (s : State) (rs : List ErrorRecord) (v : Status) :
    (s.raiseAll rs).setStatus v = (s.setStatus v).raiseAll rs := by
  induction rs generalizing s with
  | nil => rfl
  | cons r rest ih => rw [State.raiseAll_cons, State.raiseAll_cons, ih, State.raise_setStatus]
theorem State.raiseAll_setMem (s : State) (rs : List ErrorRecord) (v : Memory) :
    (s.raiseAll rs).setMem v = (s.setMem v).raiseAll rs := by
  induction rs generalizing s with
  | nil => rfl
  | cons r rest ih => rw [State.raiseAll_cons, State.raiseAll_cons, ih, State.raise_setMem]
theorem State.raiseAll_setOutput (s : State) (rs : List ErrorRecord) (v : List OutEvent) :
    (s.raiseAll rs).setOutput v = (s.setOutput v).raiseAll rs := by
  induction rs generalizing s with
  | nil => rfl
  | cons r rest ih => rw [State.raiseAll_cons, State.raiseAll_cons, ih, State.raise_setOutput]
theorem State.raiseAll_memWrite (s : State) (rs : List ErrorRecord) (a : Word) (v : Byte) :
    (s.raiseAll rs).memWrite a v = (s.memWrite a v).raiseAll rs := by
  induction rs generalizing s with
  | nil => rfl
  | cons r rest ih => rw [State.raiseAll_cons, State.raiseAll_cons, ih, State.raise_memWrite]

/-! ### `endStep` -/

@[simp] theorem State.endStep_regs (s : State) : (s.endStep).regs = s.regs := by unfold State.endStep; split <;> rfl
@[simp] theorem State.endStep_ip (s : State) : (s.endStep).ip = s.ip := by unfold State.endStep; split <;> rfl
@[simp] theorem State.endStep_sp (s : State) : (s.endStep).sp = s.sp := by unfold State.endStep; split <;> rfl
@[simp] theorem State.endStep_fs (s : State) : (s.endStep).fs = s.fs := by unfold State.endStep; split <;> rfl
@[simp] theorem State.endStep_err (s : State) : (s.endStep).err = s.err := by unfold State.endStep; split <;> rfl
@[simp] theorem State.endStep_mem (s : State) : (s.endStep).mem = s.mem := by unfold State.endStep; split <;> rfl
@[simp] theorem State.endStep_input (s : State) : (s.endStep).input = s.input := by unfold State.endStep; split <;> rfl
@[simp] theorem State.endStep_output (s : State) : (s.endStep).output = s.output := by unfold State.endStep; split <;> rfl
@[simp] theorem State.endStep_failedReads (s : State) : (s.endStep).failedReads = s.failedReads := by unfold State.endStep; split <;> rfl
@[simp] theorem State.endStep_x (s : State) (i : Fin 8) : s.endStep.x i = s.x i := by simp [State.x]
@[simp] theorem State.endStep_memRead (s : State) (a : Word) : s.endStep.memRead a = s.memRead a := by
  simp [State.memRead]

/-- The end of a step enters the fault exactly when an error is recorded. -/
theorem State.endStep_status (s : State) : s.endStep.status = if s.err = [] then s.status else .faulted := by
  unfold State.endStep; split <;> rfl

theorem State.endStep_of_no_error {s : State} (h : s.err = []) : s.endStep = s := by simp [State.endStep, h]

theorem State.endStep_of_error {s : State} (h : s.err ≠ []) : s.endStep = s.setStatus .faulted := by
  simp [State.endStep, h]

/-! ### The fetch: IP advances by the bytes fetched, modulo 65536, and at most one record is raised -/

/-- Everything a fetch can do. -/
theorem State.fetch_cases (s : State) :
    (s.ip ≠ Config.fetchLimit ∧ s.fetch = (s.memRead s.ip, s.setIp (s.ip + 1))) ∨
    (s.ip = Config.fetchLimit ∧
      s.fetch = (Config.refusedFetchByte, (s.setIp (s.ip + 1)).raise (ErrorRecord.ofCode .ipOutOfBounds))) := by
  unfold State.fetch
  split
  · rename_i h
    refine .inr ⟨h, ?_⟩
    rw [h]; rfl
  · rename_i h; exact .inl ⟨h, rfl⟩

/-- The state after a fetch: IP advanced, perhaps one record, nothing else. -/
theorem State.fetch_state (s : State) :
    ∃ rs, s.fetch.2 = (s.setIp (s.ip + 1)).raiseAll rs ∧ ∀ r ∈ rs, r = ErrorRecord.ofCode .ipOutOfBounds := by
  rcases State.fetch_cases s with ⟨_, h⟩ | ⟨_, h⟩
  · exact ⟨[], by rw [h]; rfl, by simp⟩
  · exact ⟨[ErrorRecord.ofCode .ipOutOfBounds], by rw [h]; rfl, by simp⟩

@[simp] theorem State.fetchMany_length (n : Nat) (s : State) : (State.fetchMany n s).1.length = n := by
  induction n generalizing s with
  | zero => rfl
  | succ n ih => simp [State.fetchMany, ih]

/-- The state after `n` fetches. -/
theorem State.fetchMany_state (n : Nat) (s : State) :
    ∃ rs, (State.fetchMany n s).2 = (s.setIp (s.ip + BitVec.ofNat 16 n)).raiseAll rs ∧
      ∀ r ∈ rs, r = ErrorRecord.ofCode .ipOutOfBounds := by
  induction n generalizing s with
  | zero => exact ⟨[], by simp [State.fetchMany], by simp⟩
  | succ n ih =>
    obtain ⟨rs, h, hrs⟩ := State.fetch_state s
    obtain ⟨qs, h', hqs⟩ := ih s.fetch.2
    refine ⟨rs ++ qs, ?_, fun r hr => ?_⟩
    · have : (State.fetchMany (n + 1) s).2 = (State.fetchMany n s.fetch.2).2 := rfl
      rw [this, h', h, State.raiseAll_ip, State.raiseAll_setIp, State.raiseAll_append, State.setIp_ip]
      have e : s.ip + 1 + BitVec.ofNat 16 n = s.ip + BitVec.ofNat 16 (n + 1) := by
        rw [BitVec.ofNat_add]; ac_rfl
      rw [e]; rfl
    · rcases List.mem_append.1 hr with hr | hr
      · exact hrs r hr
      · exact hqs r hr

/-- The state after the bytes of an instruction are fetched: IP is past them, and only the fetch's own record can have
been raised. -/
theorem State.fetchInstr_state (s : State) :
    ∃ rs, s.fetchInstr.2 = (s.setIp (s.ip + BitVec.ofNat 16 s.fetchInstr.1.length)).raiseAll rs ∧
      ∀ r ∈ rs, r = ErrorRecord.ofCode .ipOutOfBounds := by
  obtain ⟨rs, h, hrs⟩ := State.fetchMany_state (operandBytes s.fetch.1 + 1) s
  have hone : (State.fetchMany (operandBytes s.fetch.1 + 1) s).2 = s.fetchInstr.2 := rfl
  have hlen : s.fetchInstr.1.length = operandBytes s.fetch.1 + 1 := by simp [State.fetchInstr]
  exact ⟨rs, by rw [← hone, h, hlen], hrs⟩

/-- The bytes of an instruction are its opcode and as many operand bytes as that opcode has. -/
theorem State.fetchInstr_bytes (s : State) :
    ∃ operands, s.fetchInstr.1 = s.fetch.1 :: operands ∧ operands.length = operandBytes s.fetch.1 :=
  ⟨_, rfl, State.fetchMany_length _ _⟩

@[simp] theorem State.fetchInstr_regs (s : State) : s.fetchInstr.2.regs = s.regs := by
  obtain ⟨rs, h, _⟩ := State.fetchInstr_state s
  rw [h]; simp
@[simp] theorem State.fetchInstr_sp (s : State) : s.fetchInstr.2.sp = s.sp := by
  obtain ⟨rs, h, _⟩ := State.fetchInstr_state s
  rw [h]; simp
@[simp] theorem State.fetchInstr_fs (s : State) : s.fetchInstr.2.fs = s.fs := by
  obtain ⟨rs, h, _⟩ := State.fetchInstr_state s
  rw [h]; simp
@[simp] theorem State.fetchInstr_status (s : State) : s.fetchInstr.2.status = s.status := by
  obtain ⟨rs, h, _⟩ := State.fetchInstr_state s
  rw [h]; simp
@[simp] theorem State.fetchInstr_mem (s : State) : s.fetchInstr.2.mem = s.mem := by
  obtain ⟨rs, h, _⟩ := State.fetchInstr_state s
  rw [h]; simp
@[simp] theorem State.fetchInstr_input (s : State) : s.fetchInstr.2.input = s.input := by
  obtain ⟨rs, h, _⟩ := State.fetchInstr_state s
  rw [h]; simp
@[simp] theorem State.fetchInstr_output (s : State) : s.fetchInstr.2.output = s.output := by
  obtain ⟨rs, h, _⟩ := State.fetchInstr_state s
  rw [h]; simp
@[simp] theorem State.fetchInstr_failedReads (s : State) : s.fetchInstr.2.failedReads = s.failedReads := by
  obtain ⟨rs, h, _⟩ := State.fetchInstr_state s
  rw [h]; simp

theorem State.fetchInstr_ip (s : State) : s.fetchInstr.2.ip = s.ip + BitVec.ofNat 16 s.fetchInstr.1.length := by
  obtain ⟨rs, h, _⟩ := State.fetchInstr_state s
  rw [h, State.raiseAll_ip, State.setIp_ip]

theorem State.fetchInstr_err_grows (s : State) : s.err <+: s.fetchInstr.2.err := by
  obtain ⟨rs, h, _⟩ := State.fetchInstr_state s
  rw [h]
  exact State.raiseAll_err_grows (s.setIp (s.ip + BitVec.ofNat 16 s.fetchInstr.1.length)) rs

/-! ### The stack primitives -/

/-- Everything a push can do (spec/45_stack_call.md R160). -/
theorem State.push_cases (s : State) (v : Byte) :
    (s.sp = Config.stackLimit ∧ s.push v = s.raise (ErrorRecord.ofCode .stackOverflow)) ∨
    (s.sp ≠ Config.stackLimit ∧ s.fs ≠ Config.frameLimit ∧
      s.push v = ((s.memWrite s.sp v).setSp (s.sp + 1)).setFs (s.fs + 1)) ∨
    (s.sp ≠ Config.stackLimit ∧ s.fs = Config.frameLimit ∧
      s.push v = (((s.memWrite s.sp v).setSp (s.sp + 1)).setFs (s.fs + 1)).raise (ErrorRecord.ofCode .frameTooLarge)) := by
  unfold State.push
  by_cases h : s.sp = Config.stackLimit
  · exact .inl ⟨h, by simp [h]⟩
  · by_cases h' : s.fs = Config.frameLimit
    · exact .inr (.inr ⟨h, h', by simp [h, h', State.raise_setFs]⟩)
    · exact .inr (.inl ⟨h, h', by simp [h, h']⟩)

/-- Everything a save can do (R162). -/
theorem State.save_cases (s : State) (v : Byte) :
    (s.sp = Config.stackLimit ∧ s.save v = s.raise (ErrorRecord.ofCode .stackOverflow)) ∨
    (s.sp ≠ Config.stackLimit ∧ s.save v = (s.memWrite s.sp v).setSp (s.sp + 1)) := by
  unfold State.save
  by_cases h : s.sp = Config.stackLimit
  · exact .inl ⟨h, by simp [h]⟩
  · exact .inr ⟨h, by simp [h]⟩

@[simp] theorem State.saveAll_nil (s : State) : s.saveAll [] = s := rfl
@[simp] theorem State.saveAll_cons (s : State) (v : Byte) (vs : List Byte) : s.saveAll (v :: vs) = (s.save v).saveAll vs := rfl

@[simp] theorem State.save_regs (s : State) (v : Byte) : (s.save v).regs = s.regs := by
  rcases State.save_cases s v with ⟨_, h⟩ | ⟨_, h⟩ <;> rw [h] <;> simp
@[simp] theorem State.saveAll_regs (s : State) (vs : List Byte) : (s.saveAll vs).regs = s.regs := by
  induction vs generalizing s with
  | nil => rfl
  | cons v rest ih => rw [State.saveAll_cons, ih, State.save_regs]
@[simp] theorem State.save_ip (s : State) (v : Byte) : (s.save v).ip = s.ip := by
  rcases State.save_cases s v with ⟨_, h⟩ | ⟨_, h⟩ <;> rw [h] <;> simp
@[simp] theorem State.saveAll_ip (s : State) (vs : List Byte) : (s.saveAll vs).ip = s.ip := by
  induction vs generalizing s with
  | nil => rfl
  | cons v rest ih => rw [State.saveAll_cons, ih, State.save_ip]
@[simp] theorem State.save_fs (s : State) (v : Byte) : (s.save v).fs = s.fs := by
  rcases State.save_cases s v with ⟨_, h⟩ | ⟨_, h⟩ <;> rw [h] <;> simp
@[simp] theorem State.saveAll_fs (s : State) (vs : List Byte) : (s.saveAll vs).fs = s.fs := by
  induction vs generalizing s with
  | nil => rfl
  | cons v rest ih => rw [State.saveAll_cons, ih, State.save_fs]
@[simp] theorem State.save_status (s : State) (v : Byte) : (s.save v).status = s.status := by
  rcases State.save_cases s v with ⟨_, h⟩ | ⟨_, h⟩ <;> rw [h] <;> simp
@[simp] theorem State.saveAll_status (s : State) (vs : List Byte) : (s.saveAll vs).status = s.status := by
  induction vs generalizing s with
  | nil => rfl
  | cons v rest ih => rw [State.saveAll_cons, ih, State.save_status]
@[simp] theorem State.save_input (s : State) (v : Byte) : (s.save v).input = s.input := by
  rcases State.save_cases s v with ⟨_, h⟩ | ⟨_, h⟩ <;> rw [h] <;> simp
@[simp] theorem State.saveAll_input (s : State) (vs : List Byte) : (s.saveAll vs).input = s.input := by
  induction vs generalizing s with
  | nil => rfl
  | cons v rest ih => rw [State.saveAll_cons, ih, State.save_input]
@[simp] theorem State.save_output (s : State) (v : Byte) : (s.save v).output = s.output := by
  rcases State.save_cases s v with ⟨_, h⟩ | ⟨_, h⟩ <;> rw [h] <;> simp
@[simp] theorem State.saveAll_output (s : State) (vs : List Byte) : (s.saveAll vs).output = s.output := by
  induction vs generalizing s with
  | nil => rfl
  | cons v rest ih => rw [State.saveAll_cons, ih, State.save_output]
@[simp] theorem State.save_failedReads (s : State) (v : Byte) : (s.save v).failedReads = s.failedReads := by
  rcases State.save_cases s v with ⟨_, h⟩ | ⟨_, h⟩ <;> rw [h] <;> simp
@[simp] theorem State.saveAll_failedReads (s : State) (vs : List Byte) : (s.saveAll vs).failedReads = s.failedReads := by
  induction vs generalizing s with
  | nil => rfl
  | cons v rest ih => rw [State.saveAll_cons, ih, State.save_failedReads]

/-- A push or a save raises at most one record, and a row of saves some number of `STACK_OVERFLOW`s. -/
theorem State.push_err (s : State) (v : Byte) :
    ∃ rs, (s.push v).err = (s.raiseAll rs).err ∧ rs.length ≤ 1 ∧ ∀ r ∈ rs, r.code ≠ .invalidRegister := by
  rcases State.push_cases s v with ⟨_, h⟩ | ⟨_, _, h⟩ | ⟨_, _, h⟩ <;> rw [h]
  · exact ⟨[ErrorRecord.ofCode .stackOverflow], rfl, by simp, by simp [ErrorRecord.ofCode]⟩
  · exact ⟨[], rfl, by simp, by simp⟩
  · exact ⟨[ErrorRecord.ofCode .frameTooLarge], State.raiseAll_err_congr
      (s := ((s.memWrite s.sp v).setSp (s.sp + 1)).setFs (s.fs + 1)) (t := s) rfl [ErrorRecord.ofCode .frameTooLarge],
      by simp, by simp [ErrorRecord.ofCode]⟩

theorem State.saveAll_err (s : State) (vs : List Byte) :
    ∃ n, (s.saveAll vs).err = (s.raiseAll (List.replicate n (ErrorRecord.ofCode .stackOverflow))).err := by
  induction vs generalizing s with
  | nil => exact ⟨0, rfl⟩
  | cons v rest ih =>
    obtain ⟨n, h⟩ := ih (s.save v)
    rcases State.save_cases s v with ⟨_, h1⟩ | ⟨_, h1⟩
    · exact ⟨n + 1, by rw [State.saveAll_cons, h, h1, List.replicate_succ, State.raiseAll_cons]⟩
    · exact ⟨n, by
        rw [State.saveAll_cons, h, h1]
        exact State.raiseAll_err_congr (s := (s.memWrite s.sp v).setSp (s.sp + 1)) (t := s) rfl _⟩

/-- What a row of saves does to the memory is what the port's stack writes do. -/
theorem State.saveAll_mem (s : State) (vs : List Byte) : (s.saveAll vs).mem = s.mem.applyAll (saveAccesses s.sp vs) := by
  induction vs generalizing s with
  | nil => rfl
  | cons v rest ih =>
    rw [State.saveAll_cons, ih]
    rcases State.save_cases s v with ⟨hs, h⟩ | ⟨hs, h⟩
    · have hstop : saveAccesses s.sp rest = [] := by cases rest <;> simp [saveAccesses, hs]
      rw [h, State.raise_sp, State.raise_mem, hstop]; simp [saveAccesses, hs]
    · simp [h, saveAccesses, hs, Memory.applyAll, MemAccess.apply]

/-- Where SP is below the limit by at least their number, a row of saves writes them all and raises nothing. -/
theorem State.saveAll_err_of_room {s : State} {vs : List Byte} (h : s.sp.toNat + vs.length ≤ 65535) :
    (s.saveAll vs).err = s.err ∧ (s.saveAll vs).sp = s.sp + BitVec.ofNat 16 vs.length := by
  induction vs generalizing s with
  | nil => simp
  | cons v rest ih =>
    simp only [List.length_cons] at h
    rcases State.save_cases s v with ⟨hs, _⟩ | ⟨_, hsave⟩
    · rw [hs] at h; simp at h
    · have hroom : ((s.save v).sp).toNat + rest.length ≤ 65535 := by
        rw [hsave, State.setSp_sp, BitVec.toNat_add]; simp; omega
      obtain ⟨he, hsp⟩ := ih hroom
      refine ⟨?_, ?_⟩
      · rw [State.saveAll_cons, he, hsave]; rfl
      · rw [State.saveAll_cons, hsp, hsave, State.setSp_sp, List.length_cons, BitVec.ofNat_add]; ac_rfl

@[simp] theorem State.restore_regs (s : State) : s.restore.2.regs = s.regs := rfl
@[simp] theorem State.restore_ip (s : State) : s.restore.2.ip = s.ip := rfl
@[simp] theorem State.restore_fs (s : State) : s.restore.2.fs = s.fs := rfl
@[simp] theorem State.restore_err (s : State) : s.restore.2.err = s.err := rfl
@[simp] theorem State.restore_status (s : State) : s.restore.2.status = s.status := rfl
@[simp] theorem State.restore_mem (s : State) : s.restore.2.mem = s.mem := rfl
@[simp] theorem State.restore_input (s : State) : s.restore.2.input = s.input := rfl
@[simp] theorem State.restore_output (s : State) : s.restore.2.output = s.output := rfl
@[simp] theorem State.restore_failedReads (s : State) : s.restore.2.failedReads = s.failedReads := rfl
@[simp] theorem State.restore_sp (s : State) : s.restore.2.sp = s.sp - 1 := rfl
@[simp] theorem State.restore_byte (s : State) : s.restore.1 = s.memRead (s.sp - 1) := rfl
@[simp] theorem State.restore_memRead (s : State) (a : Word) : s.restore.2.memRead a = s.memRead a := rfl
@[simp] theorem State.restore_x (s : State) (i : Fin 8) : s.restore.2.x i = s.x i := rfl

/-- `x[i] <- Restore()`, whole. -/
theorem State.restoreX_eq (s : State) (i : Fin 8) :
    s.restoreX i = (s.setSp (s.sp - 1)).setX i (s.memRead (s.sp - 1)) := rfl

/-- A pop, whole (R161). -/
theorem State.pop_eq (s : State) : s.pop = (s.memRead (s.sp - 1), (s.setSp (s.sp - 1)).setFs (s.fs - 1)) := rfl

/-- A pop is refused exactly when the frame is empty or SP is at the base (R166). -/
theorem State.popRefused_iff (s : State) : s.popRefused = true ↔ s.fs = 0 ∨ s.sp = Config.stackBase := by
  simp [State.popRefused]

/-! ### The streams -/

@[simp] theorem State.out_regs (s : State) (b : Byte) : (s.out b).regs = s.regs := rfl
@[simp] theorem State.outFlush_regs (s : State) : s.outFlush.regs = s.regs := rfl
@[simp] theorem State.outRange_regs (n : Nat) (a : Word) (s : State) : (State.outRange n a s).regs = s.regs := by
  induction n generalizing a s with
  | zero => rfl
  | succ n ih => exact ih _ _
@[simp] theorem State.out_ip (s : State) (b : Byte) : (s.out b).ip = s.ip := rfl
@[simp] theorem State.outFlush_ip (s : State) : s.outFlush.ip = s.ip := rfl
@[simp] theorem State.outRange_ip (n : Nat) (a : Word) (s : State) : (State.outRange n a s).ip = s.ip := by
  induction n generalizing a s with
  | zero => rfl
  | succ n ih => exact ih _ _
@[simp] theorem State.out_sp (s : State) (b : Byte) : (s.out b).sp = s.sp := rfl
@[simp] theorem State.outFlush_sp (s : State) : s.outFlush.sp = s.sp := rfl
@[simp] theorem State.outRange_sp (n : Nat) (a : Word) (s : State) : (State.outRange n a s).sp = s.sp := by
  induction n generalizing a s with
  | zero => rfl
  | succ n ih => exact ih _ _
@[simp] theorem State.out_fs (s : State) (b : Byte) : (s.out b).fs = s.fs := rfl
@[simp] theorem State.outFlush_fs (s : State) : s.outFlush.fs = s.fs := rfl
@[simp] theorem State.outRange_fs (n : Nat) (a : Word) (s : State) : (State.outRange n a s).fs = s.fs := by
  induction n generalizing a s with
  | zero => rfl
  | succ n ih => exact ih _ _
@[simp] theorem State.out_err (s : State) (b : Byte) : (s.out b).err = s.err := rfl
@[simp] theorem State.outFlush_err (s : State) : s.outFlush.err = s.err := rfl
@[simp] theorem State.outRange_err (n : Nat) (a : Word) (s : State) : (State.outRange n a s).err = s.err := by
  induction n generalizing a s with
  | zero => rfl
  | succ n ih => exact ih _ _
@[simp] theorem State.out_status (s : State) (b : Byte) : (s.out b).status = s.status := rfl
@[simp] theorem State.outFlush_status (s : State) : s.outFlush.status = s.status := rfl
@[simp] theorem State.outRange_status (n : Nat) (a : Word) (s : State) : (State.outRange n a s).status = s.status := by
  induction n generalizing a s with
  | zero => rfl
  | succ n ih => exact ih _ _
@[simp] theorem State.out_mem (s : State) (b : Byte) : (s.out b).mem = s.mem := rfl
@[simp] theorem State.outFlush_mem (s : State) : s.outFlush.mem = s.mem := rfl
@[simp] theorem State.outRange_mem (n : Nat) (a : Word) (s : State) : (State.outRange n a s).mem = s.mem := by
  induction n generalizing a s with
  | zero => rfl
  | succ n ih => exact ih _ _
@[simp] theorem State.out_input (s : State) (b : Byte) : (s.out b).input = s.input := rfl
@[simp] theorem State.outFlush_input (s : State) : s.outFlush.input = s.input := rfl
@[simp] theorem State.outRange_input (n : Nat) (a : Word) (s : State) : (State.outRange n a s).input = s.input := by
  induction n generalizing a s with
  | zero => rfl
  | succ n ih => exact ih _ _
@[simp] theorem State.out_failedReads (s : State) (b : Byte) : (s.out b).failedReads = s.failedReads := rfl
@[simp] theorem State.outFlush_failedReads (s : State) : s.outFlush.failedReads = s.failedReads := rfl
@[simp] theorem State.outRange_failedReads (n : Nat) (a : Word) (s : State) : (State.outRange n a s).failedReads = s.failedReads := by
  induction n generalizing a s with
  | zero => rfl
  | succ n ih => exact ih _ _
@[simp] theorem State.outFlush_output (s : State) : s.outFlush.output = s.output ++ [.flush] := rfl
@[simp] theorem State.out_output (s : State) (b : Byte) : (s.out b).output = s.output ++ [.byte b] := rfl
@[simp] theorem State.out_memRead (s : State) (b : Byte) (a : Word) : (s.out b).memRead a = s.memRead a := rfl

theorem State.outRange_output_grows (n : Nat) (a : Word) (s : State) : s.output <+: (State.outRange n a s).output := by
  induction n generalizing a s with
  | zero => exact List.prefix_rfl
  | succ n ih => exact (List.prefix_append s.output [.byte (s.memRead a)]).trans (ih (a + 1) (s.out (s.memRead a)))

/-- A range of output only touches the output. -/
theorem State.outRange_eq (n : Nat) (a : Word) (s : State) :
    State.outRange n a s = s.setOutput (State.outRange n a s).output := by
  induction n generalizing a s with
  | zero => rfl
  | succ n ih => exact ih _ _

/-- Everything a read of the input can do (spec/46_io.md R182). -/
theorem State.inRead_cases (s : State) :
    (∃ b rest, s.input.pending = b :: rest ∧
      s.inRead = .byte b (s.setInput { s.input with pending := rest })) ∨
    (s.input.pending = [] ∧ s.input.tail = .fails ∧
      s.inRead = .failure (Config.rinFailValue s.failedReads) (s.setFailedReads (s.failedReads + 1))) ∨
    (s.input.pending = [] ∧ s.input.tail = .silent ∧ s.inRead = .none) := by
  cases hp : s.input.pending with
  | cons b rest => exact .inl ⟨b, rest, rfl, by simp [State.inRead, hp]⟩
  | nil =>
    cases ht : s.input.tail with
    | fails => exact .inr (.inl ⟨rfl, rfl, by simp [State.inRead, hp, ht]⟩)
    | silent => exact .inr (.inr ⟨rfl, rfl, by simp [State.inRead, hp, ht]⟩)

end Sys2Proof.Machine
end

