-- ==== Sys2Proof/Laws/Operands.lean ====
section
/-! SUPPORT. The operand forms and the ALU's shapes, each as one equation: the value delivered, and the records raised. -/

namespace Sys2Proof.Machine

/-! ### Values do not see errors or other updates -/

theorem State.regVal_congr {s t : State} (h : ∀ i, s.x i = t.x i) (i : Nat) : s.regVal i = t.regVal i := by
  unfold State.regVal; split
  · exact h _
  · rfl

@[simp] theorem State.regVal_raise (s : State) (r : ErrorRecord) (i : Nat) : (s.raise r).regVal i = s.regVal i :=
  State.regVal_congr (State.raise_x s r) i

@[simp] theorem State.regVal_raiseAll (s : State) (rs : List ErrorRecord) (i : Nat) :
    (s.raiseAll rs).regVal i = s.regVal i :=
  State.regVal_congr (State.raiseAll_x s rs) i

@[simp] theorem State.ptrVal_raiseAll (s : State) (rs : List ErrorRecord) (r : Nat) :
    (s.raiseAll rs).ptrVal r = s.ptrVal r := by
  simp [State.ptrVal]

/-- A register that exists is read as it stands. -/
@[simp] theorem State.regVal_fin (s : State) (i : Fin 8) : s.regVal i.val = s.x i := by
  simp [State.regVal, i.isLt]

@[simp] theorem regErrors_fin (i : Fin 8) : regErrors i.val = [] := by simp [regErrors, i.isLt]

theorem regErrors_of_lt {i : Nat} (h : i < 8) : regErrors i = [] := by simp [regErrors, h]

theorem regErrors_of_ge {i : Nat} (h : 8 ≤ i) : regErrors i = [ErrorRecord.ofIndex i] := by
  simp [regErrors, show ¬ i < 8 by omega]

theorem regErrors_length_le (i : Nat) : (regErrors i).length ≤ 1 := by
  unfold regErrors; split <;> simp

/-! ### Checked access -/

/-- A register read, whole. -/
theorem State.regRead_eq (s : State) (i : Nat) : s.regRead i = (s.regVal i, s.raiseAll (regErrors i)) := by
  unfold State.regRead State.regVal regErrors
  by_cases h : i < 8 <;> simp [h]

/-- A pointer, whole. -/
theorem State.ptr_eq (s : State) (r : Nat) : s.ptr r = (s.ptrVal r, s.raiseAll (ptrErrors r)) := by
  simp [State.ptr, State.regRead_eq, State.ptrVal, ptrErrors, State.raiseAll_append]

/-- Everything a register write can do. -/
theorem State.regWrite_cases (s : State) (i : Nat) (v : Byte) :
    (∃ h : i < 8, s.regWrite i v = s.setX ⟨i, h⟩ v) ∨ (8 ≤ i ∧ s.regWrite i v = s.raise (ErrorRecord.ofIndex i)) := by
  unfold State.regWrite
  by_cases h : i < 8
  · exact .inl ⟨h, by simp [h]⟩
  · exact .inr ⟨by omega, by simp [h]⟩

/-- A write through an index that names a register sets that register. -/
@[simp] theorem State.regWrite_fin (s : State) (i : Fin 8) (v : Byte) : s.regWrite i.val v = s.setX i v := by
  simp [State.regWrite, i.isLt]

@[simp] theorem State.regWrite_ip (s : State) (i : Nat) (v : Byte) : (s.regWrite i v).ip = s.ip := by
  rcases State.regWrite_cases s i v with ⟨_, h⟩ | ⟨_, h⟩ <;> rw [h] <;> simp
@[simp] theorem State.regWrite_sp (s : State) (i : Nat) (v : Byte) : (s.regWrite i v).sp = s.sp := by
  rcases State.regWrite_cases s i v with ⟨_, h⟩ | ⟨_, h⟩ <;> rw [h] <;> simp
@[simp] theorem State.regWrite_fs (s : State) (i : Nat) (v : Byte) : (s.regWrite i v).fs = s.fs := by
  rcases State.regWrite_cases s i v with ⟨_, h⟩ | ⟨_, h⟩ <;> rw [h] <;> simp
@[simp] theorem State.regWrite_status (s : State) (i : Nat) (v : Byte) : (s.regWrite i v).status = s.status := by
  rcases State.regWrite_cases s i v with ⟨_, h⟩ | ⟨_, h⟩ <;> rw [h] <;> simp
@[simp] theorem State.regWrite_mem (s : State) (i : Nat) (v : Byte) : (s.regWrite i v).mem = s.mem := by
  rcases State.regWrite_cases s i v with ⟨_, h⟩ | ⟨_, h⟩ <;> rw [h] <;> simp
@[simp] theorem State.regWrite_input (s : State) (i : Nat) (v : Byte) : (s.regWrite i v).input = s.input := by
  rcases State.regWrite_cases s i v with ⟨_, h⟩ | ⟨_, h⟩ <;> rw [h] <;> simp
@[simp] theorem State.regWrite_output (s : State) (i : Nat) (v : Byte) : (s.regWrite i v).output = s.output := by
  rcases State.regWrite_cases s i v with ⟨_, h⟩ | ⟨_, h⟩ <;> rw [h] <;> simp
@[simp] theorem State.regWrite_failedReads (s : State) (i : Nat) (v : Byte) : (s.regWrite i v).failedReads = s.failedReads := by
  rcases State.regWrite_cases s i v with ⟨_, h⟩ | ⟨_, h⟩ <;> rw [h] <;> simp

@[simp] theorem State.regWrite_memRead (s : State) (i : Nat) (v : Byte) (a : Word) :
    (s.regWrite i v).memRead a = s.memRead a := by
  simp [State.memRead]

/-- A register write leaves every register but the one it names. -/
theorem State.regWrite_x_other (s : State) {i : Nat} (v : Byte) {j : Fin 8} (h : j.val ≠ i) :
    (s.regWrite i v).x j = s.x j := by
  rcases State.regWrite_cases s i v with ⟨hi, hw⟩ | ⟨_, hw⟩
  · rw [hw, State.setX_x_other]
    intro e; exact h (by rw [← e])
  · rw [hw, State.raise_x]

/-- What a register write does to `ERR`: nothing, or the record of an index that names no register. -/
theorem State.regWrite_err (s : State) (i : Nat) (v : Byte) :
    (s.regWrite i v).err = (s.raiseAll (regErrors i)).err := by
  rcases State.regWrite_cases s i v with ⟨hi, hw⟩ | ⟨hi, hw⟩
  · rw [hw, regErrors_of_lt hi]; rfl
  · rw [hw, regErrors_of_ge hi]; rfl

/-! ### The ALU's shapes -/

/-- A two-register operation, whole. -/
theorem State.aluRegReg_eq (s : State) (f : Byte → Byte → Byte) (a b : Nat) :
    s.aluRegReg f a b = (s.raiseAll (regErrors a ++ regErrors b)).setX 0 (f (s.regVal a) (s.regVal b)) := by
  simp [State.aluRegReg, State.regRead_eq, State.raiseAll_append]

/-- A shift, whole. -/
theorem State.aluRegLit_eq (s : State) (f : Byte → Byte → Byte) (r : Nat) (lit : Byte) :
    s.aluRegLit f r lit = (s.raiseAll (regErrors r)).setX 0 (f (s.regVal r) lit) := by
  simp [State.aluRegLit, State.regRead_eq]

/-- An in-place operation, whole. -/
theorem State.aluInPlace_eq (s : State) (f : Byte → Byte) (r : Nat) :
    s.aluInPlace f r = (s.raiseAll (regErrors r)).regWrite r (f (s.regVal r)) := by
  simp [State.aluInPlace, State.regRead_eq]

/-! ### The conditional jump -/

/-- Everything a conditional jump can do. -/
theorem State.jumpIf_eq (s : State) (c : Bool) (addr : Word) :
    s.jumpIf c addr = s.setIp (if c then addr else s.ip) := by
  unfold State.jumpIf; cases c <;> simp

end Sys2Proof.Machine
end

