-- ==== Sys2Proof/Laws/PerInstr.lean ====
section
/-! SUPPORT. Statements made per instruction. `EncodedLength`: the length of an encoding is a function of its opcode byte
alone (spec/30_encoding.md R90), and is 1 to 4 (R80). -/

namespace Sys2Proof.Laws

def EncodedLength.Statement (i : Instr) : Prop :=
  (encode i).length = 1 + operandBytes i.opcode ∧ (encode i).length ≤ 4

theorem EncodedLength.nop : EncodedLength.Statement (.nop) := ⟨rfl, Nat.le_of_ble_eq_true rfl⟩
theorem EncodedLength.mlr (a : Byte) (b : Nat) : EncodedLength.Statement (.mlr a b) := ⟨rfl, Nat.le_of_ble_eq_true rfl⟩
theorem EncodedLength.mrr (a : Nat) (b : Nat) : EncodedLength.Statement (.mrr a b) := ⟨rfl, Nat.le_of_ble_eq_true rfl⟩
theorem EncodedLength.mlm (a : Byte) (b : Nat) : EncodedLength.Statement (.mlm a b) := ⟨rfl, Nat.le_of_ble_eq_true rfl⟩
theorem EncodedLength.mrm (a : Nat) (b : Nat) : EncodedLength.Statement (.mrm a b) := ⟨rfl, Nat.le_of_ble_eq_true rfl⟩
theorem EncodedLength.mmr (a : Nat) (b : Nat) : EncodedLength.Statement (.mmr a b) := ⟨rfl, Nat.le_of_ble_eq_true rfl⟩
theorem EncodedLength.lnd (a : Nat) (b : Nat) : EncodedLength.Statement (.lnd a b) := ⟨rfl, Nat.le_of_ble_eq_true rfl⟩
theorem EncodedLength.lor (a : Nat) (b : Nat) : EncodedLength.Statement (.lor a b) := ⟨rfl, Nat.le_of_ble_eq_true rfl⟩
theorem EncodedLength.lxr (a : Nat) (b : Nat) : EncodedLength.Statement (.lxr a b) := ⟨rfl, Nat.le_of_ble_eq_true rfl⟩
theorem EncodedLength.lbc (a : Nat) (b : Nat) : EncodedLength.Statement (.lbc a b) := ⟨rfl, Nat.le_of_ble_eq_true rfl⟩
theorem EncodedLength.lsl (a : Nat) (b : Byte) : EncodedLength.Statement (.lsl a b) := ⟨rfl, Nat.le_of_ble_eq_true rfl⟩
theorem EncodedLength.lsr (a : Nat) (b : Byte) : EncodedLength.Statement (.lsr a b) := ⟨rfl, Nat.le_of_ble_eq_true rfl⟩
theorem EncodedLength.inc (a : Nat) : EncodedLength.Statement (.inc a) := ⟨rfl, Nat.le_of_ble_eq_true rfl⟩
theorem EncodedLength.dec (a : Nat) : EncodedLength.Statement (.dec a) := ⟨rfl, Nat.le_of_ble_eq_true rfl⟩
theorem EncodedLength.add (a : Nat) (b : Nat) : EncodedLength.Statement (.add a b) := ⟨rfl, Nat.le_of_ble_eq_true rfl⟩
theorem EncodedLength.sub (a : Nat) (b : Nat) : EncodedLength.Statement (.sub a b) := ⟨rfl, Nat.le_of_ble_eq_true rfl⟩
theorem EncodedLength.mul (a : Nat) (b : Nat) : EncodedLength.Statement (.mul a b) := ⟨rfl, Nat.le_of_ble_eq_true rfl⟩
theorem EncodedLength.div (a : Nat) (b : Nat) : EncodedLength.Statement (.div a b) := ⟨rfl, Nat.le_of_ble_eq_true rfl⟩
theorem EncodedLength.jmp (a : Word) : EncodedLength.Statement (.jmp a) := ⟨rfl, Nat.le_of_ble_eq_true rfl⟩
theorem EncodedLength.jeq (a : Nat) (b : Word) : EncodedLength.Statement (.jeq a b) := ⟨rfl, Nat.le_of_ble_eq_true rfl⟩
theorem EncodedLength.jne (a : Nat) (b : Word) : EncodedLength.Statement (.jne a b) := ⟨rfl, Nat.le_of_ble_eq_true rfl⟩
theorem EncodedLength.spl (a : Byte) : EncodedLength.Statement (.spl a) := ⟨rfl, Nat.le_of_ble_eq_true rfl⟩
theorem EncodedLength.spr (a : Nat) : EncodedLength.Statement (.spr a) := ⟨rfl, Nat.le_of_ble_eq_true rfl⟩
theorem EncodedLength.stp (a : Nat) : EncodedLength.Statement (.stp a) := ⟨rfl, Nat.le_of_ble_eq_true rfl⟩
theorem EncodedLength.cll (a : Word) : EncodedLength.Statement (.cll a) := ⟨rfl, Nat.le_of_ble_eq_true rfl⟩
theorem EncodedLength.ret : EncodedLength.Statement (.ret) := ⟨rfl, Nat.le_of_ble_eq_true rfl⟩
theorem EncodedLength.pnt (a : Word) (b : Byte) : EncodedLength.Statement (.pnt a b) := ⟨rfl, Nat.le_of_ble_eq_true rfl⟩
theorem EncodedLength.rin (a : Nat) : EncodedLength.Statement (.rin a) := ⟨rfl, Nat.le_of_ble_eq_true rfl⟩
theorem EncodedLength.hlt : EncodedLength.Statement (.hlt) := ⟨rfl, Nat.le_of_ble_eq_true rfl⟩

end Sys2Proof.Laws
end

