-- ==== Sys2Proof/Laws/Step.lean ====
section
/-! SUPPORT. What a step can do, said once. -/

namespace Sys2Proof.Machine

/-- The bytes a step fetches are a whole instruction, with none left over, or one unknown opcode byte: the decoder never
finds them cut short. -/
theorem State.fetchInstr_decodes (s : State) :
    (∃ i, decode s.fetchInstr.1 = .ok (i, [])) ∨
    (opcodeRow s.fetch.1 = none ∧ s.fetchInstr.1 = [s.fetch.1] ∧
      decode s.fetchInstr.1 = .error (.unknownOpcode s.fetch.1)) := by
  obtain ⟨operands, hb, hlen⟩ := State.fetchInstr_bytes s
  cases hrow : opcodeRow s.fetch.1 with
  | some row =>
    refine .inl ?_
    rw [operandBytes, hrow] at hlen
    obtain ⟨i, hi⟩ := OpcodeRow.assemble_total row operands [] hlen
    exact ⟨i, by rw [hb, decode_cons, hrow]; simpa using hi⟩
  | none =>
    rw [operandBytes, hrow] at hlen
    have h0 : operands = [] := List.length_eq_zero_iff.1 hlen
    subst h0
    exact .inr ⟨rfl, hb, by rw [hb, decode_cons, hrow]⟩

/-- Everything a step that answers a next state can do: it ran the meaning of the instruction it fetched and settled it;
or that instruction waits for input and nothing changed; or the opcode was unknown. -/
theorem step_next_cases {s t : State} (h : step s = .next t) :
    s.status = .running ∧
    ((∃ i u, decode s.fetchInstr.1 = .ok (i, []) ∧ exec i s.fetchInstr.2 = .next u ∧ t = u.endStep) ∨
     (∃ i, decode s.fetchInstr.1 = .ok (i, []) ∧ exec i s.fetchInstr.2 = .fault .awaitingInput ∧ t = s) ∨
     (opcodeRow s.fetch.1 = none ∧ decode s.fetchInstr.1 = .error (.unknownOpcode s.fetch.1) ∧
       t = (s.fetchInstr.2.unknownOpcode s.fetch.1 s.ip).endStep)) := by
  have hrun : s.status = .running := by
    cases hs : s.status <;> simp [step, hs] at h
    rfl
  refine ⟨hrun, ?_⟩
  simp only [step, hrun, runFetched] at h
  rcases State.fetchInstr_decodes s with ⟨i, hd⟩ | ⟨hrow, hb, hd⟩
  · rw [hd] at h
    cases he : exec i s.fetchInstr.2 with
    | next u =>
      simp only [he, State.settle, Host.Outcome.next.injEq] at h
      exact .inl ⟨i, u, hd, he, h.symm⟩
    | fault f =>
      cases f with
      | awaitingInput =>
        simp only [he, State.settle, Host.Outcome.next.injEq] at h
        exact .inr (.inl ⟨i, hd, he, h.symm⟩)
      | notRunning st => simp [he, State.settle] at h
    | refused r => simp [he, State.settle] at h
  · rw [hd] at h
    simp only [hb, List.headD_cons, Host.Outcome.next.injEq] at h
    exact .inr (.inr ⟨hrow, hd, h.symm⟩)

/-- A step from a running state whose bytes decode is the settled meaning. -/
theorem step_of_decode {s : State} {i : Instr} {rest : List Byte} (hs : s.status = .running)
    (hd : decode s.fetchInstr.1 = .ok (i, rest)) : step s = s.settle (exec i s.fetchInstr.2) := by
  simp [step, hs, runFetched, hd]

/-! ### The accesses of a step -/

theorem State.memAccesses_of_next {s u : State} {i : Instr} {rest : List Byte} (hs : s.status = .running)
    (hd : decode s.fetchInstr.1 = .ok (i, rest)) (he : exec i s.fetchInstr.2 = .next u) :
    s.memAccesses = fetchAccesses s.fetchInstr.1.length s.ip ++ dataAccesses i s.fetchInstr.2 := by
  simp [State.memAccesses, hs, hd, he]

theorem State.memAccesses_of_fault {s : State} {i : Instr} {rest : List Byte} {f : Fault}
    (hd : decode s.fetchInstr.1 = .ok (i, rest)) (he : exec i s.fetchInstr.2 = .fault f) : s.memAccesses = [] := by
  cases hs : s.status <;> simp [State.memAccesses, hs, hd, he]

theorem State.memAccesses_of_error {s : State} {e : DecodeError} (hs : s.status = .running)
    (hd : decode s.fetchInstr.1 = .error e) : s.memAccesses = fetchAccesses s.fetchInstr.1.length s.ip := by
  simp [State.memAccesses, hs, hd]

theorem State.memAccesses_of_not_running {s : State} (hs : s.status ≠ .running) : s.memAccesses = [] := by
  cases h : s.status <;> simp_all [State.memAccesses]

/-! ### A run on `INPUT` -/

@[simp] theorem Input.supply_finite (bytes : List Byte) (k : Nat) (s : State) :
    (Input.finite bytes).supply k s = (k, s) := rfl

/-- Everything the environment does before a step of a run on an infinite `INPUT`. -/
theorem Input.supply_cases (byte : Nat → Byte) (k : Nat) (s : State) :
    (s.input.pending = [] ∧
      (Input.infinite byte).supply k s = (k + 1, s.setInput { s.input with pending := [byte k] })) ∨
    (s.input.pending ≠ [] ∧ (Input.infinite byte).supply k s = (k, s)) := by
  by_cases h : s.input.pending = [] <;> simp [Input.supply, State.deliver, h]

/-- What the environment does before a step is to change the input alone. -/
theorem Input.supply_eq (input : Input) (k : Nat) (s : State) :
    (input.supply k s).2 = s.setInput (input.supply k s).2.input := by
  cases input with
  | finite bytes => rfl
  | infinite byte => rcases Input.supply_cases byte k s with ⟨_, h⟩ | ⟨_, h⟩ <;> rw [h] <;> rfl

/-- A run on `INPUT`, one step more: it goes on from a next state, and stays where no step is taken. -/
theorem runOn_succ (input : Input) (n k : Nat) (s : State) :
    (∃ t, step (input.supply k s).2 = .next t ∧ runOn input (n + 1) k s = runOn input n (input.supply k s).1 t) ∨
    ((∀ t, step (input.supply k s).2 ≠ .next t) ∧ runOn input (n + 1) k s = (k, s)) := by
  cases h : step (input.supply k s).2 <;> simp [runOn, h]

end Sys2Proof.Machine
end

