-- ==== Sys2Proof/Tests/Slice0.lean ====
section
/-! SUPPORT. Tests. Expected values come from the spec: the derived one-step vectors of spec/96_test_vectors_derived.md (each
theorem names its vector), the encodings of R82 and R93, and the bounds of the rules. The last part shows, for each
obligation that has hypotheses, a concrete state and operands that meet them, at the edges of each clause's range. -/

open Sys2Proof Sys2Proof.Machine

/-! ### Helpers -/

/-- The vectors' standard start: reset, registers `10` to `17`, the bytes at `0x0000`, input closed. -/
def Tests.start (bytes : List Byte) : State :=
  { State.reset with regs := #v[0x10, 0x11, 0x12, 0x13, 0x14, 0x15, 0x16, 0x17], mem := Memory.load [] 0 bytes }

/-- The standard start with the bytes at another address, and IP there. -/
def Tests.startAt (a : Word) (bytes : List Byte) : State :=
  { Tests.start [] with ip := a, mem := Memory.load [] a bytes }

/-- The registers of the pointer vectors (V41), and of V42, V43 and V44. -/
def Tests.ptrRegs : Vector Byte 8 := #v[0x00, 0x11, 0x20, 0x40, 0x14, 0x15, 0x16, 0xCD]
def Tests.logRegs : Vector Byte 8 := #v[0x5A, 0xCC, 0xAA, 0x0F, 0xF0, 0x81, 0x00, 0xFF]
def Tests.ariRegs : Vector Byte 8 := #v[0x5A, 0xFF, 0x01, 0x80, 0xC8, 0x07, 0x00, 0x03]
def Tests.jmpRegs : Vector Byte 8 := #v[0x5A, 0x5A, 0x5B, 0x00, 0x14, 0x15, 0x16, 0x17]

/-- The result is a next state of which `p` holds. -/
def Tests.ends (r : Result) (p : State → Bool) : Bool :=
  match r with
  | .next t => p t
  | .fault _ => false
  | .refused _ => false

/-- A clean end: `RUNNING`, no error, IP as given. -/
def Tests.clean (t : State) (ip : Word) : Bool := t.err == [] && t.status == .running && t.ip == ip

/-- A fault with these records, IP as given. -/
def Tests.faulted (t : State) (ip : Word) (es : List ErrorRecord) : Bool :=
  t.err == es && t.status == .faulted && t.ip == ip

def Tests.badReg (i : Nat) : ErrorRecord := { code := .invalidRegister, info0 := BitVec.ofNat 16 i, info1 := 0 }
def Tests.plain (c : ErrorCode) : ErrorRecord := { code := c, info0 := 0, info1 := 0 }

/-- A `RET` at `0x0200` and the frame of V45-22 below `0xFF0C`. -/
def Tests.retMem : Memory :=
  Memory.load (Memory.load [] 0x0200 [0x84]) 0xFF03 [0x03, 0xA2, 0xA3, 0xA4, 0xA5, 0xA6, 0xA7, 0x00, 0x13]

open Tests

/-! ### Well-formedness: each operand shape refuses an index that no byte holds -/

theorem test_illformed_mlr : Instr.wellFormed (.mlr 0 256) = false := by decide
theorem test_illformed_mrr_first : Instr.wellFormed (.mrr 256 0) = false := by decide
theorem test_illformed_mrr_second : Instr.wellFormed (.mrr 0 256) = false := by decide
theorem test_illformed_mlm : Instr.wellFormed (.mlm 0 256) = false := by decide
theorem test_illformed_mrm : Instr.wellFormed (.mrm 0 256) = false := by decide
theorem test_illformed_mmr : Instr.wellFormed (.mmr 256 0) = false := by decide
theorem test_illformed_lnd : Instr.wellFormed (.lnd 256 0) = false := by decide
theorem test_illformed_lor : Instr.wellFormed (.lor 0 256) = false := by decide
theorem test_illformed_lxr : Instr.wellFormed (.lxr 256 0) = false := by decide
theorem test_illformed_lbc : Instr.wellFormed (.lbc 0 256) = false := by decide
theorem test_illformed_lsl : Instr.wellFormed (.lsl 256 0) = false := by decide
theorem test_illformed_lsr : Instr.wellFormed (.lsr 256 0) = false := by decide
theorem test_illformed_inc : Instr.wellFormed (.inc 256) = false := by decide
theorem test_illformed_dec : Instr.wellFormed (.dec 256) = false := by decide
theorem test_illformed_add : Instr.wellFormed (.add 256 0) = false := by decide
theorem test_illformed_sub : Instr.wellFormed (.sub 0 256) = false := by decide
theorem test_illformed_mul : Instr.wellFormed (.mul 256 0) = false := by decide
theorem test_illformed_div : Instr.wellFormed (.div 0 256) = false := by decide
theorem test_illformed_jeq : Instr.wellFormed (.jeq 256 0) = false := by decide
theorem test_illformed_jne : Instr.wellFormed (.jne 256 0) = false := by decide
theorem test_illformed_spr : Instr.wellFormed (.spr 256) = false := by decide
theorem test_illformed_stp : Instr.wellFormed (.stp 256) = false := by decide
theorem test_illformed_rin : Instr.wellFormed (.rin 256) = false := by decide
theorem test_wellformed_edge : Instr.wellFormed (.mrm 255 255) = true ∧ Instr.registersExist (.mrm 7 6) = true ∧
    Instr.registersExist (.mrm 7 7) = false := by decide

/-! ### Decoding: every constructor from bytes written out from R82, R83, R84 and R93 -/

theorem test_decode_nop : decode [0x00, 0xAB] = .ok (.nop, [0xAB]) := rfl
theorem test_decode_mlr : decode [0x01, 0x2A, 0x03, 0xAB] = .ok (.mlr 0x2A 3, [0xAB]) := rfl
theorem test_decode_mrr : decode [0x02, 0x01, 0x05, 0xAB] = .ok (.mrr 1 5, [0xAB]) := rfl
theorem test_decode_mlm : decode [0x03, 0x77, 0x02, 0xAB] = .ok (.mlm 0x77 2, [0xAB]) := rfl
theorem test_decode_mrm : decode [0x04, 0x01, 0x02, 0xAB] = .ok (.mrm 1 2, [0xAB]) := rfl
theorem test_decode_mmr : decode [0x05, 0x02, 0x05, 0xAB] = .ok (.mmr 2 5, [0xAB]) := rfl
theorem test_decode_lnd : decode [0x20, 0x01, 0x02, 0xAB] = .ok (.lnd 1 2, [0xAB]) := rfl
theorem test_decode_lor : decode [0x21, 0x03, 0x04, 0xAB] = .ok (.lor 3 4, [0xAB]) := rfl
theorem test_decode_lxr : decode [0x22, 0x08, 0x09, 0xAB] = .ok (.lxr 8 9, [0xAB]) := rfl
theorem test_decode_lbc : decode [0x23, 0x02, 0x01, 0xAB] = .ok (.lbc 2 1, [0xAB]) := rfl
theorem test_decode_lsl : decode [0x24, 0x05, 0x03, 0xAB] = .ok (.lsl 5 3, [0xAB]) := rfl
theorem test_decode_lsr : decode [0x25, 0x07, 0x04, 0xAB] = .ok (.lsr 7 4, [0xAB]) := rfl
theorem test_decode_inc : decode [0x40, 0x03, 0xAB] = .ok (.inc 3, [0xAB]) := rfl
theorem test_decode_dec : decode [0x41, 0xFF, 0xAB] = .ok (.dec 255, [0xAB]) := rfl
theorem test_decode_add : decode [0x42, 0x04, 0x05, 0xAB] = .ok (.add 4 5, [0xAB]) := rfl
theorem test_decode_sub : decode [0x43, 0x02, 0x01, 0xAB] = .ok (.sub 2 1, [0xAB]) := rfl
theorem test_decode_mul : decode [0x44, 0x03, 0x07, 0xAB] = .ok (.mul 3 7, [0xAB]) := rfl
theorem test_decode_div : decode [0x45, 0x01, 0x02, 0xAB] = .ok (.div 1 2, [0xAB]) := rfl
theorem test_decode_jmp : decode [0x60, 0x12, 0x34, 0xAB] = .ok (.jmp 0x1234, [0xAB]) := rfl
theorem test_decode_jeq : decode [0x61, 0x01, 0x12, 0x34, 0xAB] = .ok (.jeq 1 0x1234, [0xAB]) := rfl
theorem test_decode_jne : decode [0x62, 0x02, 0x12, 0x34, 0xAB] = .ok (.jne 2 0x1234, [0xAB]) := rfl
theorem test_decode_spl : decode [0x80, 0x7E, 0xAB] = .ok (.spl 0x7E, [0xAB]) := rfl
theorem test_decode_spr : decode [0x81, 0x03, 0xAB] = .ok (.spr 3, [0xAB]) := rfl
theorem test_decode_stp : decode [0x82, 0x04, 0xAB] = .ok (.stp 4, [0xAB]) := rfl
theorem test_decode_cll : decode [0x83, 0x02, 0x00, 0xAB] = .ok (.cll 0x0200, [0xAB]) := rfl
theorem test_decode_ret : decode [0x84, 0xAB] = .ok (.ret, [0xAB]) := rfl
theorem test_decode_pnt : decode [0xE0, 0x00, 0x06, 0x05, 0xAB] = .ok (.pnt 0x0006 5, [0xAB]) := rfl
theorem test_decode_rin : decode [0xE1, 0x02, 0xAB] = .ok (.rin 2, [0xAB]) := rfl
theorem test_decode_hlt : decode [0xFF, 0xAB] = .ok (.hlt, [0xAB]) := rfl
theorem test_decode_unknown : decode [0x06, 0x01] = .error (.unknownOpcode 0x06) := rfl
theorem test_decode_truncated : decode [0x61, 0x01, 0x12] = .error .truncated := rfl
/-- The table's numbering: `61 01 12 34` is the number `0x34120161` of 32 bits; `0x06` is no opcode. -/
theorem test_table_word : decodeTableWord 32 0x34120161 = some (.jeq 1 0x1234) ∧ decodeTableWord 8 0x06 = none := ⟨rfl, rfl⟩
theorem test_fetch_word : step (State.reset.withFetchWord 24 0x032A01) =
    .next (((State.reset.withFetchWord 24 0x032A01).setIp 3).setX 3 0x2A) := rfl

/-! ### One step of each instruction -/

/-- V40-1. -/
theorem test_nop : ends (step (start [0x00])) (fun t => clean t 1 && t.regs == (start []).regs) = true := by decide
/-- V40-3. -/
theorem test_unknown : ends (step (startAt 0x1234 [0x85])) (fun t => faulted t 0x1235 [⟨.unknownOpcode, 0x85, 0x1234⟩]) = true := by decide
/-- V40-7. -/
theorem test_fetch_refused : ends (step (startAt 0xFFFE [0x01, 0x2A, 0x03])) (fun t => faulted t 1 [plain .ipOutOfBounds] && t.x 3 == 0) = true := by decide
/-- V41-1. -/
theorem test_mlr : ends (step (start [0x01, 0x2A, 0x03])) (fun t => clean t 3 && t.x 3 == 0x2A) = true := by decide
/-- V41-4. -/
theorem test_mlr_invalid : ends (step (start [0x01, 0x2A, 0x08])) (fun t => faulted t 3 [badReg 8] && t.regs == (start []).regs) = true := by decide
/-- V41-5. -/
theorem test_mrr : ends (step (start [0x02, 0x01, 0x05])) (fun t => clean t 3 && t.x 5 == 0x11 && t.x 1 == 0x11) = true := by decide
/-- V41-9. -/
theorem test_mrr_invalid : ends (step (start [0x02, 0x09, 0x08])) (fun t => faulted t 3 [badReg 9, badReg 8] && t.regs == (start []).regs) = true := by decide
/-- V41-10. -/
theorem test_mlm : ends (step { start [0x03, 0x77, 0x02] with regs := ptrRegs }) (fun t => clean t 3 && t.memRead 0x2040 == 0x77) = true := by decide
/-- V41-12. -/
theorem test_mlm_pair_end : ends (step { start [0x03, 0x77, 0x07] with regs := ptrRegs }) (fun t => faulted t 3 [badReg 8] && t.memRead 0xCD00 == 0x77) = true := by decide
/-- V41-16. -/
theorem test_mrm : ends (step { start [0x04, 0x01, 0x02] with regs := ptrRegs }) (fun t => clean t 3 && t.memRead 0x2040 == 0x11) = true := by decide
/-- V41-20. -/
theorem test_mrm_invalid : ends (step { start [0x04, 0x08, 0x08] with regs := ptrRegs }) (fun t => faulted t 3 [badReg 8, badReg 8, badReg 9] && t.memRead 0 == 0) = true := by decide
/-- V41-22. -/
theorem test_mmr : ends (step { start [] with regs := ptrRegs, mem := Memory.load (Memory.load [] 0 [0x05, 0x02, 0x02]) 0x2040 [0x99] }) (fun t => clean t 3 && t.x 2 == 0x99 && t.x 3 == 0x40) = true := by decide
/-- V41-26. -/
theorem test_mmr_invalid : ends (step { start [0x05, 0x08, 0x01] with regs := ptrRegs }) (fun t => faulted t 3 [badReg 8, badReg 9] && t.x 1 == 0x05) = true := by decide
/-- V42-1. -/
theorem test_lnd : ends (step { start [0x20, 0x01, 0x02] with regs := logRegs }) (fun t => clean t 3 && t.x 0 == 0x88 && t.x 1 == 0xCC) = true := by decide
/-- V42-13. -/
theorem test_lnd_invalid : ends (step { start [0x20, 0x08, 0x01] with regs := logRegs }) (fun t => faulted t 3 [badReg 8] && t.x 0 == 0) = true := by decide
/-- V42-2. -/
theorem test_lor : ends (step { start [0x21, 0x01, 0x02] with regs := logRegs }) (fun t => clean t 3 && t.x 0 == 0xEE) = true := by decide
/-- V42-3. -/
theorem test_lxr : ends (step { start [0x22, 0x01, 0x02] with regs := logRegs }) (fun t => clean t 3 && t.x 0 == 0x66) = true := by decide
/-- V42-5. -/
theorem test_lbc : ends (step { start [0x23, 0x02, 0x01] with regs := logRegs }) (fun t => clean t 3 && t.x 0 == 0x22) = true := by decide
/-- V42-14. -/
theorem test_lbc_invalid : ends (step { start [0x23, 0x01, 0x08] with regs := logRegs }) (fun t => faulted t 3 [badReg 8] && t.x 0 == 0xCC) = true := by decide
/-- V42-18. -/
theorem test_lsl : ends (step { start [0x24, 0x05, 0x03] with regs := logRegs }) (fun t => clean t 3 && t.x 0 == 0x08 && t.x 5 == 0x81) = true := by decide
/-- V42-20. -/
theorem test_lsl_by_8 : ends (step { start [0x24, 0x05, 0x08] with regs := logRegs }) (fun t => clean t 3 && t.x 0 == 0) = true := by decide
/-- V42-25. -/
theorem test_lsr : ends (step { start [0x25, 0x05, 0x03] with regs := logRegs }) (fun t => clean t 3 && t.x 0 == 0x10) = true := by decide
/-- V42-28. -/
theorem test_lsr_by_9 : ends (step { start [0x25, 0x05, 0x09] with regs := logRegs }) (fun t => clean t 3 && t.x 0 == 0) = true := by decide
/-- V43-2. -/
theorem test_inc_wraps : ends (step { start [0x40, 0x01] with regs := ariRegs }) (fun t => clean t 2 && t.x 1 == 0 && t.x 0 == 0x5A) = true := by decide
/-- V43-4. -/
theorem test_inc_invalid : ends (step { start [0x40, 0x08] with regs := ariRegs }) (fun t => faulted t 2 [badReg 8, badReg 8] && t.regs == ariRegs) = true := by decide
/-- V43-5. -/
theorem test_dec_wraps : ends (step { start [0x41, 0x06] with regs := ariRegs }) (fun t => clean t 2 && t.x 6 == 0xFF && t.x 0 == 0x5A) = true := by decide
/-- V43-8. -/
theorem test_dec_invalid : ends (step { start [0x41, 0xFF] with regs := ariRegs }) (fun t => faulted t 2 [badReg 255, badReg 255] && t.regs == ariRegs) = true := by decide
/-- V43-11. -/
theorem test_add : ends (step { start [0x42, 0x04, 0x05] with regs := ariRegs }) (fun t => clean t 3 && t.x 0 == 0xCF) = true := by decide
/-- V43-13. -/
theorem test_add_wraps : ends (step { start [0x42, 0x01, 0x01] with regs := ariRegs }) (fun t => clean t 3 && t.x 0 == 0xFE) = true := by decide
/-- V43-15. -/
theorem test_sub : ends (step { start [0x43, 0x04, 0x05] with regs := ariRegs }) (fun t => clean t 3 && t.x 0 == 0xC1) = true := by decide
/-- V43-16. -/
theorem test_sub_wraps : ends (step { start [0x43, 0x05, 0x04] with regs := ariRegs }) (fun t => clean t 3 && t.x 0 == 0x3F) = true := by decide
/-- V43-21. -/
theorem test_mul : ends (step { start [0x44, 0x04, 0x05] with regs := ariRegs }) (fun t => clean t 3 && t.x 0 == 0x78) = true := by decide
/-- V43-27. -/
theorem test_div : ends (step { start [0x45, 0x04, 0x05] with regs := ariRegs }) (fun t => clean t 3 && t.x 0 == 0x1C) = true := by decide
/-- V43-37. -/
theorem test_div_by_zero : ends (step { start [0x45, 0x08, 0x09] with regs := ariRegs }) (fun t => faulted t 3 [badReg 8, badReg 9, plain .divideByZero] && t.x 0 == 0x5A) = true := by decide
/-- V44-1. -/
theorem test_jmp : ends (step { start [0x60, 0x12, 0x34] with regs := jmpRegs }) (fun t => clean t 0x1234) = true := by decide
/-- V44-6. -/
theorem test_jmp_fetch_refused : ends (step { startAt 0xFFFE [0x60, 0x12, 0x34] with regs := jmpRegs }) (fun t => faulted t 0x0034 [plain .ipOutOfBounds]) = true := by decide
/-- V44-7. -/
theorem test_jeq_taken : ends (step { start [0x61, 0x01, 0x12, 0x34] with regs := jmpRegs }) (fun t => clean t 0x1234) = true := by decide
/-- V44-8. -/
theorem test_jeq_not_taken : ends (step { start [0x61, 0x02, 0x12, 0x34] with regs := jmpRegs }) (fun t => clean t 4) = true := by decide
/-- V44-12. -/
theorem test_jne_taken : ends (step { start [0x62, 0x02, 0x12, 0x34] with regs := jmpRegs }) (fun t => clean t 0x1234) = true := by decide
/-- V44-13. -/
theorem test_jne_not_taken : ends (step { start [0x62, 0x01, 0x12, 0x34] with regs := jmpRegs }) (fun t => clean t 4) = true := by decide
/-- V45-1. -/
theorem test_spl : ends (step (start [0x80, 0x7E])) (fun t => clean t 2 && t.sp == 0xFF01 && t.fs == 1 && t.memRead 0xFF00 == 0x7E) = true := by decide
/-- V45-4. -/
theorem test_spl_frame_full : ends (step { start [0x80, 0x7E] with sp := 0xFE00, fs := 0xFF }) (fun t => faulted t 2 [plain .frameTooLarge] && t.sp == 0xFE01 && t.fs == 0 && t.memRead 0xFE00 == 0x7E) = true := by decide
/-- V45-6. -/
theorem test_spr : ends (step (start [0x81, 0x03])) (fun t => clean t 2 && t.sp == 0xFF01 && t.fs == 1 && t.memRead 0xFF00 == 0x13) = true := by decide
/-- V45-8. -/
theorem test_spr_refused : ends (step { start [0x81, 0x08] with sp := 0xFFFF, fs := 0x10 }) (fun t => faulted t 2 [badReg 8, plain .stackOverflow] && t.sp == 0xFFFF && t.fs == 0x10) = true := by decide
/-- V45-9. -/
theorem test_stp : ends (step { start [] with sp := 0xFF01, fs := 1, mem := Memory.load (Memory.load [] 0 [0x82, 0x04]) 0xFF00 [0xA5] }) (fun t => clean t 2 && t.x 4 == 0xA5 && t.sp == 0xFF00 && t.fs == 0) = true := by decide
/-- V45-15. -/
theorem test_stp_refused : ends (step (start [0x82, 0x08])) (fun t => faulted t 2 [plain .stackUnderflow] && t.sp == 0xFF00 && t.fs == 0) = true := by decide
/-- V45-17. -/
theorem test_cll : ends (step { startAt 0x0010 [0x83, 0x02, 0x00] with sp := 0xFF03, fs := 3 }) (fun t => clean t 0x0200 && t.sp == 0xFF0C && t.fs == 0 &&
      t.mem.drop 2 == Memory.load [] 0xFF03 [0x03, 0x12, 0x13, 0x14, 0x15, 0x16, 0x17, 0x00, 0x13]) = true := by decide
/-- V45-18. -/
theorem test_cll_half_refused : ends (step { startAt 0x0010 [0x83, 0x02, 0x00] with sp := 0xFFFA, fs := 3 }) (fun t => faulted t 0x0200 (List.replicate 4 (plain .stackOverflow)) && t.sp == 0xFFFF && t.fs == 0 &&
      t.mem.drop 2 == Memory.load [] 0xFFFA [0x03, 0x12, 0x13, 0x14, 0x15]) = true := by decide
/-- V45-23. -/
theorem test_ret : ends (step { start [] with ip := 0x0200, sp := 0xFF0E, fs := 2, mem := retMem }) (fun t => clean t 0x0013 && t.sp == 0xFF03 && t.fs == 3 &&
      t.regs == #v[0x10, 0x11, 0xA2, 0xA3, 0xA4, 0xA5, 0xA6, 0xA7]) = true := by decide
/-- V45-21. -/
theorem test_ret_from_reset : ends (step (start [0x84])) (fun t => clean t 0 && t.sp == 0xFEF7 && t.regs == #v[0x10, 0x11, 0, 0, 0, 0, 0, 0]) = true := by decide
/-- V46-1. -/
theorem test_pnt : ends (step (start [0xE0, 0x00, 0x06, 0x05, 0xFF, 0x00, 0x48, 0x65, 0x6C, 0x6C, 0x6F])) (fun t => clean t 4 &&
      t.output == [.byte 0x48, .byte 0x65, .byte 0x6C, .byte 0x6C, .byte 0x6F, .flush]) = true := by decide
/-- V46-2. -/
theorem test_pnt_nothing : ends (step (start [0xE0, 0x00, 0x06, 0x00])) (fun t => clean t 4 && t.output == [.flush]) = true := by decide
/-- V46-6. -/
theorem test_rin : ends (step { start [0xE1, 0x02] with input := ⟨[0x41, 0x42], .fails⟩ }) (fun t => clean t 2 && t.x 2 == 0x41 && t.input == ⟨[0x42], .fails⟩) = true := by decide
/-- V46-9; the byte written is free, so it is not looked at. -/
theorem test_rin_fails : ends (step (start [0xE1, 0x02])) (fun t => faulted t 2 [plain .readInput] && t.x 3 == 0x13) = true := by decide
/-- V47-3. -/
theorem test_hlt : ends (step { start [0xFF] with sp := 0xFF05, fs := 5 }) (fun t => t.status == .halted && t.ip == 1 && t.err == [] && t.sp == 0xFF05 && t.fs == 5) = true := by decide

/-! ### The hypotheses of each obligation are met -/

/-- `RunsAs`: for each encoding, a running machine that fetches exactly those bytes. -/
theorem test_witness_RunsAs :
    ([[0x00], [0x01, 0xFF, 0xFF], [0x02, 0xFF, 0x00], [0x03, 0x77, 0xFF], [0x04, 0x08, 0x07], [0x05, 0xFF, 0x08],
      [0x20, 0xFF, 0x00], [0x21, 0x00, 0xFF], [0x22, 0x08, 0x07], [0x23, 0x07, 0x08], [0x24, 0x00, 0xFF],
      [0x25, 0xFF, 0x08], [0x40, 0xFF], [0x41, 0x08], [0x42, 0x07, 0x08], [0x43, 0xFF, 0xFF], [0x44, 0x00, 0x00],
      [0x45, 0x08, 0x09], [0x60, 0xFF, 0xFF], [0x61, 0xFF, 0x00, 0xFF], [0x62, 0x00, 0xFF, 0x00], [0x80, 0xFF],
      [0x81, 0xFF], [0x82, 0x08], [0x83, 0xFF, 0xFF], [0x84], [0xE0, 0xFF, 0xFE, 0xFF], [0xE1, 0xFF],
      [0xFF]] : List (List Byte)).all
      (fun bytes => (start bytes).status == .running && (start bytes).fetchInstr.1 == bytes) = true := by decide

theorem test_witness_DecodeInvertsEncode :
    Instr.wellFormed (.mrm 255 0) = true ∧ Instr.wellFormed (.jeq 255 0xFFFF) = true ∧ Instr.wellFormed .ret = true := by
  decide

theorem test_witness_EncodeInvertsDecode : decode [0x04, 0xFF, 0x00, 0x11] = .ok (.mrm 255 0, [0x11]) := rfl

/-- Both clauses: an instruction that completes, and a `RIN` whose read is unanswered. -/
theorem test_witness_StepRunsFetchedInstruction :
    (start [0x40, 0x01]).status = .running ∧ decode (start [0x40, 0x01]).fetchInstr.1 = .ok (.inc 1, []) ∧
    (∃ t, exec (.inc 1) (start [0x40, 0x01]).fetchInstr.2 = .next t) ∧
    decode ((start [0xE1, 0x01]).setInput ⟨[], .silent⟩).fetchInstr.1 = .ok (.rin 1, []) ∧
    exec (.rin 1) ((start [0xE1, 0x01]).setInput ⟨[], .silent⟩).fetchInstr.2 = .fault .awaitingInput :=
  ⟨rfl, rfl, ⟨_, rfl⟩, rfl, rfl⟩

/-- The highest place: an instruction whose last byte is at `0xFFFE`. -/
theorem test_witness_StepRunsInstructionAtIp :
    (startAt 0xFFFC [0x01, 0x2A, 0x03]).status = .running ∧ Instr.wellFormed (.mlr 0x2A 3) = true ∧
    (startAt 0xFFFC [0x01, 0x2A, 0x03]).ip.toNat + (encode (.mlr 0x2A 3)).length = 0xFFFF ∧
    (∀ k (h : k < (encode (.mlr 0x2A 3)).length),
      (startAt 0xFFFC [0x01, 0x2A, 0x03]).memRead ((startAt 0xFFFC [0x01, 0x2A, 0x03]).ip + BitVec.ofNat 16 k) =
        (encode (.mlr 0x2A 3))[k]) ∧
    exec (.rin 1) (((start [0xE1, 0x01]).setInput ⟨[], .silent⟩).setIp 2) = .fault .awaitingInput := by
  refine ⟨rfl, rfl, rfl, fun k h => ?_, rfl⟩
  have h3 : k < 3 := h
  interval_cases k <;> rfl

theorem test_witness_FetchAdvancesOrIsRefused :
    (startAt 0xFFFE []).ip ≠ 0xFFFF ∧ (startAt 0x0000 []).ip ≠ 0xFFFF ∧ (startAt 0xFFFF []).ip = 0xFFFF := by decide

theorem test_witness_UnknownOpcodeFaults :
    (startAt 0xFFFE [0xFE]).status = .running ∧ (startAt 0xFFFE [0xFE]).err = [] ∧ (startAt 0xFFFE [0xFE]).ip ≠ 0xFFFF ∧
    (startAt 0xFFFE [0xFE]).memRead (startAt 0xFFFE [0xFE]).ip = 0xFE ∧ (0xFE#8).toNat ∉ definedOpcodes := by decide

theorem test_witness_StepAtTopOfMemoryFaults :
    (startAt 0xFFFF [0xFF]).status = .running ∧ (startAt 0xFFFF [0xFF]).err = [] ∧ (startAt 0xFFFF [0xFF]).ip = 0xFFFF := by
  decide

/-- Both terminal states, at memory that holds an instruction which would store. -/
theorem test_witness_TerminalStatesAreFinal :
    ((start [0x80, 0x7E]).setStatus .halted).status ≠ .running ∧ ((start [0x80, 0x7E]).setStatus .faulted).status ≠ .running ∧
    ((start [0x80, 0x7E]).setStatus .halted).memAccesses = [] ∧ ((start [0x80, 0x7E]).setStatus .faulted).memAccesses = [] ∧
    (start [0x80, 0x7E]).memAccesses ≠ [] := by decide

/-- The three ends: a fault, a halt, a step that goes on. -/
theorem test_witness_StepHasOneOutcome :
    ((start [0x06]).status = .running ∧ (start [0x06]).err = [] ∧ ends (step (start [0x06])) (fun t => t.err != []) = true) ∧
    (decode (start [0xFF]).fetchInstr.1 = .ok (.hlt, []) ∧ ends (step (start [0xFF])) (fun t => t.err == []) = true) ∧
    (decode (start [0x00]).fetchInstr.1 = .ok (.nop, []) ∧ ends (step (start [0x00])) (fun t => t.err == []) = true) :=
  ⟨⟨rfl, rfl, by decide⟩, ⟨rfl, by decide⟩, ⟨rfl, by decide⟩⟩

/-- Both clauses where they meet: a two-byte instruction at `0xFFFD` ends at `0xFFFF`, one at `0xFFFE` wraps. -/
theorem test_witness_IpAdvancesByLength :
    (startAt 0xFFFD [0x40, 0x01]).status = .running ∧
    decode (startAt 0xFFFD [0x40, 0x01]).fetchInstr.1 = .ok (.inc 1, []) ∧
    (startAt 0xFFFD [0x40, 0x01]).ip.toNat + (1 + operandBytes (Instr.inc 1).opcode) < 65536 ∧
    decode (startAt 0xFFFE [0x40, 0x01]).fetchInstr.1 = .ok (.inc 0, []) ∧
    65536 ≤ (startAt 0xFFFE [0x40, 0x01]).ip.toNat + (1 + operandBytes (Instr.inc 0).opcode) ∧
    (∀ a, Instr.inc 1 ≠ .jmp a) ∧ (∀ a, Instr.inc 1 ≠ .cll a) ∧ Instr.inc 1 ≠ .ret ∧
    (decode (start [0x61, 0x02, 0x12, 0x34]).fetchInstr.1 = .ok (.jeq 2 0x1234, []) ∧
      (start [0x61, 0x02, 0x12, 0x34]).x 0 ≠ (start [0x61, 0x02, 0x12, 0x34]).regVal 2) ∧
    (decode (start [0x62, 0x00, 0x12, 0x34]).fetchInstr.1 = .ok (.jne 0 0x1234, []) ∧
      (start [0x62, 0x00, 0x12, 0x34]).x 0 = (start [0x62, 0x00, 0x12, 0x34]).regVal 0) ∧
    (decode (start [0xE1, 0x02]).fetchInstr.1 = .ok (.rin 2, []) ∧ ¬ (start [0xE1, 0x02]).Waits) := by
  refine ⟨rfl, rfl, by decide, rfl, by decide, by simp, by simp, by simp, ⟨rfl, by decide⟩, ⟨rfl, by decide⟩, rfl, ?_⟩
  simp [State.Waits, start, State.reset]

theorem test_witness_ErrorListIsMonotonic :
    (∃ t, Reaches (start [0x06]) t ∧ t.Inv ∧ t.err ≠ []) ∧ Reaches (start [0x06]) (start [0x06]) ∧
    (∃ s : State, s = ((start []).setErr [badReg 8]).setStatus .faulted ∧ s.Inv ∧ s.err ≠ []) :=
  ⟨⟨_, .step .refl rfl, by unfold State.Inv; decide, by decide⟩, .refl, ⟨_, rfl, by unfold State.Inv; decide, by decide⟩⟩

theorem test_witness_StepKeepsInvariant :
    (start [0x83, 0x02, 0x00]).Inv ∧ (∃ t, step (start [0x83, 0x02, 0x00]) = .next t) ∧
    (startAt 0xFFFF []).Inv ∧ (∃ t, step (startAt 0xFFFF []) = .next t ∧ t.err ≠ []) :=
  ⟨by unfold State.Inv; decide, ⟨_, rfl⟩, by unfold State.Inv; decide, ⟨_, rfl, by decide⟩⟩

theorem test_witness_ResetMeetsInvariant :
    Memory.wf [(0x0000, 0x01), (0xFFFF, 0xFF)] = true ∧ (start [0x01, 0x2A, 0x03]).mem.wf = true := by decide

/-- The second clause at a memory that differs from the machine's in a byte the step does not read. -/
theorem test_witness_MemoryFollowsThePort :
    (∃ t, step (start [0x80, 0x7E]) = .next t) ∧
    (start [0x80, 0x7E]).memAccesses = [.read 0, .read 1, .write 0xFF00 0x7E] ∧
    (∀ r, decode (start [0x80, 0x7E]).fetchInstr.1 = .ok (.rin r, []) → ¬ (start [0x80, 0x7E]).Waits) ∧
    (∀ a, MemAccess.read a ∈ (start [0x80, 0x7E]).memAccesses →
      Memory.read [(0, 0x80), (1, 0x7E), (2, 0x55)] a.toNat = (start [0x80, 0x7E]).memRead a) := by
  refine ⟨⟨_, rfl⟩, by decide, fun r h => ?_, fun a h => ?_⟩
  · have h' : (Except.ok (Instr.spl 0x7E, []) : Except DecodeError (Instr × List Byte)) = .ok (.rin r, []) := h
    simp at h'
  · have h' : MemAccess.read a ∈ [MemAccess.read 0, .read 1, .write 0xFF00 0x7E] := h
    simp only [List.mem_cons, MemAccess.read.injEq, reduceCtorEq, List.not_mem_nil, or_false] at h'
    rcases h' with rfl | rfl <;> rfl

/-- Each clause, the first on both sides of its bound, for the most bytes an instruction has. -/
theorem test_witness_MemoryAccessCounts :
    ((startAt 0xFFFB [0x61, 0x02, 0x12, 0x34]).status = .running ∧
      decode (startAt 0xFFFB [0x61, 0x02, 0x12, 0x34]).fetchInstr.1 = .ok (.jeq 2 0x1234, []) ∧
      (startAt 0xFFFB [0x61, 0x02, 0x12, 0x34]).memAccesses.length = 4) ∧
    (decode (startAt 0xFFFC [0x61, 0x02, 0x12, 0x34]).fetchInstr.1 = .ok (.jeq 2 0x1200, []) ∧
      (startAt 0xFFFC [0x61, 0x02, 0x12, 0x34]).memAccesses.length = 3) ∧
    (decode (startAt 0xFFFE [0x06]).fetchInstr.1 = .error (.unknownOpcode 0x06)) ∧
    (decode ((start [0xE1, 0x01]).setInput ⟨[], .silent⟩).fetchInstr.1 = .ok (.rin 1, []) ∧
      ((start [0xE1, 0x01]).setInput ⟨[], .silent⟩).Waits) ∧
    (State.reset.setStatus .halted).status ≠ .running :=
  ⟨⟨rfl, rfl, by decide⟩, ⟨rfl, by decide⟩, rfl, ⟨rfl, rfl, rfl⟩, by decide⟩

theorem test_witness_OnlyPntWritesOutput :
    (∃ t, step (start [0xE0, 0x00, 0x00, 0x01]) = .next t ∧ t.output = [.byte 0xE0, .flush]) ∧
    (∃ t, step (start [0x00]) = .next t) ∧ (∀ a len, decode (start [0x00]).fetchInstr.1 ≠ .ok (.pnt a len, [])) := by
  refine ⟨⟨_, rfl, by decide⟩, ⟨_, rfl⟩, fun a len h => ?_⟩
  have h' : (Except.ok (Instr.nop, []) : Except DecodeError (Instr × List Byte)) = .ok (.pnt a len, []) := h
  simp at h'

theorem test_witness_OutputIsNeverRead :
    ∃ t, step ((start [0xE0, 0x00, 0x00, 0x01]).setOutput [.flush]) = .next t := ⟨_, rfl⟩

theorem test_witness_OnlyRinReadsInput :
    (∃ t, step ((start [0xE1, 0x02]).setInput ⟨[0x41], .silent⟩) = .next t ∧ t.input.pending = []) ∧
    (∃ t, step (start [0xE1, 0x02]) = .next t ∧ t.failedReads = 1) ∧
    (∃ t, step (start [0x00]) = .next t) ∧ (∀ r, decode (start [0x00]).fetchInstr.1 ≠ .ok (.rin r, [])) := by
  refine ⟨⟨_, rfl, by decide⟩, ⟨_, rfl, rfl⟩, ⟨_, rfl⟩, fun r h => ?_⟩
  have h' : (Except.ok (Instr.nop, []) : Except DecodeError (Instr × List Byte)) = .ok (.rin r, []) := h
  simp at h'

theorem test_witness_RegistersWrittenAsTabled :
    (∃ t, exec .ret (start []) = .next t) ∧ 1 ∉ Instr.ret.writesReg ∧
    (∃ t, exec (.add 4 5) (start []) = .next t) ∧ 4 ∉ (Instr.add 4 5).writesReg := ⟨⟨_, rfl⟩, by decide, ⟨_, rfl⟩, by decide⟩

theorem test_witness_ControlStateWrittenAsTabled :
    (∃ t, exec (.jmp 7) (start []) = .next t) ∧ (Instr.jmp 7).usesStack = false ∧ Instr.jmp 7 ≠ .hlt ∧
    (∃ t, exec (.spl 7) (start []) = .next t) ∧ (Instr.spl 7).writesIp = false :=
  ⟨⟨_, rfl⟩, rfl, by simp, ⟨_, rfl⟩, rfl⟩

theorem test_witness_MemoryWrittenAsTabled :
    (∃ t, exec .ret (start []) = .next t) ∧ Instr.ret.writesMemory = false := ⟨⟨_, rfl⟩, rfl⟩

/-- The one guard, at a `RIN` with a byte waiting and at one that fails. -/
theorem test_witness_EveryInstructionCompletes :
    (∀ r, Instr.rin 2 = .rin r → ¬ ((start []).setInput ⟨[0x00], .silent⟩).Waits) ∧
    (∀ r, Instr.rin 2 = .rin r → ¬ (start []).Waits) ∧ (∀ r, Instr.hlt = .rin r → ¬ (start []).Waits) := by
  refine ⟨fun _ _ => ?_, fun _ _ => ?_, fun r h => ?_⟩
  · simp [State.Waits]
  · simp [State.Waits, start, State.reset]
  · simp at h

theorem test_witness_ExistingRegistersRaiseNoRegisterError :
    ∃ t, exec (.mlm 0x77 6) ((start []).setErr [badReg 8]) = .next t ∧ (Instr.mlm 0x77 6).registersExist = true ∧
      badReg 8 ∈ t.err ∧ (badReg 8).code = .invalidRegister := ⟨_, rfl, rfl, by decide, rfl⟩

/-- Three errors are reached by `MRM`, and ten by the `CLL` of V45-26. -/
theorem test_witness_ErrorsOfAStepAreBounded :
    ((start [0x04, 0x08, 0x08]).status = .running ∧ (start [0x04, 0x08, 0x08]).err = [] ∧
      ends (step (start [0x04, 0x08, 0x08])) (fun t => t.err.length == 3) = true ∧
      decode (start [0x04, 0x08, 0x08]).fetchInstr.1 = .ok (.mrm 8 8, [])) ∧
    ends (step { startAt 0xFFFD [0x83, 0x02, 0x00] with sp := 0xFFFF, fs := 3 })
      (fun t => faulted t 0x0200 (plain .ipOutOfBounds :: List.replicate 9 (plain .stackOverflow))) = true :=
  ⟨⟨rfl, rfl, by decide, rfl⟩, by decide⟩

theorem test_witness_MemoryReadAfterWrite : (start [0x01, 0x2A]).mem.wf = true ∧ (0xFFFF : Word) ≠ 0x0000 := by decide

theorem test_witness_CanonicalMemoryIsTheImage :
    Memory.wf (Memory.write [] 3 7) = true ∧ Memory.wf [(3, 7)] = true ∧
    (∀ a, a < 65536 → (Memory.write [] 3 7).read a = Memory.read [(3, 7)] a) := ⟨by decide, by decide, fun _ _ => rfl⟩

/-- The last register that exists, and the first and the last index behind which there is none. -/
theorem test_witness_CheckedRegisterAccess :
    (start []).regRead 7 = (0x17, start []) ∧ 8 ≤ 8 ∧ 8 ≤ 255 ∧ (start []).regRead 8 = (0x00, (start []).raise (badReg 8)) ∧
    (start []).regWrite 255 1 = (start []).raise (badReg 255) := ⟨rfl, by decide, by decide, rfl, rfl⟩

theorem test_witness_PointerPairOutcomes :
    (6 < 7 ∧ (start []).ptr 6 = (0x1617, start [])) ∧ (start []).ptr 7 = (0x1700, (start []).raise (badReg 8)) ∧
    (8 ≤ 8 ∧ (start []).ptr 8 = (0x0000, ((start []).raise (badReg 8)).raise (badReg 9))) ∧
    (8 ≤ 255 ∧ (start []).ptr 255 = (0x0000, ((start []).raise (badReg 255)).raise (badReg 256))) :=
  ⟨⟨by decide, rfl⟩, rfl, ⟨by decide, rfl⟩, ⟨by decide, rfl⟩⟩

theorem test_witness_RaiseAppendsOneRecord :
    ((start []).setErr (List.replicate 9 (badReg 8))).err.length < 10 ∧
    10 ≤ ((start []).setErr (List.replicate 10 (badReg 8))).err.length := by decide

theorem test_witness_NopHasNoEffect :
    (startAt 0xFFFE [0x00]).status = .running ∧ (startAt 0xFFFE [0x00]).err = [] ∧ (startAt 0xFFFE [0x00]).ip ≠ 0xFFFF ∧
    (startAt 0xFFFE [0x00]).memRead (startAt 0xFFFE [0x00]).ip = 0x00 ∧ (startAt 0xFFFF [0xFF]).ip = 0xFFFF ∧
    (startAt 0xFFFF [0xFF]).status = .running ∧ (startAt 0xFFFF [0xFF]).err = [] := by decide

/-- `MovesToARegister`, `MovesFromMemory`, `IncrementAndDecrement`: an index of 8 or more, at both ends of its range. -/
theorem test_witness_invalid_destination : 8 ≤ 8 ∧ 8 ≤ 255 := by decide

theorem test_witness_MovesToMemory :
    (start []).mem.wf = true ∧ (∃ t, exec (.mlm 0x77 7) (start []) = .next t) ∧
    (∃ t, exec (.mrm 8 255) (start []) = .next t) ∧ (0x0001 : Word) ≠ (start []).ptrVal 255 :=
  ⟨by decide, ⟨_, rfl⟩, ⟨_, rfl⟩, by decide⟩

theorem test_witness_DivideOrRaise :
    (start []).regVal 7 ≠ 0 ∧ (start []).regVal 8 = 0 ∧ (State.reset).regVal 7 = 0 := by decide

theorem test_witness_ConditionalJumps :
    (start []).x 0 = (start []).regVal 0 ∧ (start []).x 0 ≠ (start []).regVal 7 ∧ State.reset.x 0 = State.reset.regVal 8 := by
  decide

/-- The highest IP at which a `JMP` is fetched whole, and the two at which one of its fetches is refused. -/
theorem test_witness_JumpSetsIp :
    ((startAt 0xFFFC [0x60, 0x12, 0x34]).status = .running ∧ (startAt 0xFFFC [0x60, 0x12, 0x34]).err = [] ∧
      (startAt 0xFFFC [0x60, 0x12, 0x34]).ip.toNat ≤ 0xFFFC ∧
      (startAt 0xFFFC [0x60, 0x12, 0x34]).memRead (startAt 0xFFFC [0x60, 0x12, 0x34]).ip = 0x60) ∧
    ((startAt 0xFFFD [0x60, 0x12]).status = .running ∧ (startAt 0xFFFD [0x60, 0x12]).err = [] ∧
      (startAt 0xFFFD [0x60, 0x12]).ip = 0xFFFD ∧ (startAt 0xFFFD [0x60, 0x12]).memRead 0xFFFD = 0x60) ∧
    ((startAt 0xFFFE [0x60]).status = .running ∧ (startAt 0xFFFE [0x60]).err = [] ∧
      (startAt 0xFFFE [0x60]).ip = 0xFFFE ∧ (startAt 0xFFFE [0x60]).memRead 0xFFFE = 0x60) := by decide

/-- The three cases of a push at the values where they meet, and the byte it writes beside the ones it leaves. -/
theorem test_witness_PushInstructions :
    ((start []).setSp 0xFFFF).sp = 0xFFFF ∧
    (((start []).setSp 0xFFFE).sp ≠ 0xFFFF ∧ (((start []).setSp 0xFFFE).setFs 0xFE).fs ≠ 0xFF) ∧
    (((start []).setSp 0x0000).sp ≠ 0xFFFF ∧ (((start []).setSp 0x0000).setFs 0xFF).fs = 0xFF) ∧
    (start []).mem.wf = true ∧ (∃ t, exec (.spl 7) (start []) = .next t) ∧ (0xFF01 : Word) ≠ (start []).sp ∧
    (∃ t, exec (.spr 255) (start []) = .next t) := by
  refine ⟨by decide, by decide, by decide, by decide, ⟨_, rfl⟩, by decide, ⟨_, rfl⟩⟩

theorem test_witness_PopInstruction :
    (((start []).setSp 0xFF01).fs = 0) ∧ (((start []).setFs 1).sp = 0xFF00) ∧
    (((start []).setSp 0xFEFF).setFs 1).fs ≠ 0 ∧ (((start []).setSp 0xFEFF).setFs 1).sp ≠ 0xFF00 ∧
    (((start []).setSp 0xFF01).setFs 255).fs ≠ 0 ∧ (((start []).setSp 0xFF01).setFs 255).sp ≠ 0xFF00 ∧ 8 ≤ 8 := by decide

/-- SP where one byte fits, where none fits, and where all nine fit exactly. -/
theorem test_witness_CallSavesFrame :
    (start []).mem.wf = true ∧ (0 < 9 ∧ 0 < 65535 - ((start []).setSp 0xFFFE).sp.toNat) ∧
    ¬ (0 < 65535 - ((start []).setSp 0xFFFF).sp.toNat) ∧ (8 < 9 ∧ 8 < 65535 - ((start []).setSp 0xFFF6).sp.toNat) ∧
    (∀ k, k < min 9 (65535 - ((start []).setSp 0xFFFE).sp.toNat) →
      (0xFFFF : Word) ≠ ((start []).setSp 0xFFFE).sp + BitVec.ofNat 16 k) := by decide

theorem test_witness_ReturnRestoresFrame : (0xFE0C : Word) = ((start []).setSp 0xFF0B).sp - (((start []).setFs 0xFF).fs).setWidth 16 := by
  decide

theorem test_witness_ReadInput :
    ((start []).setInput ⟨[0x41, 0x42], .fails⟩).input.pending = 0x41 :: [0x42] ∧ 8 ≤ 8 ∧
    ((start []).input.pending = [] ∧ (start []).input.tail = .fails) ∧ ((start []).setInput ⟨[], .silent⟩).Waits :=
  ⟨rfl, by decide, ⟨rfl, rfl⟩, rfl, rfl⟩

theorem test_witness_HaltEndsTheRun :
    (startAt 0xFFFE [0xFF]).status = .running ∧ (startAt 0xFFFE [0xFF]).err = [] ∧ (startAt 0xFFFE [0xFF]).ip ≠ 0xFFFF ∧
    (startAt 0xFFFE [0xFF]).memRead (startAt 0xFFFE [0xFF]).ip = 0xFF := by decide

/-- The call that ends exactly at `0xFFFF`, and the callee that returns at once. -/
theorem test_witness_CallAndReturnAreInverse :
    ∃ t, ((start []).setSp 0xFFF6).mem.wf = true ∧ ((start []).setSp 0xFFF6).sp.toNat ≤ 0xFFF6 ∧
      exec (.cll 0x0200) ((start []).setSp 0xFFF6) = .next t ∧
      (∀ k, k < 9 → t.memRead (((start []).setSp 0xFFF6).sp + BitVec.ofNat 16 k) =
        t.memRead (((start []).setSp 0xFFF6).sp + BitVec.ofNat 16 k)) ∧
      t.sp = ((start []).setSp 0xFFF6).sp + 9 + t.fs.setWidth 16 :=
  ⟨_, by decide, by decide, rfl, fun _ _ => rfl, by decide⟩

theorem test_witness_StackInstructionsKeepFrameBase :
    (start []).err.length < 10 ∧ (∃ t, exec (.spl 7) (start []) = .next t ∧ t.err = (start []).err) ∧
    (∃ t, exec (.spr 7) (start []) = .next t ∧ t.err = (start []).err) ∧
    (∃ t, exec (.stp 7) (((start []).setSp 0xFF01).setFs 1) = .next t ∧ t.err = (start []).err) :=
  ⟨by decide, ⟨_, rfl, rfl⟩, ⟨_, rfl, rfl⟩, ⟨_, rfl, rfl⟩⟩

/-- Two pushes that end exactly at `0xFFFF`; the copy through the highest cell, and from the base. -/
theorem test_witness_PushesAndPopsAreInverse :
    ((start []).setSp 0xFFFD).mem.wf = true ∧ ((start []).setSp 0xFFFD).fs = 0 ∧
    0xFF00 ≤ ((start []).setSp 0xFFFD).sp.toNat ∧
    ((start []).setSp 0xFFFD).sp.toNat + ([0xAA, 0xBB] : List Byte).length ≤ 0xFFFF ∧
    ([3, 4] : List (Fin 8)).length = ([0xAA, 0xBB] : List Byte).length ∧ ([3, 4] : List (Fin 8)).Nodup ∧
    (((start []).setSp 0xFFFE).fs ≠ 0xFF ∧ 0xFF00 ≤ ((start []).setSp 0xFFFE).sp.toNat ∧ ((start []).setSp 0xFFFE).sp ≠ 0xFFFF) ∧
    (((start []).setFs 0xFE).fs ≠ 0xFF ∧ 0xFF00 ≤ (start []).sp.toNat) := by decide

/-- The pair 6, an address below the top, and SP at the last byte that a push and a call's first save reach. -/
theorem test_witness_StoreThenLoadOrFetch :
    (start []).mem.wf = true ∧ 6 < 7 ∧ (start []).ptrVal 6 ≠ 0xFFFF ∧ (start []).ptrVal 255 ≠ 0xFFFF ∧
    (((start []).setSp 0xFFFE).mem.wf = true ∧ ((start []).setSp 0xFFFE).sp ≠ 0xFFFF) ∧
    (0 < 9 ∧ 0 < 65535 - ((start []).setSp 0xFFFE).sp.toNat) ∧ (8 < 9 ∧ 8 < 65535 - ((start []).setSp 0xFFF6).sp.toNat) := by
  decide

theorem test_witness_OperationAfterLoadingOperands :
    (Instr.div 1 2, (0xFF#8).toNat / (0x01#8).toNat) ∈
      [(Instr.lnd 1 2, (0xFF#8 &&& 0x01#8).toNat), (.lor 1 2, (0xFF#8 ||| 0x01#8).toNat), (.lxr 1 2, (0xFF#8 ^^^ 0x01#8).toNat),
        (.lbc 1 2, (0xFF#8 &&& ~~~0x01#8).toNat), (.add 1 2, ((0xFF#8).toNat + (0x01#8).toNat) % 256),
        (.sub 1 2, ((0xFF#8).toNat + (256 - (0x01#8).toNat)) % 256), (.mul 1 2, (0xFF#8).toNat * (0x01#8).toNat % 256),
        (.div 1 2, (0xFF#8).toNat / (0x01#8).toNat)] ∧ (0x01 : Byte) ≠ 0 := by decide

theorem test_witness_StackNeverWritesTopCell :
    (start []).mem.wf = true ∧ (∃ t, exec (.spl 7) ((start []).setSp 0xFFFE) = .next t) ∧
    (∃ t, exec (.spr 7) ((start []).setSp 0xFFFF) = .next t) ∧ (∃ t, exec (.cll 7) ((start []).setSp 0xFFF7) = .next t) :=
  ⟨by decide, ⟨_, rfl⟩, ⟨_, rfl⟩, ⟨_, rfl⟩⟩

theorem test_witness_ResetInMidStep :
    (∃ t, step (start [0x83, 0x02, 0x00]) = .next t) ∧ (start [0x83, 0x02, 0x00]).memAccesses.length ≤ 12 ∧
    (((start [0x83, 0x02, 0x00]).setFs 3).resetMidStep 4 State.reset.input).mem.drop 2 = [(0xFF00, 3)] ∧
    ((start [0x83, 0x02, 0x00]).setStatus .halted).status ≠ .running :=
  ⟨⟨_, rfl⟩, by decide, by decide, by decide⟩

theorem test_witness_WaitingChangesNothing :
    ((start [0xE1, 0x07]).setInput ⟨[], .silent⟩).status = .running ∧
    decode ((start [0xE1, 0x07]).setInput ⟨[], .silent⟩).fetchInstr.1 = .ok (.rin 7, []) ∧
    ((start [0xE1, 0x07]).setInput ⟨[], .silent⟩).Waits ∧ 7 < 8 := ⟨rfl, rfl, ⟨rfl, rfl⟩, by decide⟩

theorem test_witness_StatusAndErrorOutputs :
    (List.replicate 10 (badReg 8)).length ≤ 10 ∧ 9 < (List.replicate 10 (badReg 8)).length ∧
    (List.replicate 10 (badReg 8)).length ≤ 10 ∧ State.reset.err.length ≤ 0 := by decide

/-- Between two steps of a run on an infinite `INPUT`: no byte unread, and one byte unread. -/
theorem test_witness_InfiniteInputIsReadInOrder :
    (((start [0xE1, 0x07]).setInput ⟨[], .silent⟩).status = .running ∧
      decode ((start [0xE1, 0x07]).setInput ⟨[], .silent⟩).fetchInstr.1 = .ok (.rin (7 : Fin 8).val, []) ∧
      ((start [0xE1, 0x07]).setInput ⟨[], .silent⟩).input = ⟨[], .silent⟩) ∧
    (decode ((start [0xE1, 0x07]).setInput ⟨[BitVec.ofNat 8 5], .silent⟩).fetchInstr.1 = .ok (.rin (7 : Fin 8).val, []) ∧
      ((start [0xE1, 0x07]).setInput ⟨[BitVec.ofNat 8 5], .silent⟩).input = ⟨[BitVec.ofNat 8 5], .silent⟩) :=
  ⟨⟨rfl, rfl, rfl⟩, ⟨rfl, rfl⟩⟩

/-- R7, R182: on the infinite `INPUT` 10, 11, 12, … a `NOP` and two `RIN` get 10 and 11. -/
theorem test_infinite_input_is_read_in_order :
    (let s := (runFrom [(1, 0xE1), (2, 0x02), (3, 0xE1), (4, 0x03)] (.infinite (fun k => BitVec.ofNat 8 (k + 10))) 3).2
     s.x 2 == 10 && s.x 3 == 11 && s.err == []) = true := by decide
end

/-! PROOFS. An infinite `INPUT` is read in order and without failure (O60): what an instruction may do to the input, what a
step may do to it, and the invariant of a run on an infinite `INPUT`. -/

namespace Sys2Proof.Machine

/-! ### Work that reads no input -/

/-- `u` comes from `s` by work that reads no input: the stream and the count of failed reads stay, and no `READ_INPUT` is
recorded that `s` did not hold. -/
structure State.ReadsNoInput (s u : State) : Prop where
  input : u.input = s.input
  failedReads : u.failedReads = s.failedReads
  err : ∀ q ∈ u.err, q ∈ s.err ∨ q.code ≠ .readInput

namespace State.ReadsNoInput

theorem of_eq {s u : State} (hin : u.input = s.input) (hf : u.failedReads = s.failedReads) (he : u.err = s.err) :
    s.ReadsNoInput u :=
  ⟨hin, hf, fun _ hq => .inl (he ▸ hq)⟩

theorem refl (s : State) : s.ReadsNoInput s := of_eq rfl rfl rfl

theorem trans {s t u : State} (h : s.ReadsNoInput t) (h' : t.ReadsNoInput u) : s.ReadsNoInput u :=
  ⟨h'.input.trans h.input, h'.failedReads.trans h.failedReads, fun q hq => (h'.err q hq).elim (h.err q) .inr⟩

theorem setX (s : State) (i : Fin 8) (v : Byte) : s.ReadsNoInput (s.setX i v) := of_eq rfl rfl rfl

theorem setIp (s : State) (v : Word) : s.ReadsNoInput (s.setIp v) := of_eq rfl rfl rfl

theorem setSp (s : State) (v : Word) : s.ReadsNoInput (s.setSp v) := of_eq rfl rfl rfl

theorem setFs (s : State) (v : Byte) : s.ReadsNoInput (s.setFs v) := of_eq rfl rfl rfl

theorem setStatus (s : State) (v : Status) : s.ReadsNoInput (s.setStatus v) := of_eq rfl rfl rfl

theorem memWrite (s : State) (a : Word) (v : Byte) : s.ReadsNoInput (s.memWrite a v) := of_eq rfl rfl rfl

theorem raise (s : State) {r : ErrorRecord} (hr : r.code ≠ .readInput) : s.ReadsNoInput (s.raise r) :=
  ⟨s.raise_input r, s.raise_failedReads r, fun q hq => by
    have hq' : q ∈ (s.raiseAll [r]).err := hq
    rcases State.mem_raiseAll_err hq' with h | h
    · exact .inl h
    · exact .inr (List.mem_singleton.1 h ▸ hr)⟩

theorem raiseCode (s : State) {c : ErrorCode} (hc : c ≠ .readInput) : s.ReadsNoInput (s.raise (ErrorRecord.ofCode c)) :=
  raise s hc

theorem raiseAll (s : State) {rs : List ErrorRecord} (hrs : ∀ r ∈ rs, r.code ≠ .readInput) :
    s.ReadsNoInput (s.raiseAll rs) := by
  induction rs generalizing s with
  | nil => exact refl s
  | cons r rest ih =>
    obtain ⟨hr, hrest⟩ := List.forall_mem_cons.1 hrs
    exact (raise s hr).trans (ih (s.raise r) hrest)

theorem regRead (s : State) (i : Nat) : s.ReadsNoInput (s.regRead i).2 := by
  unfold State.regRead
  split
  · exact refl s
  · exact raise s (by simp [ErrorRecord.ofIndex])

theorem ptr (s : State) (r : Nat) : s.ReadsNoInput (s.ptr r).2 :=
  (regRead s r).trans (regRead _ (r + 1))

theorem regWrite (s : State) (i : Nat) (v : Byte) : s.ReadsNoInput (s.regWrite i v) := by
  rcases State.regWrite_cases s i v with ⟨_, h⟩ | ⟨_, h⟩ <;> rw [h]
  · exact setX s _ v
  · exact raise s (by simp [ErrorRecord.ofIndex])

theorem aluRegReg (s : State) (f : Byte → Byte → Byte) (a b : Nat) : s.ReadsNoInput (s.aluRegReg f a b) :=
  ((regRead s a).trans (regRead _ b)).trans (setX _ 0 _)

theorem aluRegLit (s : State) (f : Byte → Byte → Byte) (r : Nat) (lit : Byte) : s.ReadsNoInput (s.aluRegLit f r lit) :=
  (regRead s r).trans (setX _ 0 _)

theorem aluInPlace (s : State) (f : Byte → Byte) (r : Nat) : s.ReadsNoInput (s.aluInPlace f r) :=
  (regRead s r).trans (regWrite _ r _)

theorem jumpIf (s : State) (c : Bool) (addr : Word) : s.ReadsNoInput (s.jumpIf c addr) := by
  rw [State.jumpIf_eq]
  exact setIp s _

theorem push (s : State) (v : Byte) : s.ReadsNoInput (s.push v) := by
  have hwritten := ((memWrite s s.sp v).trans (setSp _ (s.sp + 1))).trans (setFs _ (s.fs + 1))
  rcases State.push_cases s v with ⟨_, h⟩ | ⟨_, _, h⟩ | ⟨_, _, h⟩ <;> rw [h]
  · exact raiseCode s (by decide)
  · exact hwritten
  · exact hwritten.trans (raiseCode _ (by decide))

theorem save (s : State) (v : Byte) : s.ReadsNoInput (s.save v) := by
  rcases State.save_cases s v with ⟨_, h⟩ | ⟨_, h⟩ <;> rw [h]
  · exact raiseCode s (by decide)
  · exact (memWrite s s.sp v).trans (setSp _ _)

theorem saveAll (s : State) (vs : List Byte) : s.ReadsNoInput (s.saveAll vs) := by
  induction vs generalizing s with
  | nil => exact refl s
  | cons v rest ih => exact (save s v).trans (ih (s.save v))

theorem pop (s : State) : s.ReadsNoInput s.pop.2 := (setSp s _).trans (setFs _ _)

theorem endStep (s : State) : s.ReadsNoInput s.endStep :=
  of_eq s.endStep_input s.endStep_failedReads s.endStep_err

theorem fetchInstr (s : State) : s.ReadsNoInput s.fetchInstr.2 := by
  obtain ⟨rs, h, hrs⟩ := State.fetchInstr_state s
  rw [h]
  exact (setIp s _).trans (raiseAll _ fun r hr => by simp [hrs r hr, ErrorRecord.ofCode])

/-- A state in which no read has failed stays so. -/
theorem err_ne_readInput {s u : State} (h : s.ReadsNoInput u) (hs : ∀ q ∈ s.err, q.code ≠ .readInput) :
    ∀ q ∈ u.err, q.code ≠ .readInput :=
  fun q hq => (h.err q hq).elim (hs q) id

end State.ReadsNoInput

open State in
/-- `RIN` alone reads the input (spec/46_io.md R183). -/
theorem exec_readsNoInput {i : Instr} {s u : State} (hi : ∀ r, i ≠ .rin r) (h : exec i s = .next u) :
    s.ReadsNoInput u := by
  cases i with
  | nop => cases h; exact .refl s
  | mlr lit d => cases h; exact .regWrite s d lit
  | mrr a d => cases h; exact (ReadsNoInput.regRead s a).trans (.regWrite _ d _)
  | mlm lit p => cases h; exact (ReadsNoInput.ptr s p).trans (.memWrite _ _ lit)
  | mrm a p => cases h; exact ((ReadsNoInput.regRead s a).trans (.ptr _ p)).trans (.memWrite _ _ _)
  | mmr p d => cases h; exact (ReadsNoInput.ptr s p).trans (.regWrite _ d _)
  | lnd a b | lor a b | lxr a b | lbc a b | add a b | sub a b | mul a b => cases h; exact .aluRegReg s _ a b
  | lsl r lit | lsr r lit => cases h; exact .aluRegLit s _ r lit
  | inc r | dec r => cases h; exact .aluInPlace s _ r
  | div a b =>
    have hread := (ReadsNoInput.regRead s a).trans (.regRead _ b)
    simp only [exec, execDiv] at h
    split at h <;> cases h
    · exact hread.trans (.raiseCode _ (by decide))
    · exact hread.trans (.setX _ 0 _)
  | jmp a => cases h; exact .setIp s a
  | jeq r a | jne r a => cases h; exact (ReadsNoInput.regRead s r).trans (.jumpIf _ _ a)
  | spl lit => cases h; exact .push s lit
  | spr r => cases h; exact (ReadsNoInput.regRead s r).trans (.push _ _)
  | stp r =>
    simp only [exec, execStp] at h
    split at h <;> cases h
    · exact .raiseCode s (by decide)
    · exact (ReadsNoInput.pop s).trans (.regWrite _ r _)
  | cll a =>
    simp only [exec, execCll, Host.Outcome.next.injEq] at h
    subst h
    exact (ReadsNoInput.saveAll s s.frame).trans ((ReadsNoInput.setFs _ 0).trans (.setIp _ a))
  | ret => cases h; exact .of_eq rfl rfl rfl
  | pnt a len => cases h; exact .of_eq (by simp) (by simp) (by simp)
  | rin r => exact absurd rfl (hi r)
  | hlt => cases h; exact .setStatus s .halted

/-! ### What a step does to the input -/

/-- Everything `RIN` can do with the input: it takes the first byte, or its read fails. -/
theorem exec_rin_cases {r : Nat} {s u : State} (h : exec (.rin r) s = .next u) :
    (∃ b rest, s.input.pending = b :: rest ∧ u = (s.setInput { s.input with pending := rest }).regWrite r b) ∨
    (s.input.pending = [] ∧ s.input.tail = .fails) := by
  simp only [exec, execRin] at h
  rcases State.inRead_cases s with ⟨b, rest, hp, hr⟩ | ⟨hp, ht, _⟩ | ⟨_, _, hr⟩
  · rw [hr] at h; cases h
    exact .inl ⟨b, rest, hp, rfl⟩
  · exact .inr ⟨hp, ht⟩
  · rw [hr] at h; cases h

/-- Everything a step can do with the input: read nothing, take the first byte, or meet the end of a closed input. -/
theorem step_input_cases {s t : State} (h : step s = .next t) :
    s.ReadsNoInput t ∨
    (∃ b rest, s.input.pending = b :: rest ∧ (s.setInput { s.input with pending := rest }).ReadsNoInput t) ∨
    (s.input.pending = [] ∧ s.input.tail = .fails) := by
  have hfetch := State.ReadsNoInput.fetchInstr s
  obtain ⟨_, ⟨i, u, _, he, rfl⟩ | ⟨_, _, _, rfl⟩ | ⟨_, _, rfl⟩⟩ := step_next_cases h
  · by_cases hi : ∃ r, i = .rin r
    · obtain ⟨r, rfl⟩ := hi
      obtain ⟨b, rest, hp, rfl⟩ | hfail := exec_rin_cases he
      · rw [State.fetchInstr_input] at hp
        have htaken : (s.setInput { s.input with pending := rest }).ReadsNoInput
            (s.fetchInstr.2.setInput { s.fetchInstr.2.input with pending := rest }) :=
          ⟨by simp, hfetch.failedReads, hfetch.err⟩
        exact .inr (.inl ⟨b, rest, hp, (htaken.trans (.regWrite _ r b)).trans (.endStep _)⟩)
      · rw [State.fetchInstr_input] at hfail
        exact .inr (.inr hfail)
    · have hexec := exec_readsNoInput (fun r hr => hi ⟨r, hr⟩) he
      exact .inl ((hfetch.trans hexec).trans (.endStep u))
  · exact .inl (.refl _)
  · exact .inl ((hfetch.trans (.raise _ (by simp [ErrorRecord.ofOpcode]))).trans (.endStep _))

/-! ### The run on an infinite `INPUT` -/

/-- What holds between two steps of a run on the infinite sequence `byte`, of which `k` bytes have been supplied: no read has
failed, the input is open, and at most the last byte supplied is unread. -/
structure State.FedInOrder (byte : Nat → Byte) (k : Nat) (s : State) : Prop where
  failedReads : s.failedReads = 0
  tail : s.input.tail = .silent
  err : ∀ q ∈ s.err, q.code ≠ .readInput
  pending : s.input.pending = [] ∨ ∃ j, k = j + 1 ∧ s.input.pending = [byte j]

namespace State.FedInOrder

variable {byte : Nat → Byte} {k : Nat} {s t : State}

theorem powerOn (image : Memory) (byte : Nat → Byte) : FedInOrder byte 0 (State.powerOn image (.infinite byte)) :=
  ⟨rfl, rfl, by simp [State.powerOn, State.reset], .inl rfl⟩

theorem supply (h : s.FedInOrder byte k) :
    ((Input.infinite byte).supply k s).2.FedInOrder byte ((Input.infinite byte).supply k s).1 := by
  rcases Input.supply_cases byte k s with ⟨_, hs⟩ | ⟨_, hs⟩ <;> rw [hs]
  · exact ⟨h.failedReads, h.tail, h.err, .inr ⟨k, rfl, rfl⟩⟩
  · exact h

theorem of_readsNoInput (h : s.FedInOrder byte k) (hr : s.ReadsNoInput t) : t.FedInOrder byte k :=
  ⟨hr.failedReads.trans h.failedReads, hr.input ▸ h.tail, hr.err_ne_readInput h.err, hr.input ▸ h.pending⟩

/-- Taking the first byte leaves none, since at most one was unread. -/
theorem take (h : s.FedInOrder byte k) {b : Byte} {rest : List Byte} (hp : s.input.pending = b :: rest) :
    (s.setInput { s.input with pending := rest }).FedInOrder byte k := by
  have hrest : rest = [] := by
    obtain hnone | ⟨_, _, hone⟩ := h.pending
    · simp [hnone] at hp
    · exact (List.cons.inj (hp.symm.trans hone)).2
  exact ⟨h.failedReads, h.tail, h.err, .inl hrest⟩

theorem of_step (h : s.FedInOrder byte k) (hs : step s = .next t) : t.FedInOrder byte k := by
  obtain hr | ⟨b, rest, hp, hr⟩ | ⟨_, hfails⟩ := step_input_cases hs
  · exact h.of_readsNoInput hr
  · exact (h.take hp).of_readsNoInput hr
  · simp [h.tail] at hfails

theorem runOn (n : Nat) (h : s.FedInOrder byte k) :
    (runOn (.infinite byte) n k s).2.FedInOrder byte (runOn (.infinite byte) n k s).1 := by
  induction n generalizing k s with
  | zero => exact h
  | succ n ih =>
    obtain ⟨t, hs, hrun⟩ | ⟨_, hrun⟩ := runOn_succ (.infinite byte) n k s <;> rw [hrun]
    · exact ih (h.supply.of_step hs)
    · exact h

end State.FedInOrder

/-! ### A `RIN` that finds a byte -/

theorem Input.supply_infinite_not_waits (byte : Nat → Byte) (k : Nat) (s : State) :
    ¬ ((Input.infinite byte).supply k s).2.Waits := by
  rintro ⟨hp, _⟩
  rcases Input.supply_cases byte k s with ⟨_, h⟩ | ⟨hne, h⟩ <;> rw [h] at hp
  · simp at hp
  · exact hne hp

/-! The bytes fetched do not depend on the input. -/

theorem State.fetch_setInput (s : State) (v : InputStream) : (s.setInput v).fetch = (s.fetch.1, s.fetch.2.setInput v) := by
  rcases State.fetch_cases s with ⟨hip, h⟩ | ⟨hip, h⟩ <;> rw [h]
  · exact if_neg hip
  · simp [State.fetch, State.setInput_ip, hip, State.raise_setInput]; rfl

theorem State.fetchMany_setInput (n : Nat) (s : State) (v : InputStream) :
    State.fetchMany n (s.setInput v) = ((State.fetchMany n s).1, (State.fetchMany n s).2.setInput v) := by
  induction n generalizing s with
  | zero => rfl
  | succ n ih => simp [State.fetchMany, State.fetch_setInput, ih]

theorem State.fetchInstr_setInput (s : State) (v : InputStream) :
    (s.setInput v).fetchInstr = (s.fetchInstr.1, s.fetchInstr.2.setInput v) := by
  simp [State.fetchInstr, State.fetch_setInput, State.fetchMany_setInput]

/-- A `RIN` that finds a byte unread completes with it and leaves the bytes after it (spec/46_io.md R182, R183). -/
theorem step_rin_of_pending {s : State} {r : Fin 8} {b : Byte} {rest : List Byte} (hs : s.status = .running)
    (hd : decode s.fetchInstr.1 = .ok (.rin r.val, [])) (hp : s.input.pending = b :: rest) :
    ∃ t, step s = .next t ∧ t.x r = b ∧ t.input = { s.input with pending := rest } := by
  have hexec : exec (.rin r.val) s.fetchInstr.2 =
      .next ((s.fetchInstr.2.setInput { s.input with pending := rest }).setX r b) := by
    simp [exec, execRin, State.inRead, hp]
  have hstep := step_of_decode hs hd
  rw [hexec] at hstep
  exact ⟨_, hstep, by simp, by simp⟩

/-- The same with the byte in the stream the environment has just supplied. -/
theorem step_rin_setInput {s : State} {r : Fin 8} (b : Byte) (hs : s.status = .running)
    (hd : decode s.fetchInstr.1 = .ok (.rin r.val, [])) :
    ∃ t, step (s.setInput ⟨[b], .silent⟩) = .next t ∧ t.x r = b ∧ t.input = ⟨[], .silent⟩ :=
  step_rin_of_pending (s := s.setInput ⟨[b], .silent⟩) hs (by rw [State.fetchInstr_setInput]; exact hd) rfl

/-! ### The run on a finite `INPUT` -/

theorem runOn_finite (bytes : List Byte) (n k : Nat) (s : State) : (runOn (.finite bytes) n k s).2 = run n s := by
  induction n generalizing s with
  | zero => rfl
  | succ n ih =>
    simp only [runOn, run, Input.supply_finite]
    cases step s with
    | next t => exact ih t
    | fault _ => rfl
    | refused _ => rfl

/-- Settles O60: the invariant `State.FedInOrder` along the run, and the step of a `RIN` that finds a byte. -/
theorem infiniteInputIsReadInOrder : Obligations.InfiniteInputIsReadInOrder := by
  refine ⟨fun image byte n => ?_, Input.supply_infinite_not_waits, fun byte k r s hs hd => ⟨fun hin => ?_, fun hin => ?_⟩,
    fun image bytes n => ⟨rfl, runOn_finite bytes n 0 _⟩⟩
  · have h := (State.FedInOrder.powerOn image byte).runOn n
    exact ⟨h.failedReads, h.tail, h.err, h.pending⟩
  · have hsupply : (Input.infinite byte).supply k s = (k + 1, s.setInput ⟨[byte k], .silent⟩) := by
      simp [Input.supply, State.deliver, hin]
    rw [hsupply]
    exact ⟨rfl, step_rin_setInput (byte k) hs hd⟩
  · have hsupply : (Input.infinite byte).supply (k + 1) s = (k + 1, s) := by simp [Input.supply, hin]
    rw [hsupply]
    obtain ⟨t, ht, hx, hrest⟩ := step_rin_of_pending hs hd (congrArg InputStream.pending hin)
    exact ⟨rfl, t, ht, hx, by rw [hrest, hin]⟩

end Sys2Proof.Machine

/-! PROOFS. What an instruction may change (O13, O14, O11, O18, O20, O21, O22, O55): every meaning is a row of single updates,
each of which the spec's tables allow its instruction. A fact about the state that every such update keeps is kept by every
instruction, and from there by every step and every run. -/

namespace Sys2Proof.Machine

/-! ### The updates an instruction may make -/

/-- One update of the state that the tables of Sys2Proof/Safety.lean allow the instruction `i`. A record may be raised by every
instruction; no stack instruction writes at the stack's limit. -/
inductive State.Update (i : Instr) : State → State → Prop where
  | setX (s : State) (r : Fin 8) (v : Byte) (h : r.val ∈ i.writesReg) : Update i s (s.setX r v)
  | setIp (s : State) (v : Word) (h : i.writesIp = true) : Update i s (s.setIp v)
  | setSp (s : State) (v : Word) (h : i.usesStack = true) : Update i s (s.setSp v)
  | setFs (s : State) (v : Byte) (h : i.usesStack = true) : Update i s (s.setFs v)
  | memWrite (s : State) (a : Word) (v : Byte) (h : i.writesMemory = true)
      (hlimit : i.usesStack = true → a ≠ Config.stackLimit) : Update i s (s.memWrite a v)
  | raise (s : State) (r : ErrorRecord) : Update i s (s.raise r)
  | emit (s : State) (e : OutEvent) (h : ∃ a len, i = .pnt a len) : Update i s (s.setOutput (s.output ++ [e]))
  | setInput (s : State) (v : InputStream) (h : ∃ r, i = .rin r) : Update i s (s.setInput v)
  | setFailedReads (s : State) (v : Nat) (h : ∃ r, i = .rin r) : Update i s (s.setFailedReads v)
  | halt (s : State) (h : i = .hlt) : Update i s (s.setStatus .halted)

/-- `t` comes from `s` by updates that `i` may make. -/
def State.Updates (i : Instr) : State → State → Prop := Relation.ReflTransGen (State.Update i)

namespace State.Updates

variable {i : Instr}

theorem refl (s : State) : s.Updates i s := Relation.ReflTransGen.refl

theorem single {s t : State} (h : s.Update i t) : s.Updates i t := Relation.ReflTransGen.single h

theorem tail {s t u : State} (h : s.Updates i t) (hu : t.Update i u) : s.Updates i u := Relation.ReflTransGen.tail h hu

theorem trans {s t u : State} (h : s.Updates i t) (h' : t.Updates i u) : s.Updates i u := Relation.ReflTransGen.trans h h'

theorem raiseAll (s : State) (rs : List ErrorRecord) : Updates i s (s.raiseAll rs) := by
  induction rs generalizing s with
  | nil => exact refl s
  | cons r rest ih => exact (single (.raise s r)).trans (ih (s.raise r))

theorem regRead (s : State) (r : Nat) : Updates i s (s.regRead r).2 := by
  rw [State.regRead_eq]
  exact raiseAll s _

theorem ptr (s : State) (r : Nat) : Updates i s (s.ptr r).2 := by
  rw [State.ptr_eq]
  exact raiseAll s _

theorem regWrite (s : State) {r : Nat} (v : Byte) (h : r ∈ i.writesReg) : Updates i s (s.regWrite r v) := by
  rcases State.regWrite_cases s r v with ⟨_, hw⟩ | ⟨_, hw⟩ <;> rw [hw]
  · exact .single (.setX s _ v h)
  · exact .single (.raise s _)

theorem aluRegReg (s : State) (f : Byte → Byte → Byte) (a b : Nat) (h : 0 ∈ i.writesReg) :
    Updates i s (s.aluRegReg f a b) := by
  rw [State.aluRegReg_eq]
  exact (raiseAll s _).tail (.setX _ 0 _ h)

theorem aluRegLit (s : State) (f : Byte → Byte → Byte) (r : Nat) (lit : Byte) (h : 0 ∈ i.writesReg) :
    Updates i s (s.aluRegLit f r lit) := by
  rw [State.aluRegLit_eq]
  exact (raiseAll s _).tail (.setX _ 0 _ h)

theorem aluInPlace (s : State) (f : Byte → Byte) {r : Nat} (h : r ∈ i.writesReg) : Updates i s (s.aluInPlace f r) := by
  rw [State.aluInPlace_eq]
  exact (raiseAll s _).trans (regWrite _ _ h)

theorem jumpIf (s : State) (c : Bool) (addr : Word) (h : i.writesIp = true) : Updates i s (s.jumpIf c addr) := by
  rw [State.jumpIf_eq]
  exact .single (.setIp s _ h)

theorem push (s : State) (v : Byte) (hm : i.writesMemory = true) (hs : i.usesStack = true) :
    Updates i s (s.push v) := by
  have hwritten (hsp : s.sp ≠ Config.stackLimit) :
      Updates i s (((s.memWrite s.sp v).setSp (s.sp + 1)).setFs (s.fs + 1)) :=
    .tail (.tail (.single (.memWrite s s.sp v hm fun _ => hsp)) (.setSp _ _ hs)) (.setFs _ _ hs)
  rcases State.push_cases s v with ⟨_, h⟩ | ⟨hsp, _, h⟩ | ⟨hsp, _, h⟩ <;> rw [h]
  · exact .single (.raise s _)
  · exact hwritten hsp
  · exact (hwritten hsp).tail (.raise _ _)

theorem save (s : State) (v : Byte) (hm : i.writesMemory = true) (hs : i.usesStack = true) :
    Updates i s (s.save v) := by
  rcases State.save_cases s v with ⟨_, h⟩ | ⟨hsp, h⟩ <;> rw [h]
  · exact .single (.raise s _)
  · exact .tail (.single (.memWrite s s.sp v hm fun _ => hsp)) (.setSp _ _ hs)

theorem saveAll (s : State) (vs : List Byte) (hm : i.writesMemory = true) (hs : i.usesStack = true) :
    Updates i s (s.saveAll vs) := by
  induction vs generalizing s with
  | nil => exact refl s
  | cons v rest ih => exact (save s v hm hs).trans (ih (s.save v))

theorem pop (s : State) (hs : i.usesStack = true) : Updates i s s.pop.2 :=
  .tail (.single (.setSp s _ hs)) (.setFs _ _ hs)

theorem restore (s : State) (hs : i.usesStack = true) : Updates i s s.restore.2 := .single (.setSp s _ hs)

theorem restoreX (s : State) (r : Fin 8) (hs : i.usesStack = true) (hr : r.val ∈ i.writesReg) :
    Updates i s (s.restoreX r) :=
  (restore s hs).tail (.setX _ r _ hr)

/-- `RET` reads R7 down to R2 back (spec/45_stack_call.md R168). -/
theorem restoreFrame (s : State) :
    Updates .ret s ((((((s.restoreX 7).restoreX 6).restoreX 5).restoreX 4).restoreX 3).restoreX 2) :=
  (((((restoreX s 7 rfl (by decide)).trans (restoreX _ 6 rfl (by decide))).trans
    (restoreX _ 5 rfl (by decide))).trans (restoreX _ 4 rfl (by decide))).trans
    (restoreX _ 3 rfl (by decide))).trans (restoreX _ 2 rfl (by decide))

theorem outRange (n : Nat) (a : Word) (s : State) (h : ∃ a len, i = .pnt a len) :
    Updates i s (State.outRange n a s) := by
  induction n generalizing a s with
  | zero => exact refl s
  | succ n ih => exact (single (.emit s _ h)).trans (ih (a + 1) _)

end State.Updates

open State in
/-- Everything an instruction can do: it completes by updates it may make, or it is a `RIN` that waits for input. -/
theorem exec_cases (i : Instr) (s : State) :
    (∃ u, exec i s = .next u ∧ s.Updates i u) ∨
    ((∃ r, i = .rin r) ∧ s.Waits ∧ exec i s = .fault .awaitingInput) := by
  cases i with
  | nop => exact .inl ⟨_, rfl, .refl s⟩
  | mlr lit d => exact .inl ⟨_, rfl, .regWrite s lit (List.mem_singleton_self d)⟩
  | mrr a d => exact .inl ⟨_, rfl, (Updates.regRead s a).trans (.regWrite _ _ (List.mem_singleton_self d))⟩
  | mlm lit p => exact .inl ⟨_, rfl, (Updates.ptr s p).tail (.memWrite _ _ lit rfl nofun)⟩
  | mrm a p =>
    exact .inl ⟨_, rfl, ((Updates.regRead s a).trans (.ptr _ p)).tail (.memWrite _ _ _ rfl nofun)⟩
  | mmr p d => exact .inl ⟨_, rfl, (Updates.ptr s p).trans (.regWrite _ _ (List.mem_singleton_self d))⟩
  | lnd a b | lor a b | lxr a b | lbc a b | add a b | sub a b | mul a b =>
    exact .inl ⟨_, rfl, .aluRegReg s _ a b (List.mem_singleton_self 0)⟩
  | lsl r lit | lsr r lit => exact .inl ⟨_, rfl, .aluRegLit s _ r lit (List.mem_singleton_self 0)⟩
  | inc r | dec r => exact .inl ⟨_, rfl, .aluInPlace s _ (List.mem_singleton_self r)⟩
  | div a b =>
    have hread : Updates (.div a b) s ((s.regRead a).2.regRead b).2 := (Updates.regRead s a).trans (.regRead _ b)
    by_cases hb : ((s.regRead a).2.regRead b).1 = 0
    · exact .inl ⟨_, if_pos hb, hread.tail (.raise _ _)⟩
    · exact .inl ⟨_, if_neg hb, hread.tail (.setX _ 0 _ (List.mem_singleton_self 0))⟩
  | jmp a => exact .inl ⟨_, rfl, .single (.setIp s a rfl)⟩
  | jeq r a | jne r a => exact .inl ⟨_, rfl, (Updates.regRead s r).trans (.jumpIf _ _ a rfl)⟩
  | spl lit => exact .inl ⟨_, rfl, .push s lit rfl rfl⟩
  | spr r => exact .inl ⟨_, rfl, (Updates.regRead s r).trans (.push _ _ rfl rfl)⟩
  | stp r =>
    by_cases hrefused : s.popRefused = true
    · exact .inl ⟨_, if_pos hrefused, .single (.raise s _)⟩
    · exact .inl ⟨_, if_neg hrefused, (Updates.pop s rfl).trans (.regWrite _ _ (List.mem_singleton_self r))⟩
  | cll a =>
    exact .inl ⟨_, rfl, ((Updates.saveAll s s.frame rfl rfl).tail (.setFs _ 0 rfl)).tail (.setIp _ a rfl)⟩
  | ret =>
    have hdrop : Updates .ret s (s.setSp (s.sp - s.fs.setWidth 16)) := .single (.setSp s _ rfl)
    have hreturn := (hdrop.trans (.restore _ rfl)).trans (.restore _ rfl)
    exact .inl ⟨_, rfl, (((hreturn.tail (.setIp _ _ rfl)).trans (.restoreFrame _)).trans (.restore _ rfl)).tail
      (.setFs _ _ rfl)⟩
  | pnt a len => exact .inl ⟨_, rfl, (Updates.outRange len.toNat a s ⟨a, len, rfl⟩).tail (.emit _ .flush ⟨a, len, rfl⟩)⟩
  | rin r =>
    simp only [exec, execRin]
    rcases State.inRead_cases s with ⟨b, rest, _, hr⟩ | ⟨_, _, hr⟩ | ⟨hp, ht, hr⟩ <;> rw [hr]
    · exact .inl ⟨_, rfl, .trans (.single (.setInput s _ ⟨r, rfl⟩)) (.regWrite _ b (List.mem_singleton_self r))⟩
    · exact .inl ⟨_, rfl, .trans (.tail (.single (.setFailedReads s _ ⟨r, rfl⟩)) (.raise _ _))
        (.regWrite _ _ (List.mem_singleton_self r))⟩
    · exact .inr ⟨⟨r, rfl⟩, ⟨hp, ht⟩, rfl⟩
  | hlt => exact .inl ⟨_, rfl, .single (.halt s rfl)⟩

theorem exec_updates {i : Instr} {s u : State} (h : exec i s = .next u) : s.Updates i u := by
  obtain ⟨v, hv, hupd⟩ | ⟨_, _, hwait⟩ := exec_cases i s
  · cases hv.symm.trans h; exact hupd
  · cases hwait.symm.trans h

/-- A `RIN` alone can answer no next state. -/
theorem exec_fault {i : Instr} {s : State} {f : Fault} (h : exec i s = .fault f) : ∃ r, i = .rin r := by
  obtain ⟨_, hv, _⟩ | ⟨hr, _, _⟩ := exec_cases i s
  · cases hv.symm.trans h
  · exact hr

/-! ### What the updates of an instruction keep -/

namespace State.Updates

variable {i : Instr} {s t : State}

/-- What no single update changes, no row of them changes. -/
theorem apply_eq {α : Type} (f : State → α) (hf : ∀ u v, Update i u v → f v = f u) (h : s.Updates i t) : f t = f s := by
  induction h with
  | refl => rfl
  | tail _ hu ih => exact (hf _ _ hu).trans ih

theorem x_eq (h : s.Updates i t) {r : Fin 8} (hr : r.val ∉ i.writesReg) : t.x r = s.x r := by
  refine apply_eq (·.x r) (fun u v hu => ?_) h
  cases hu with
  | setX q b hq => exact State.setX_x_other u b fun e => hr (e ▸ hq)
  | raise q => exact State.raise_x u q r
  | _ => rfl

theorem sp_eq (h : s.Updates i t) (hi : i.usesStack = false) : t.sp = s.sp :=
  apply_eq State.sp (fun _ _ hu => by cases hu <;> simp_all) h

theorem fs_eq (h : s.Updates i t) (hi : i.usesStack = false) : t.fs = s.fs :=
  apply_eq State.fs (fun _ _ hu => by cases hu <;> simp_all) h

theorem ip_eq (h : s.Updates i t) (hi : i.writesIp = false) : t.ip = s.ip :=
  apply_eq State.ip (fun _ _ hu => by cases hu <;> simp_all) h

theorem status_eq (h : s.Updates i t) (hi : i ≠ .hlt) : t.status = s.status :=
  apply_eq State.status (fun _ _ hu => by cases hu <;> simp_all) h

theorem output_eq (h : s.Updates i t) (hi : ∀ a len, i ≠ .pnt a len) : t.output = s.output :=
  apply_eq State.output (fun _ _ hu => by cases hu <;> simp_all) h

theorem input_eq (h : s.Updates i t) (hi : ∀ r, i ≠ .rin r) : t.input = s.input :=
  apply_eq State.input (fun _ _ hu => by cases hu <;> simp_all) h

theorem failedReads_eq (h : s.Updates i t) (hi : ∀ r, i ≠ .rin r) : t.failedReads = s.failedReads :=
  apply_eq State.failedReads (fun _ _ hu => by cases hu <;> simp_all) h

theorem err_grows (h : s.Updates i t) : s.err <+: t.err := by
  induction h with
  | refl => exact List.prefix_rfl
  | @tail u v _ hu ih =>
    cases hu with
    | raise r => exact ih.trans (State.raise_err_grows u r)
    | _ => exact ih

theorem err_length (h : s.Updates i t) (hs : s.err.length ≤ Config.errCap) : t.err.length ≤ Config.errCap := by
  induction h with
  | refl => exact hs
  | tail _ hu ih =>
    cases hu with
    | raise r => exact State.raise_err_length r ih
    | _ => exact ih

/-- No instruction enters `FAULTED`: the end of the step does. -/
theorem status_ne_faulted (h : s.Updates i t) (hs : s.status ≠ .faulted) : t.status ≠ .faulted := by
  induction h with
  | refl => exact hs
  | @tail u v _ hu ih =>
    cases hu with
    | halt => simp
    | raise r => exact (State.raise_status u r).symm ▸ ih
    | _ => exact ih

theorem output_grows (h : s.Updates i t) : s.output <+: t.output := by
  induction h with
  | refl => exact List.prefix_rfl
  | @tail u v _ hu ih =>
    cases hu with
    | emit e => exact ih.trans (List.prefix_append u.output [e])
    | raise r => exact (State.raise_output u r).symm ▸ ih
    | _ => exact ih

theorem mem_wf (h : s.Updates i t) (hs : s.mem.wf = true) : t.mem.wf = true := by
  induction h with
  | refl => exact hs
  | @tail u v _ hu ih =>
    cases hu with
    | memWrite a b => exact State.memWrite_wf ih a b
    | raise r => exact (State.raise_mem u r).symm ▸ ih
    | _ => exact ih

/-- A stack instruction leaves the byte at the stack's limit. -/
theorem memRead_stackLimit (h : s.Updates i t) (hi : i.usesStack = true) (hs : s.mem.wf = true) :
    t.memRead Config.stackLimit = s.memRead Config.stackLimit := by
  induction h with
  | refl => rfl
  | @tail u v hupd hu ih =>
    rw [← ih]
    cases hu with
    | memWrite a b _ hlimit => exact State.memWrite_memRead_other u (mem_wf hupd hs) b (hlimit hi)
    | raise r => exact State.raise_memRead u r _
    | _ => rfl

end State.Updates

/-- Settles O21, from the updates an instruction may make. -/
theorem registersWrittenAsTabled : Obligations.RegistersWrittenAsTabled :=
  fun _ _ _ _ h hr => (exec_updates h).x_eq hr

/-- Settles O22, from the updates an instruction may make. -/
theorem controlStateWrittenAsTabled : Obligations.ControlStateWrittenAsTabled := by
  intro i s t h
  have hupd := exec_updates h
  exact ⟨fun hi => ⟨hupd.sp_eq hi, hupd.fs_eq hi⟩, hupd.ip_eq, hupd.status_eq⟩

/-- Settles O55: the three are stack instructions, none of which writes at the stack's limit. -/
theorem stackNeverWritesTopCell : Obligations.StackNeverWritesTopCell := by
  rintro i s t hi hwf h
  have hstack : i.usesStack = true := by
    obtain ⟨v, rfl⟩ | ⟨r, rfl⟩ | ⟨a, rfl⟩ := hi <;> rfl
  exact (exec_updates h).memRead_stackLimit hstack hwf

/-! ### What a step may change -/

/-- A step that answers a next state leaves everything as it was (a read is unanswered), or it fetches, makes updates its
instruction may make (at an unknown opcode no others than a `NOP` may), and ends. -/
theorem step_updates {s t : State} (h : step s = .next t) :
    t = s ∨ ∃ i u, (decode s.fetchInstr.1 = .ok (i, []) ∨ i = .nop) ∧ s.fetchInstr.2.Updates i u ∧ t = u.endStep := by
  obtain ⟨_, ⟨i, u, hd, he, ht⟩ | ⟨_, _, _, ht⟩ | ⟨_, _, ht⟩⟩ := step_next_cases h
  · exact .inr ⟨i, u, .inl hd, exec_updates he, ht⟩
  · exact .inl ht
  · exact .inr ⟨.nop, _, .inr rfl, .single (.raise _ _), ht⟩

theorem step_err_grows {s t : State} (h : step s = .next t) : s.err <+: t.err := by
  obtain rfl | ⟨i, u, _, hupd, rfl⟩ := step_updates h
  · exact List.prefix_rfl
  · rw [State.endStep_err]
    exact s.fetchInstr_err_grows.trans hupd.err_grows

theorem State.fetchInstr_err_length {s : State} (h : s.err.length ≤ Config.errCap) :
    s.fetchInstr.2.err.length ≤ Config.errCap := by
  obtain ⟨rs, hs, _⟩ := s.fetchInstr_state
  rw [hs]
  exact State.raiseAll_err_length rs h

theorem State.endStep_status_eq_faulted_iff {s : State} (h : s.status ≠ .faulted) :
    s.endStep.status = .faulted ↔ s.err ≠ [] := by
  rw [State.endStep_status]
  split <;> simp_all

/-- Settles O14: fetch, updates and the end of the step each keep the parts of the invariant. -/
theorem stepKeepsInvariant : Obligations.StepKeepsInvariant := by
  rintro s t hinv h
  obtain rfl | ⟨i, u, _, hupd, rfl⟩ := step_updates h
  · exact hinv
  · obtain ⟨hwf, hlen, _⟩ := hinv
    have hrun : s.fetchInstr.2.status ≠ .faulted := by simp [(step_next_cases h).1]
    refine ⟨?_, ?_, ?_⟩
    · rw [State.endStep_mem]
      exact hupd.mem_wf (by rwa [State.fetchInstr_mem])
    · rw [State.endStep_err]
      exact hupd.err_length (State.fetchInstr_err_length hlen)
    · rw [State.endStep_err]
      exact State.endStep_status_eq_faulted_iff (hupd.status_ne_faulted hrun)

/-! ### The error list along a run -/

/-- Once an error is recorded, no step is taken. -/
theorem State.Inv.step_ne_next {s : State} (h : s.Inv) (he : s.err ≠ []) (t : State) : step s ≠ .next t := by
  obtain ⟨_, _, hfaulted⟩ := h
  intro hstep
  exact absurd ((step_next_cases hstep).1.symm.trans (hfaulted.2 he)) (by decide)

theorem Reaches.err_grows {s t : State} (h : Reaches s t) : s.err <+: t.err := by
  induction h with
  | refl => exact List.prefix_rfl
  | step _ hstep ih => exact ih.trans (step_err_grows hstep)

theorem Reaches.eq_of_error {s t : State} (hinv : s.Inv) (he : s.err ≠ []) (h : Reaches s t) : t = s := by
  induction h with
  | refl => rfl
  | step _ hstep ih => exact absurd hstep (ih ▸ hinv.step_ne_next he _)

@[simp] theorem Input.supply_err (input : Input) (k : Nat) (s : State) : (input.supply k s).2.err = s.err := by
  rw [Input.supply_eq]; rfl

/-- What the environment supplies leaves the invariant: it speaks of no input. -/
theorem State.Inv.supply {s : State} (h : s.Inv) (input : Input) (k : Nat) : (input.supply k s).2.Inv := by
  rw [Input.supply_eq]; exact h

theorem runOn_err_grows (input : Input) (n k : Nat) (s : State) : s.err <+: (runOn input n k s).2.err := by
  induction n generalizing k s with
  | zero => exact List.prefix_rfl
  | succ n ih =>
    obtain ⟨t, hs, hrun⟩ | ⟨_, hrun⟩ := runOn_succ input n k s
    · have hstep := step_err_grows hs
      rw [Input.supply_err] at hstep
      rw [hrun]
      exact hstep.trans (ih _ t)
    · rw [hrun]

theorem runOn_of_error {s : State} (hinv : s.Inv) (he : s.err ≠ []) (input : Input) (n k : Nat) :
    (runOn input n k s).2 = s := by
  cases n with
  | zero => rfl
  | succ n =>
    obtain ⟨t, hs, _⟩ | ⟨_, hrun⟩ := runOn_succ input n k s
    · exact absurd hs ((hinv.supply input k).step_ne_next (by rwa [Input.supply_err]) t)
    · rw [hrun]

/-- Settles O13: a step only adds records, and none is taken once there is one; by induction along the run. -/
theorem errorListIsMonotonic : Obligations.ErrorListIsMonotonic :=
  ⟨fun _ _ h => h.err_grows, fun _ _ hinv h he => h.eq_of_error hinv he,
    fun input n k s => ⟨runOn_err_grows input n k s, fun hinv he => runOn_of_error hinv he input n k⟩⟩

/-! ### The outcome of a step -/

theorem State.exitStatus_of_faulted {s : State} (h : s.status = .faulted) : s.exitStatus = 1 := by
  simp [State.exitStatus, h]

theorem State.exitStatus_of_ne_faulted {s : State} (h : s.status ≠ .faulted) : s.exitStatus = 0 := by
  unfold State.exitStatus
  split <;> simp_all

/-- The step of a running machine at an unknown opcode. -/
theorem step_of_unknownOpcode {s : State} (hs : s.status = .running)
    (hd : decode s.fetchInstr.1 = .error (.unknownOpcode s.fetch.1)) :
    step s = .next (s.fetchInstr.2.unknownOpcode s.fetch.1 s.ip).endStep := by
  simp only [step, hs, runFetched, hd]
  rfl

/-- Everything the step of a running machine can answer: its instruction completes, or its read is unanswered, or the opcode
is unknown. -/
theorem step_of_running {s : State} (hs : s.status = .running) :
    (∃ i u, decode s.fetchInstr.1 = .ok (i, []) ∧ exec i s.fetchInstr.2 = .next u ∧ step s = .next u.endStep) ∨
    (∃ r, decode s.fetchInstr.1 = .ok (.rin r, []) ∧ step s = .next s) ∨
    (decode s.fetchInstr.1 = .error (.unknownOpcode s.fetch.1) ∧
      step s = .next (s.fetchInstr.2.unknownOpcode s.fetch.1 s.ip).endStep) := by
  obtain ⟨i, hd⟩ | ⟨_, _, hd⟩ := s.fetchInstr_decodes
  · have hstep := step_of_decode hs hd
    obtain ⟨u, he, _⟩ | ⟨⟨r, rfl⟩, _, he⟩ := exec_cases i s.fetchInstr.2 <;> rw [he] at hstep
    · exact .inl ⟨i, u, hd, he, hstep⟩
    · exact .inr (.inl ⟨r, hd, hstep⟩)
  · exact .inr (.inr ⟨hd, step_of_unknownOpcode hs hd⟩)

/-- Settles O11: the three ends of a step, by whether it recorded an error and whether it ran a `HLT`. -/
theorem stepHasOneOutcome : Obligations.StepHasOneOutcome := by
  rintro s ⟨hrun, herr⟩
  obtain ⟨i, u, hd, he, hstep⟩ | ⟨r, hd, hstep⟩ | ⟨_, hstep⟩ := step_of_running hrun
  · refine ⟨u.endStep, hstep, fun h => ?_, fun h hhlt => ?_, fun h hne => ?_⟩ <;> rw [State.endStep_err] at h
    · rw [State.endStep_of_error h]
      exact ⟨rfl, rfl⟩
    · cases hd.symm.trans hhlt
      cases he
      rw [State.endStep_of_no_error h]
      exact ⟨rfl, rfl⟩
    · have hstatus : u.status = .running := by
        rw [(exec_updates he).status_eq fun hi => hne (hi ▸ hd), State.fetchInstr_status, hrun]
      rw [State.endStep_of_no_error h]
      exact ⟨hstatus, State.exitStatus_of_ne_faulted (by simp [hstatus])⟩
  · refine ⟨s, hstep, fun h => absurd herr h, fun _ hhlt => ?_, fun _ _ => ?_⟩
    · cases hd.symm.trans hhlt
    · exact ⟨hrun, State.exitStatus_of_ne_faulted (by simp [hrun])⟩
  · have hne : (s.fetchInstr.2.unknownOpcode s.fetch.1 s.ip).err ≠ [] := State.raise_err_ne_nil _ _
    rw [State.endStep_of_error hne] at hstep
    exact ⟨_, hstep, fun _ => ⟨rfl, rfl⟩, fun h => absurd h hne, fun h => absurd h hne⟩

/-! ### The streams -/

/-- Settles O18: only a `PNT` may make the updates that extend the trace. -/
theorem onlyPntWritesOutput : Obligations.OnlyPntWritesOutput := by
  refine ⟨rfl, fun s t h => ?_⟩
  obtain rfl | ⟨i, u, hi, hupd, rfl⟩ := step_updates h
  · exact ⟨List.prefix_rfl, fun _ => rfl⟩
  · rw [State.endStep_output, ← s.fetchInstr_output]
    refine ⟨hupd.output_grows, fun hpnt => hupd.output_eq fun a len => ?_⟩
    rintro rfl
    obtain hd | hnop := hi
    · exact hpnt a len hd
    · cases hnop

/-- `v` is what is left of the stream `u` when at most one byte is taken from its front. -/
def InputStream.TakesAtMostOne (u v : InputStream) : Prop :=
  (∃ used, u.pending = used ++ v.pending ∧ used.length ≤ 1) ∧ v.tail = u.tail

theorem InputStream.TakesAtMostOne.refl (u : InputStream) : u.TakesAtMostOne u := ⟨⟨[], rfl, Nat.zero_le 1⟩, rfl⟩

theorem exec_rin_takesAtMostOne {r : Nat} {s u : State} (h : exec (.rin r) s = .next u) :
    s.input.TakesAtMostOne u.input := by
  simp only [exec, execRin] at h
  obtain ⟨b, rest, hp, hr⟩ | ⟨_, _, hr⟩ | ⟨_, _, hr⟩ := s.inRead_cases <;> rw [hr] at h <;> cases h <;>
    rw [State.regWrite_input]
  · exact ⟨⟨[b], hp, Nat.le_refl 1⟩, rfl⟩
  · rw [State.raise_input]
    exact .refl s.input

theorem step_input_eq {s t : State} (h : step s = .next t) (hrin : ∀ r, decode s.fetchInstr.1 ≠ .ok (.rin r, [])) :
    t.input = s.input ∧ t.failedReads = s.failedReads := by
  obtain rfl | ⟨i, u, hi, hupd, rfl⟩ := step_updates h
  · exact ⟨rfl, rfl⟩
  · have hne : ∀ r, i ≠ .rin r := by
      rintro r rfl
      obtain hd | hnop := hi
      · exact hrin r hd
      · cases hnop
    rw [State.endStep_input, State.endStep_failedReads, hupd.input_eq hne, hupd.failedReads_eq hne]
    exact ⟨s.fetchInstr_input, s.fetchInstr_failedReads⟩

theorem step_takesAtMostOne {s t : State} (h : step s = .next t) : s.input.TakesAtMostOne t.input := by
  by_cases hrin : ∃ r, decode s.fetchInstr.1 = .ok (.rin r, [])
  · obtain ⟨r, hr⟩ := hrin
    obtain ⟨_, ⟨i, u, hd, he, rfl⟩ | ⟨_, _, _, rfl⟩ | ⟨_, hd, _⟩⟩ := step_next_cases h
    · cases hd.symm.trans hr
      rw [State.endStep_input, ← s.fetchInstr_input]
      exact exec_rin_takesAtMostOne he
    · exact .refl _
    · cases hd.symm.trans hr
  · rw [(step_input_eq h fun r hr => hrin ⟨r, hr⟩).1]
    exact .refl s.input

/-- Settles O20: what a `RIN` does to the input, and that no other instruction may touch it. -/
theorem onlyRinReadsInput : Obligations.OnlyRinReadsInput := by
  intro s t h
  obtain ⟨hpending, htail⟩ := step_takesAtMostOne h
  exact ⟨hpending, htail, step_input_eq h⟩

end Sys2Proof.Machine

/-! PROOFS. The machine never reads its output (O19): every operation but `PNT`'s own does the same with any trace, and `PNT`
appends the same events to it. Then what reset leaves in the state (O15, O56). -/

namespace Sys2Proof.Machine

/-! ### With another output trace -/

/-- What a meaning answers, with `f` applied to its next state. -/
def mapNext (f : State → State) : Result → Result
  | .next s => .next (f s)
  | .fault r => .fault r
  | .refused r => .refused r

namespace State

variable (s : State) (o : List OutEvent)

theorem fetch_setOutput : (s.setOutput o).fetch = (s.fetch.1, s.fetch.2.setOutput o) := by
  rcases State.fetch_cases s with ⟨hip, h⟩ | ⟨hip, h⟩ <;> rw [h]
  · exact if_neg hip
  · simp [State.fetch, hip, State.raise_setOutput]; rfl

theorem fetchMany_setOutput (n : Nat) :
    State.fetchMany n (s.setOutput o) = ((State.fetchMany n s).1, (State.fetchMany n s).2.setOutput o) := by
  induction n generalizing s with
  | zero => rfl
  | succ n ih => simp [State.fetchMany, State.fetch_setOutput, ih]

theorem fetchInstr_setOutput : (s.setOutput o).fetchInstr = (s.fetchInstr.1, s.fetchInstr.2.setOutput o) := by
  simp [State.fetchInstr, State.fetch_setOutput, State.fetchMany_setOutput]

theorem endStep_setOutput : (s.setOutput o).endStep = s.endStep.setOutput o := by
  by_cases h : s.err = []
  · rw [State.endStep_of_no_error h]; exact State.endStep_of_no_error h
  · rw [State.endStep_of_error h]; exact State.endStep_of_error h

theorem regVal_setOutput (r : Nat) : (s.setOutput o).regVal r = s.regVal r :=
  State.regVal_congr (fun _ => rfl) r

theorem regRead_setOutput (r : Nat) : (s.setOutput o).regRead r = ((s.regRead r).1, (s.regRead r).2.setOutput o) := by
  simp only [State.regRead_eq, regVal_setOutput, State.raiseAll_setOutput]

theorem ptr_setOutput (r : Nat) : (s.setOutput o).ptr r = ((s.ptr r).1, (s.ptr r).2.setOutput o) := by
  simp only [State.ptr_eq, State.ptrVal, regVal_setOutput, State.raiseAll_setOutput]

theorem regWrite_setOutput (r : Nat) (v : Byte) : (s.setOutput o).regWrite r v = (s.regWrite r v).setOutput o := by
  unfold State.regWrite
  split
  · rfl
  · rw [State.raise_setOutput]

theorem aluRegReg_setOutput (f : Byte → Byte → Byte) (a b : Nat) :
    (s.setOutput o).aluRegReg f a b = (s.aluRegReg f a b).setOutput o := by
  simp only [State.aluRegReg, regRead_setOutput]; rfl

theorem aluRegLit_setOutput (f : Byte → Byte → Byte) (r : Nat) (lit : Byte) :
    (s.setOutput o).aluRegLit f r lit = (s.aluRegLit f r lit).setOutput o := by
  simp only [State.aluRegLit, regRead_setOutput]; rfl

theorem aluInPlace_setOutput (f : Byte → Byte) (r : Nat) :
    (s.setOutput o).aluInPlace f r = (s.aluInPlace f r).setOutput o := by
  simp only [State.aluInPlace, regRead_setOutput, regWrite_setOutput]

theorem jumpIf_setOutput (c : Bool) (addr : Word) : (s.setOutput o).jumpIf c addr = (s.jumpIf c addr).setOutput o := by
  simp only [State.jumpIf_eq]; rfl

theorem push_setOutput (v : Byte) : (s.setOutput o).push v = (s.push v).setOutput o := by
  unfold State.push
  by_cases hsp : s.sp = Config.stackLimit
  · simp only [State.setOutput_sp, hsp, if_true, State.raise_setOutput]
  · by_cases hfs : s.fs = Config.frameLimit
    · simp [hsp, hfs, State.raise_setFs, State.raise_setOutput]; rfl
    · simp [hsp, hfs]; rfl

theorem save_setOutput (v : Byte) : (s.setOutput o).save v = (s.save v).setOutput o := by
  unfold State.save
  by_cases hsp : s.sp = Config.stackLimit
  · simp only [State.setOutput_sp, hsp, if_true, State.raise_setOutput]
  · simp [hsp]; rfl

theorem saveAll_setOutput (vs : List Byte) : (s.setOutput o).saveAll vs = (s.saveAll vs).setOutput o := by
  induction vs generalizing s with
  | nil => rfl
  | cons v rest ih => rw [State.saveAll_cons, save_setOutput, ih, State.saveAll_cons]

/-- What a range of output appends to the trace: the bytes of the range, in order. -/
theorem outRange_output (n : Nat) (a : Word) :
    (State.outRange n a s).output =
      s.output ++ (List.range n).map fun k => OutEvent.byte (s.memRead (a + BitVec.ofNat 16 k)) := by
  induction n generalizing a s with
  | zero => simp [State.outRange]
  | succ n ih =>
    have hnext (k : Nat) : a + BitVec.ofNat 16 (k + 1) = a + 1 + BitVec.ofNat 16 k := by
      rw [BitVec.ofNat_add]; ac_rfl
    rw [State.outRange, ih, List.range_succ_eq_map, List.map_cons, List.map_map, State.out_output, List.append_assoc]
    simp only [Function.comp_def, Nat.succ_eq_add_one, hnext, State.out_memRead, BitVec.add_zero,
      List.singleton_append]

/-- Everything `PNT` does: it appends the bytes of the range and a flush mark (spec/46_io.md R181). -/
theorem outRange_outFlush (n : Nat) (a : Word) :
    (State.outRange n a s).outFlush = s.setOutput (s.output ++
      ((List.range n).map (fun k => OutEvent.byte (s.memRead (a + BitVec.ofNat 16 k))) ++ [.flush])) := by
  rw [State.outRange_eq, outRange_output, ← List.append_assoc]; rfl

end State

/-- Every instruction but `PNT` does the same with any trace, which it leaves as it is. -/
theorem exec_setOutput {i : Instr} (hi : ∀ a len, i ≠ .pnt a len) (s : State) (o : List OutEvent) :
    exec i (s.setOutput o) = mapNext (·.setOutput o) (exec i s) := by
  cases i with
  | nop | jmp _ | ret | hlt => rfl
  | mlr lit d => simp only [exec, execMlr, mapNext, State.regWrite_setOutput]
  | mrr a d => simp only [exec, execMrr, mapNext, State.regRead_setOutput, State.regWrite_setOutput]
  | mlm lit p => simp only [exec, execMlm, mapNext, State.ptr_setOutput]; rfl
  | mrm a p => simp only [exec, execMrm, mapNext, State.regRead_setOutput, State.ptr_setOutput]; rfl
  | mmr p d =>
    simp only [exec, execMmr, mapNext, State.ptr_setOutput, State.regWrite_setOutput, State.setOutput_memRead]
  | lnd a b | lor a b | lxr a b | lbc a b | add a b | sub a b | mul a b =>
    exact congrArg Host.Outcome.next (s.aluRegReg_setOutput o _ a b)
  | lsl r lit | lsr r lit => exact congrArg Host.Outcome.next (s.aluRegLit_setOutput o _ r lit)
  | inc r | dec r => exact congrArg Host.Outcome.next (s.aluInPlace_setOutput o _ r)
  | div a b =>
    simp only [exec, execDiv, State.regRead_setOutput]
    split
    · simp only [mapNext, State.raise_setOutput]
    · rfl
  | jeq r a | jne r a =>
    simp only [exec, execJeq, execJne, mapNext, State.regRead_setOutput, State.jumpIf_setOutput, State.setOutput_x]
  | spl lit => exact congrArg Host.Outcome.next (s.push_setOutput o lit)
  | spr r => simp only [exec, execSpr, mapNext, State.regRead_setOutput, State.push_setOutput]
  | stp r =>
    have hrefused : (s.setOutput o).popRefused = s.popRefused := rfl
    simp only [exec, execStp, hrefused]
    split
    · simp only [mapNext, State.raise_setOutput]
    · exact congrArg Host.Outcome.next (State.regWrite_setOutput s.pop.2 o r _)
  | cll a => exact congrArg (fun t => Host.Outcome.next ((t.setFs 0).setIp a)) (s.saveAll_setOutput o s.frame)
  | rin r =>
    cases hp : s.input.pending with
    | cons b rest =>
      simp only [exec, execRin, State.inRead, State.setOutput_input, hp]
      exact congrArg Host.Outcome.next (State.regWrite_setOutput (s.setInput _) o r b)
    | nil =>
      cases ht : s.input.tail with
      | fails =>
        simp only [exec, execRin, State.inRead, State.setOutput_input, hp, ht, mapNext, ← State.regWrite_setOutput,
          State.raise_setOutput]
        rfl
      | silent => simp only [exec, execRin, State.inRead, State.setOutput_input, hp, ht, mapNext]
  | pnt a len => exact absurd rfl (hi a len)

/-- Over another trace, an instruction that completes appends the same events and does the same to everything else. -/
theorem exec_next_setOutput {i : Instr} {s u : State} (h : exec i s = .next u) (o : List OutEvent) :
    exec i (s.setOutput o) = .next (u.setOutput (o ++ u.output.drop s.output.length)) := by
  by_cases hi : ∃ a len, i = .pnt a len
  · obtain ⟨a, len, rfl⟩ := hi
    simp only [exec, execPnt, State.outRange_outFlush, Host.Outcome.next.injEq] at h ⊢
    subst h
    simp only [State.setOutput_output, List.drop_left]
    rfl
  · have hne : ∀ a len, i ≠ .pnt a len := fun a len hpnt => hi ⟨a, len, hpnt⟩
    rw [exec_setOutput hne, h, (exec_updates h).output_eq hne, List.drop_length, List.append_nil]
    rfl

/-- Settles O19: with any trace the bytes fetched are the same, and so is what the step does with them. -/
theorem outputIsNeverRead : Obligations.OutputIsNeverRead := by
  intro s t o h
  have hfetch := s.fetchInstr_setOutput o
  have hbytes : decode (s.setOutput o).fetchInstr.1 = decode s.fetchInstr.1 := by rw [hfetch]
  obtain ⟨hrun, ⟨i, u, hd, he, rfl⟩ | ⟨i, hd, he, rfl⟩ | ⟨_, hd, rfl⟩⟩ := step_next_cases h
  · rw [step_of_decode (s := s.setOutput o) hrun (hbytes.trans hd), hfetch, exec_next_setOutput he, s.fetchInstr_output,
      State.endStep_output, ← State.endStep_setOutput]
    rfl
  · obtain ⟨r, rfl⟩ := exec_fault he
    rw [step_of_decode (s := t.setOutput o) hrun (hbytes.trans hd), hfetch, exec_setOutput (fun _ _ hi => by cases hi), he,
      List.drop_length, List.append_nil]
    rfl
  · have hop : (s.setOutput o).fetch.1 = s.fetch.1 := by rw [s.fetch_setOutput o]
    rw [step_of_unknownOpcode (s := s.setOutput o) hrun (by rw [hbytes, hd, hop]), hfetch, hop]
    simp [State.unknownOpcode, State.endStep_setOutput, ← State.raise_setOutput]

/-! ### What reset leaves -/

theorem State.reset_x (r : Fin 8) : State.reset.x r = 0x00 := by
  simp [State.x, State.reset]

/-- Settles O15: no error is recorded, and the memory is the one given. -/
theorem resetMeetsInvariant : Obligations.ResetMeetsInvariant := by
  have hinv {s : State} (hwf : s.mem.wf = true) (herr : s.err = []) (hrun : s.status = .running) : s.Inv :=
    ⟨hwf, by simp [herr], by simp [herr, hrun]⟩
  exact ⟨hinv State.reset_mem_wf rfl rfl, fun _ _ hwf => hinv hwf rfl rfl, fun _ _ hwf => hinv hwf rfl rfl⟩

/-- Settles O56: every field but the registers is its reset value as it stands. -/
theorem resetValues : Obligations.ResetValues :=
  fun _ _ => ⟨State.reset_x, rfl, rfl, rfl, rfl, rfl, rfl, rfl, fun _ => rfl, State.reset_x, rfl, rfl, rfl, rfl, rfl, rfl⟩

end Sys2Proof.Machine

/-! PROOFS. The memory as a data type (O27, O28): a write sets one cell, and a canonical memory is its image. -/

namespace Sys2Proof.Machine

/-- Settles O27, from the laws of `State.memWrite`. -/
theorem memoryReadAfterWrite : Obligations.MemoryReadAfterWrite :=
  fun s a v hwf => ⟨s.memWrite_memRead_same hwf a v, fun _ hb => s.memWrite_memRead_other hwf v hb.symm, _, rfl⟩

/-! ### A canonical memory is determined by its bytes -/

theorem Memory.wfFrom_cons {n k : Nat} {w : Byte} {rest : Memory} (h : Memory.wfFrom n ((k, w) :: rest) = true) :
    k < Config.memSize ∧ w ≠ Config.unlistedByte ∧ rest.wfFrom (k + 1) = true := by
  simp only [Memory.wfFrom, Bool.and_eq_true, decide_eq_true_eq] at h
  obtain ⟨⟨⟨_, hk⟩, hw⟩, hrest⟩ := h
  exact ⟨hk, hw, hrest⟩

theorem Memory.wfFrom_head {n k : Nat} {w : Byte} {rest : Memory} (h : Memory.wfFrom n ((k, w) :: rest) = true) :
    Memory.wfFrom k ((k, w) :: rest) = true := by
  obtain ⟨hk, hw, hrest⟩ := Memory.wfFrom_cons h
  simp [Memory.wfFrom, hk, hw, hrest]

/-- The first cell of a canonical memory tells it from one that lists higher addresses alone. -/
theorem Memory.read_head_ne {n k : Nat} {w : Byte} {rest m : Memory} (h : Memory.wfFrom n ((k, w) :: rest) = true)
    (hm : m.wfFrom (k + 1) = true) : Memory.read ((k, w) :: rest) k ≠ m.read k := by
  obtain ⟨_, hw, _⟩ := Memory.wfFrom_cons h
  rw [Memory.read_below hm (Nat.lt_succ_self k)]
  simpa [Memory.read] using hw

/-- Canonical memories with the same bytes are the same list: their first cells must agree, and then so do the others. -/
theorem Memory.eq_of_read_eq {n : Nat} {m m' : Memory} (h : m.wfFrom n = true) (h' : m'.wfFrom n = true)
    (hread : ∀ a, a < Config.memSize → m.read a = m'.read a) : m = m' := by
  induction m generalizing n m' with
  | nil =>
    cases m' with
    | nil => rfl
    | cons cell' rest' => exact absurd (hread _ (Memory.wfFrom_cons h').1).symm (Memory.read_head_ne h' rfl)
  | cons cell rest ih =>
    obtain ⟨k, w⟩ := cell
    obtain ⟨hk, _, hrest⟩ := Memory.wfFrom_cons h
    cases m' with
    | nil => exact absurd (hread k hk) (Memory.read_head_ne h rfl)
    | cons cell' rest' =>
      obtain ⟨k', w'⟩ := cell'
      obtain ⟨hk', _, hrest'⟩ := Memory.wfFrom_cons h'
      obtain hlt | rfl | hgt := Nat.lt_trichotomy k k'
      · exact absurd (hread k hk) (Memory.read_head_ne h (Memory.wfFrom_mono hlt (Memory.wfFrom_head h')))
      · have hw : w = w' := by simpa [Memory.read] using hread k hk
        have hrests : rest = rest' := ih hrest hrest' fun a ha => by
          obtain hka | hak := Nat.lt_or_ge k a
          · simpa [Memory.read, Nat.ne_of_lt hka] using hread a ha
          · rw [Memory.read_below hrest (Nat.lt_succ_of_le hak), Memory.read_below hrest' (Nat.lt_succ_of_le hak)]
        rw [hw, hrests]
      · exact absurd (hread k' hk').symm (Memory.read_head_ne h' (Memory.wfFrom_mono hgt (Memory.wfFrom_head h)))

/-! ### Every image is some canonical memory -/

/-- The first `n` bytes of an image, written one after another from the empty memory. -/
theorem Memory.exists_wf_read_eq (image : Nat → Byte) {n : Nat} (hn : n ≤ Config.memSize) :
    ∃ m : Memory, m.wf = true ∧ ∀ a, a < n → m.read a = image a := by
  induction n with
  | zero => exact ⟨[], rfl, nofun⟩
  | succ n ih =>
    obtain ⟨m, hwf, hread⟩ := ih (Nat.le_of_succ_le hn)
    refine ⟨m.write n (image n), Memory.write_wf hn hwf, fun a ha => ?_⟩
    rw [Memory.write_read hwf]
    split
    · next h => rw [h]
    · next h => exact hread a (Nat.lt_of_le_of_ne (Nat.le_of_lt_succ ha) (Ne.symm h))

/-- Settles O28: extensionality along the two lists, and an image written byte by byte. -/
theorem canonicalMemoryIsTheImage : Obligations.CanonicalMemoryIsTheImage :=
  ⟨fun _ _ hwf hwf' hread => Memory.eq_of_read_eq hwf hwf' hread,
    fun image => Memory.exists_wf_read_eq image (Nat.le_refl Config.memSize)⟩

end Sys2Proof.Machine

/-! PROOFS. The step and the memory port (O16, O23): over another memory that answers the reads of the port the same,
every operation does the same to everything else and makes the same writes. Over the step's own memory that says what the
step does to it. -/

namespace Sys2Proof.Machine

theorem State.Updates.mem_eq {i : Instr} {s t : State} (h : s.Updates i t) (hi : i.writesMemory = false) :
    t.mem = s.mem :=
  apply_eq State.mem (fun _ _ hu => by cases hu <;> simp_all) h

/-- Settles O23, from the updates an instruction may make. -/
theorem memoryWrittenAsTabled : Obligations.MemoryWrittenAsTabled := by
  intro i s t h hi a
  rw [State.memRead, State.memRead, (exec_updates h).mem_eq hi]

/-! ### What the port's accesses do to a memory -/

@[simp] theorem Memory.applyAll_nil (m : Memory) : m.applyAll [] = m := rfl

@[simp] theorem Memory.applyAll_read (m : Memory) (a : Word) (as : List MemAccess) :
    m.applyAll (.read a :: as) = m.applyAll as := rfl

@[simp] theorem Memory.applyAll_write (m : Memory) (a : Word) (v : Byte) (as : List MemAccess) :
    m.applyAll (.write a v :: as) = (m.write a.toNat v).applyAll as := rfl

theorem Memory.applyAll_append (m : Memory) (as bs : List MemAccess) :
    m.applyAll (as ++ bs) = (m.applyAll as).applyAll bs := List.foldl_append

@[simp] theorem Memory.applyAll_fetchAccesses (m : Memory) (n : Nat) (ip : Word) :
    m.applyAll (fetchAccesses n ip) = m := by
  induction n generalizing ip with
  | zero => rfl
  | succ n ih =>
    unfold fetchAccesses
    split <;> exact ih (ip + 1)

@[simp] theorem Memory.applyAll_restoreAccesses (m : Memory) (n : Nat) (sp : Word) :
    m.applyAll (restoreAccesses n sp) = m := by
  induction n generalizing sp with
  | zero => rfl
  | succ n ih => exact ih (sp - 1)

@[simp] theorem Memory.applyAll_rangeAccesses (m : Memory) (n : Nat) (a : Word) :
    m.applyAll (rangeAccesses n a) = m := by
  induction n generalizing a with
  | zero => rfl
  | succ n ih => exact ih (a + 1)

/-! ### A memory that answers the reads of a list of accesses as the state's own does -/

/-- `m` holds what `s` does at every address that `as` reads. -/
def State.AnsweredBy (s : State) (as : List MemAccess) (m : Memory) : Prop :=
  ∀ a, MemAccess.read a ∈ as → m.read a.toNat = s.memRead a

namespace State.AnsweredBy

variable {s t : State} {as bs : List MemAccess} {m : Memory}

theorem self (s : State) (as : List MemAccess) : s.AnsweredBy as s.mem := fun _ _ => rfl

theorem congr (h : s.AnsweredBy as m) (hmem : t.mem = s.mem) : t.AnsweredBy as m := fun a ha => by
  rw [h a ha, State.memRead, State.memRead, hmem]

theorem append (h : s.AnsweredBy (as ++ bs) m) : s.AnsweredBy as m ∧ s.AnsweredBy bs m :=
  ⟨fun a ha => h a (List.mem_append_left bs ha), fun a ha => h a (List.mem_append_right as ha)⟩

theorem cons_iff {a : Word} :
    s.AnsweredBy (.read a :: as) m ↔ m.read a.toNat = s.memRead a ∧ s.AnsweredBy as m := by
  simp [AnsweredBy]

end State.AnsweredBy

/-! ### What a checked access delivers, and what it leaves -/

namespace State

theorem regRead_value (s : State) (r : Nat) : (s.regRead r).1 = s.regVal r := by rw [State.regRead_eq]

theorem regRead_sp (s : State) (r : Nat) : (s.regRead r).2.sp = s.sp := by rw [State.regRead_eq, State.raiseAll_sp]

theorem regRead_ptrVal (s : State) (r p : Nat) : (s.regRead r).2.ptrVal p = s.ptrVal p := by
  rw [State.regRead_eq, State.ptrVal_raiseAll]

theorem ptr_value (s : State) (p : Nat) : (s.ptr p).1 = s.ptrVal p := by rw [State.ptr_eq]

theorem ptr_memRead (s : State) (p : Nat) (a : Word) : (s.ptr p).2.memRead a = s.memRead a := by
  rw [State.ptr_eq, State.raiseAll_memRead]

end State

/-! ### The operations over another memory -/

namespace State

variable (s : State) (m : Memory)

theorem setMem_memRead (a : Word) : (s.setMem m).memRead a = m.read a.toNat := rfl

theorem endStep_setMem : (s.setMem m).endStep = s.endStep.setMem m := by
  by_cases h : s.err = []
  · rw [State.endStep_of_no_error h]; exact State.endStep_of_no_error h
  · rw [State.endStep_of_error h]; exact State.endStep_of_error h

theorem regVal_setMem (r : Nat) : (s.setMem m).regVal r = s.regVal r :=
  State.regVal_congr (fun _ => rfl) r

theorem regRead_setMem (r : Nat) : (s.setMem m).regRead r = ((s.regRead r).1, (s.regRead r).2.setMem m) := by
  simp only [State.regRead_eq, regVal_setMem, State.raiseAll_setMem]

theorem ptr_setMem (r : Nat) : (s.setMem m).ptr r = ((s.ptr r).1, (s.ptr r).2.setMem m) := by
  simp only [State.ptr_eq, State.ptrVal, regVal_setMem, State.raiseAll_setMem]

theorem regWrite_setMem (r : Nat) (v : Byte) : (s.setMem m).regWrite r v = (s.regWrite r v).setMem m := by
  unfold State.regWrite
  split
  · rfl
  · rw [State.raise_setMem]

theorem aluRegReg_setMem (f : Byte → Byte → Byte) (a b : Nat) :
    (s.setMem m).aluRegReg f a b = (s.aluRegReg f a b).setMem m := by
  simp only [State.aluRegReg, regRead_setMem]; rfl

theorem aluRegLit_setMem (f : Byte → Byte → Byte) (r : Nat) (lit : Byte) :
    (s.setMem m).aluRegLit f r lit = (s.aluRegLit f r lit).setMem m := by
  simp only [State.aluRegLit, regRead_setMem]; rfl

theorem aluInPlace_setMem (f : Byte → Byte) (r : Nat) :
    (s.setMem m).aluInPlace f r = (s.aluInPlace f r).setMem m := by
  simp only [State.aluInPlace, regRead_setMem, regWrite_setMem]

theorem jumpIf_setMem (c : Bool) (addr : Word) : (s.setMem m).jumpIf c addr = (s.jumpIf c addr).setMem m := by
  simp only [State.jumpIf_eq]; rfl

theorem memWrite_setMem (a : Word) (v : Byte) :
    (s.setMem m).memWrite a v = (s.memWrite a v).setMem (m.write a.toNat v) := rfl

theorem push_setMem (v : Byte) : (s.setMem m).push v = (s.push v).setMem (m.applyAll (saveAccesses s.sp [v])) := by
  unfold State.push
  by_cases hsp : s.sp = Config.stackLimit
  · simp [hsp, saveAccesses, State.raise_setMem]
  · by_cases hfs : s.fs = Config.frameLimit
    · simp [hsp, hfs, saveAccesses, State.raise_setFs, State.raise_setMem]; rfl
    · simp [hsp, hfs, saveAccesses]; rfl

theorem save_setMem (v : Byte) : (s.setMem m).save v = (s.save v).setMem (m.applyAll (saveAccesses s.sp [v])) := by
  unfold State.save
  by_cases hsp : s.sp = Config.stackLimit
  · simp [hsp, saveAccesses, State.raise_setMem]
  · simp [hsp, saveAccesses]; rfl

/-- The accesses of a row of saves are those of the first save, then those of the others. -/
theorem applyAll_saveAccesses_cons (v : Byte) (vs : List Byte) :
    m.applyAll (saveAccesses s.sp (v :: vs)) =
      (m.applyAll (saveAccesses s.sp [v])).applyAll (saveAccesses (s.save v).sp vs) := by
  rcases State.save_cases s v with ⟨hs, h⟩ | ⟨hs, h⟩
  · have hstop : saveAccesses s.sp vs = [] := by cases vs <;> simp [saveAccesses, hs]
    rw [h, State.raise_sp, hstop]
    simp [saveAccesses, hs]
  · simp [h, saveAccesses, hs]

theorem saveAll_setMem (vs : List Byte) :
    (s.setMem m).saveAll vs = (s.saveAll vs).setMem (m.applyAll (saveAccesses s.sp vs)) := by
  induction vs generalizing s m with
  | nil => rfl
  | cons v rest ih =>
    rw [State.saveAll_cons, save_setMem, ih, ← applyAll_saveAccesses_cons s m v rest, State.saveAll_cons]

variable {s m}

theorem outRange_setMem {n : Nat} {a : Word} (h : s.AnsweredBy (rangeAccesses n a) m) :
    State.outRange n a (s.setMem m) = (State.outRange n a s).setMem m := by
  induction n generalizing a s with
  | zero => rfl
  | succ n ih =>
    obtain ⟨ha, hrest⟩ := AnsweredBy.cons_iff.1 h
    rw [State.outRange, setMem_memRead, ha]
    exact ih (hrest.congr (State.out_mem s _))

/-! The bytes fetched are the ones the port reads. -/

theorem fetch_ip (s : State) : s.fetch.2.ip = s.ip + 1 := by
  obtain ⟨rs, h, _⟩ := s.fetch_state
  rw [h, State.raiseAll_ip, State.setIp_ip]

theorem fetch_mem (s : State) : s.fetch.2.mem = s.mem := by
  obtain ⟨rs, h, _⟩ := s.fetch_state
  rw [h, State.raiseAll_mem, State.setIp_mem]

theorem fetch_setMem (h : s.AnsweredBy (fetchAccesses 1 s.ip) m) :
    (s.setMem m).fetch = (s.fetch.1, s.fetch.2.setMem m) := by
  unfold State.fetch
  by_cases hip : s.ip = Config.fetchLimit
  · simp [hip, State.raise_setMem]; rfl
  · have hread : m.read s.ip.toNat = s.memRead s.ip := h s.ip (by simp [fetchAccesses, hip])
    simp [hip, setMem_memRead, hread]; rfl

theorem fetchAccesses_succ (n : Nat) (ip : Word) :
    fetchAccesses (n + 1) ip = fetchAccesses 1 ip ++ fetchAccesses n (ip + 1) := by
  simp [fetchAccesses]

theorem fetchMany_setMem {n : Nat} (h : s.AnsweredBy (fetchAccesses n s.ip) m) :
    State.fetchMany n (s.setMem m) = ((State.fetchMany n s).1, (State.fetchMany n s).2.setMem m) := by
  induction n generalizing s with
  | zero => rfl
  | succ n ih =>
    rw [fetchAccesses_succ] at h
    obtain ⟨hfirst, hrest⟩ := h.append
    rw [← fetch_ip] at hrest
    simp [State.fetchMany, fetch_setMem hfirst, ih (hrest.congr s.fetch_mem)]

/-- The bytes of an instruction are as many fetches in a row as its opcode asks for. -/
theorem fetchInstr_eq_fetchMany (s : State) : s.fetchInstr = State.fetchMany (operandBytes s.fetch.1 + 1) s := rfl

theorem fetchInstr_length (s : State) : s.fetchInstr.1.length = operandBytes s.fetch.1 + 1 :=
  State.fetchMany_length (operandBytes s.fetch.1 + 1) s

theorem AnsweredBy.opcode (h : s.AnsweredBy (fetchAccesses s.fetchInstr.1.length s.ip) m) :
    s.AnsweredBy (fetchAccesses 1 s.ip) m := by
  rw [fetchInstr_length, fetchAccesses_succ] at h
  exact h.append.1

theorem fetchInstr_setMem (h : s.AnsweredBy (fetchAccesses s.fetchInstr.1.length s.ip) m) :
    (s.setMem m).fetchInstr = (s.fetchInstr.1, s.fetchInstr.2.setMem m) := by
  rw [fetchInstr_eq_fetchMany (s.setMem m), fetch_setMem h.opcode]
  rw [fetchInstr_length] at h
  exact fetchMany_setMem h

end State

/-! ### An instruction over another memory -/

/-- `RET` makes nine reads below the callee's bytes, and uses the memory for nothing else. -/
theorem execRet_setMem {s : State} {m : Memory} (h : s.AnsweredBy (dataAccesses .ret s) m) :
    execRet (s.setMem m) = mapNext (·.setMem m) (execRet s) := by
  simp only [dataAccesses, restoreAccesses, State.AnsweredBy.cons_iff] at h
  simp only [execRet, State.restoreX_eq, State.restore, mapNext, State.setIp_sp, State.setSp_sp, State.setX_sp,
    State.setMem_sp, State.setMem_fs, State.setIp_memRead, State.setSp_memRead, State.setX_memRead,
    State.setMem_memRead, h]
  rfl

/-- Over a memory that answers an instruction's reads the same, it makes the same writes and does the same to everything
else; a `RIN` that waits goes on waiting. -/
theorem exec_setMem {i : Instr} {s : State} {m : Memory} (h : s.AnsweredBy (dataAccesses i s) m) :
    exec i (s.setMem m) = mapNext (·.setMem (m.applyAll (dataAccesses i s))) (exec i s) := by
  cases i with
  | nop | jmp _ | hlt => rfl
  | mlr lit d => exact congrArg Host.Outcome.next (s.regWrite_setMem m d lit)
  | mrr a d => simp only [exec, execMrr, mapNext, State.regRead_setMem, State.regWrite_setMem]; rfl
  | mlm lit p =>
    simp only [exec, execMlm, mapNext, State.ptr_setMem, State.memWrite_setMem, State.ptr_value]
    rfl
  | mrm a p =>
    simp only [exec, execMrm, mapNext, State.regRead_setMem, State.ptr_setMem, State.memWrite_setMem, State.ptr_value,
      State.regRead_ptrVal, State.regRead_value]
    rfl
  | mmr p d =>
    obtain ⟨hread, _⟩ := State.AnsweredBy.cons_iff.1 h
    simp only [exec, execMmr, mapNext, State.ptr_setMem, State.setMem_memRead, State.ptr_value, State.ptr_memRead, hread,
      State.regWrite_setMem]
    rfl
  | lnd a b | lor a b | lxr a b | lbc a b | add a b | sub a b | mul a b =>
    exact congrArg Host.Outcome.next (s.aluRegReg_setMem m _ a b)
  | lsl r lit | lsr r lit => exact congrArg Host.Outcome.next (s.aluRegLit_setMem m _ r lit)
  | inc r | dec r => exact congrArg Host.Outcome.next (s.aluInPlace_setMem m _ r)
  | div a b =>
    simp only [exec, execDiv, State.regRead_setMem]
    split
    · exact congrArg Host.Outcome.next (State.raise_setMem _ _ m).symm
    · rfl
  | jeq r a | jne r a =>
    simp only [exec, execJeq, execJne, mapNext, State.regRead_setMem, State.jumpIf_setMem, State.setMem_x]
    rfl
  | spl lit => exact congrArg Host.Outcome.next (s.push_setMem m lit)
  | spr r =>
    simp only [exec, execSpr, mapNext, State.regRead_setMem, State.push_setMem, State.regRead_sp, State.regRead_value]
    rfl
  | stp r =>
    have hrefused : (s.setMem m).popRefused = s.popRefused := rfl
    simp only [exec, execStp, hrefused]
    simp only [dataAccesses] at h ⊢
    split
    · exact congrArg Host.Outcome.next (State.raise_setMem s _ m).symm
    · next hpop =>
      rw [if_neg hpop] at h
      obtain ⟨hread, _⟩ := State.AnsweredBy.cons_iff.1 h
      simp only [State.pop_eq, State.setMem_sp, State.setMem_fs, State.setMem_memRead, hread]
      exact congrArg Host.Outcome.next (State.regWrite_setMem s.pop.2 m r _)
  | cll a => exact congrArg (fun t => Host.Outcome.next ((t.setFs 0).setIp a)) (s.saveAll_setMem m s.frame)
  | ret => exact execRet_setMem h
  | pnt a len =>
    simp only [exec, execPnt, mapNext, State.outRange_setMem h, dataAccesses, Memory.applyAll_rangeAccesses]
    rfl
  | rin r =>
    simp only [exec, execRin]
    cases hp : s.input.pending with
    | cons b rest =>
      simp only [State.inRead, State.setMem_input, hp]
      exact congrArg Host.Outcome.next (State.regWrite_setMem (s.setInput _) m r b)
    | nil =>
      cases ht : s.input.tail with
      | fails =>
        simp only [State.inRead, State.setMem_input, hp, ht, mapNext, ← State.regWrite_setMem, State.raise_setMem]
        rfl
      | silent => simp only [State.inRead, State.setMem_input, hp, ht, mapNext]

/-! ### A step over another memory -/

/-- Everything a step that answers a next state can do with the memory: it waits for input and carries no access, or it
uses the memory only through the accesses it carries. -/
theorem step_setMem_cases {s t : State} (h : step s = .next t) :
    ((∃ r, decode s.fetchInstr.1 = .ok (.rin r, []) ∧ s.Waits) ∧ s.memAccesses = [] ∧ t = s) ∨
    (∀ m, s.AnsweredBy s.memAccesses m → step (s.setMem m) = .next (t.setMem (m.applyAll s.memAccesses))) := by
  obtain ⟨hrun, ⟨i, u, hd, he, rfl⟩ | ⟨i, hd, he, rfl⟩ | ⟨_, hd, rfl⟩⟩ := step_next_cases h
  · refine .inr fun m hm => ?_
    rw [State.memAccesses_of_next hrun hd he] at hm ⊢
    obtain ⟨hfetches, hdata⟩ := hm.append
    have hfetch := State.fetchInstr_setMem hfetches
    have hexec := exec_setMem (hdata.congr s.fetchInstr_mem)
    rw [step_of_decode (s := s.setMem m) hrun (by rw [hfetch]; exact hd), hfetch, hexec, he, Memory.applyAll_append,
      Memory.applyAll_fetchAccesses, ← State.endStep_setMem]
    rfl
  · obtain ⟨_, hnext, _⟩ | ⟨⟨r, rfl⟩, hwaits, _⟩ := exec_cases i t.fetchInstr.2
    · cases hnext.symm.trans he
    · rw [State.Waits, State.fetchInstr_input] at hwaits
      exact .inl ⟨⟨r, hd, hwaits⟩, State.memAccesses_of_fault hd he, rfl⟩
  · refine .inr fun m hm => ?_
    rw [State.memAccesses_of_error hrun hd] at hm ⊢
    have hfetch := State.fetchInstr_setMem hm
    have hop : (s.setMem m).fetch.1 = s.fetch.1 := by rw [State.fetch_setMem hm.opcode]
    rw [step_of_unknownOpcode (s := s.setMem m) hrun (by rw [hfetch, hd, hop]), hfetch, hop,
      Memory.applyAll_fetchAccesses, ← State.endStep_setMem, State.unknownOpcode, State.unknownOpcode,
      State.raise_setMem]
    rfl

/-- Settles O16: the second clause is what `step_setMem_cases` says; the first is the same over the step's own memory,
which answers every read as itself. -/
theorem memoryFollowsThePort : Obligations.MemoryFollowsThePort := by
  refine ⟨fun s t h => ?_, fun s t m h hanswered hm => ?_⟩
  · obtain ⟨_, hnone, rfl⟩ | hstep := step_setMem_cases h
    · rw [hnone, Memory.applyAll_nil]
    · have hown := hstep s.mem (.self s _)
      rw [State.setMem_self, h, Host.Outcome.next.injEq] at hown
      exact congrArg State.mem hown
  · obtain ⟨⟨r, hd, hwaits⟩, _⟩ | hstep := step_setMem_cases h
    · exact absurd hwaits (hanswered r hd)
    · exact hstep m hm

end Sys2Proof.Machine

/-! PROOFS. The encoding (O1, O2, O3, O4): an instruction's operand bytes are what its table row assembles it from; every
row of the table assembles an instruction from the very bytes that encode it, which is said per format (R82) and not per
opcode; and the table has no row beyond the 29 opcodes. -/

namespace Sys2Proof

/-! ### From an instruction to its bytes and back -/

theorem Instr.wellFormed_iff (i : Instr) : i.wellFormed = true ↔ ∀ r ∈ i.regOperands, r < 256 := by
  simp [Instr.wellFormed]

/-- The row of a well-formed instruction assembles it from its operand bytes: a literal is its byte, an address is joined
from its two bytes, and a register index is what its byte holds, because it fits one (R81, R83). -/
theorem Instr.assemble_operands {i : Instr} (h : i.wellFormed = true) (rest : List Byte) :
    i.row.assemble (i.operands ++ rest) = .ok (i, rest) := by
  rw [Instr.wellFormed_iff] at h
  cases i with
  | nop | ret | hlt | spl lit => rfl
  | jmp addr | cll addr | pnt addr len => simp [Instr.row, Instr.operands, OpcodeRow.assemble]
  | inc r | dec r | spr r | stp r | rin r | mlr lit r | mlm lit r | lsl r lit | lsr r lit | jeq r addr | jne r addr =>
    have hr : r < 256 := h r (.head _)
    simp [Instr.row, Instr.operands, OpcodeRow.assemble, hr]
  | mrr a b | mrm a b | mmr a b | lnd a b | lor a b | lxr a b | lbc a b | add a b | sub a b | mul a b | div a b =>
    have ha : a < 256 := h a (.head _)
    have hb : b < 256 := h b (.tail _ (.head _))
    simp [Instr.row, Instr.operands, OpcodeRow.assemble, ha, hb]

/-- Settles O1: the opcode selects the instruction's row, which assembles the instruction from its operand bytes. -/
theorem decodeInvertsEncode : Obligations.DecodeInvertsEncode := by
  intro i rest h
  rw [encode, List.cons_append, decode_cons, opcodeRow_opcode]
  exact i.assemble_operands h rest

/-! ### From bytes to an instruction and back -/

/-- `i` is well formed, and `bytes` are its encoding. -/
def Instr.EncodedBy (i : Instr) (bytes : List Byte) : Prop := i.wellFormed = true ∧ encode i = bytes

/-- What a row assembles from its operand bytes is encoded by `op` and those bytes, each in its place: the formats of
spec/30_encoding.md R82. -/
def OpcodeRow.Encodes (op : Byte) : OpcodeRow → Prop
  | .op i => i.EncodedBy [op]
  | .opLit f => ∀ lit, (f lit).EncodedBy [op, lit]
  | .opReg f => ∀ reg : Byte, (f reg.toNat).EncodedBy [op, reg]
  | .opLitReg f => ∀ lit reg : Byte, (f lit reg.toNat).EncodedBy [op, lit, reg]
  | .opRegReg f => ∀ ra rb : Byte, (f ra.toNat rb.toNat).EncodedBy [op, ra, rb]
  | .opRegLit f => ∀ reg lit : Byte, (f reg.toNat lit).EncodedBy [op, reg, lit]
  | .opAddr f => ∀ hi lo, (f (joinBytes hi lo)).EncodedBy [op, hi, lo]
  | .opRegAddr f => ∀ reg hi lo : Byte, (f reg.toNat (joinBytes hi lo)).EncodedBy [op, reg, hi, lo]
  | .opAddrLit f => ∀ hi lo len, (f (joinBytes hi lo) len).EncodedBy [op, hi, lo, len]

theorem byte_toNat_lt (b : Byte) : b.toNat < 256 := b.isLt

/-- Every row of the table keeps to its format, with the opcode that selects it. -/
theorem opcodeRow_encodes {op : Byte} {row : OpcodeRow} (h : opcodeRow op = some row) : row.Encodes op := by
  unfold opcodeRow at h
  split at h
  case h_30 => cases h
  all_goals
    rename_i hop
    have hbyte := congrArg (BitVec.ofNat 8) hop
    rw [BitVec.ofNat_toNat, BitVec.setWidth_eq] at hbyte
    subst hbyte
    cases h
    simp [OpcodeRow.Encodes, Instr.EncodedBy, Instr.wellFormed_iff, Instr.regOperands, encode, Instr.opcode,
      Instr.operands, byte_toNat_lt]

/-- Everything a row can assemble: too few bytes, or an instruction from the bytes at the front of the list, which are its
encoding where the row keeps to its format. -/
theorem OpcodeRow.assemble_cases (row : OpcodeRow) (bytes : List Byte) :
    row.assemble bytes = .error .truncated ∨
    ∃ i rest, row.assemble bytes = .ok (i, rest) ∧
      ∀ op, row.Encodes op → ∃ operands, i.EncodedBy (op :: operands) ∧ bytes = operands ++ rest := by
  fun_cases OpcodeRow.assemble row bytes
  case case1 i => exact .inr ⟨_, _, rfl, fun op h => ⟨[], h, rfl⟩⟩
  case case2 f lit rest => exact .inr ⟨_, _, rfl, fun op h => ⟨[lit], h lit, rfl⟩⟩
  case case3 f reg rest => exact .inr ⟨_, _, rfl, fun op h => ⟨[reg], h reg, rfl⟩⟩
  case case4 f a b rest | case5 f a b rest | case6 f a b rest | case7 f a b rest =>
    exact .inr ⟨_, _, rfl, fun op h => ⟨[a, b], h a b, rfl⟩⟩
  case case8 f a b c rest | case9 f a b c rest =>
    exact .inr ⟨_, _, rfl, fun op h => ⟨[a, b, c], h a b c, rfl⟩⟩
  case case10 => exact .inl rfl

/-- Settles O2: the bytes' opcode selects a row that keeps to its format, so what it assembles is encoded by them. -/
theorem encodeInvertsDecode : Obligations.EncodeInvertsDecode := by
  rintro (_ | ⟨op, bytes⟩) i rest h
  · cases h
  · rw [decode_cons] at h
    cases hrow : opcodeRow op with
    | none => rw [hrow] at h; cases h
    | some row =>
      rw [hrow] at h
      obtain htrunc | ⟨j, rest', hj, henc⟩ := row.assemble_cases bytes
      · cases htrunc.symm.trans h
      · cases hj.symm.trans h
        obtain ⟨operands, ⟨hwf, hencode⟩, rfl⟩ := henc op (opcodeRow_encodes hrow)
        exact ⟨hwf, by rw [hencode]; rfl⟩

/-! ### The opcodes the table refuses -/

theorem opcodeRow_eq_none_iff (op : Byte) : opcodeRow op = none ↔ op.toNat ∉ definedOpcodes := by
  unfold opcodeRow
  split
  case h_30 => simp_all [definedOpcodes]
  all_goals
    rename_i hop
    simp [definedOpcodes, hop]

theorem decode_eq_unknownOpcode_iff (op : Byte) (rest : List Byte) :
    decode (op :: rest) = .error (.unknownOpcode op) ↔ opcodeRow op = none := by
  rw [decode_cons]
  cases opcodeRow op with
  | none => simp
  | some row => obtain h | ⟨i, rest', h, _⟩ := row.assemble_cases rest <;> simp [h]

/-- Settles O3: the decoder refuses an opcode exactly where the table has no row for it. -/
theorem unknownOpcodesAreRefused : Obligations.UnknownOpcodesAreRefused :=
  ⟨fun op rest => (decode_eq_unknownOpcode_iff op rest).trans (opcodeRow_eq_none_iff op), rfl, by decide, by decide⟩

/-- Settles O4, by running the decoder. -/
theorem writtenOutWordsDecode : Obligations.WrittenOutWordsDecode :=
  ⟨rfl, rfl, rfl, rfl, rfl, rfl, rfl, rfl, rfl, rfl, rfl⟩

end Sys2Proof

/-! PROOFS. Registers that exist raise no error (O25): a checked access to one leaves `ERR` as it was, so what an instruction
records then comes from the stack, from a divisor of 0 or from a failed read. -/

namespace Sys2Proof.Machine

namespace State

/-! ### Checked access to a register that exists -/

theorem regRead_of_lt (s : State) {r : Nat} (h : r < 8) : s.regRead r = (s.regVal r, s) := by
  rw [State.regRead_eq, regErrors_of_lt h, State.raiseAll_nil]

theorem ptr_of_lt (s : State) {p : Nat} (h : p < 7) : s.ptr p = (s.ptrVal p, s) := by
  rw [State.ptr_eq, ptrErrors, regErrors_of_lt (by omega), regErrors_of_lt (by omega), List.append_nil,
    State.raiseAll_nil]

theorem regWrite_err_of_lt (s : State) {r : Nat} (v : Byte) (h : r < 8) : (s.regWrite r v).err = s.err := by
  rw [State.regWrite_err, regErrors_of_lt h, State.raiseAll_nil]

theorem aluRegReg_err_of_lt (s : State) (f : Byte → Byte → Byte) {a b : Nat} (ha : a < 8) (hb : b < 8) :
    (s.aluRegReg f a b).err = s.err := by
  simp [State.aluRegReg_eq, regErrors_of_lt ha, regErrors_of_lt hb]

theorem aluRegLit_err_of_lt (s : State) (f : Byte → Byte → Byte) {r : Nat} (lit : Byte) (h : r < 8) :
    (s.aluRegLit f r lit).err = s.err := by
  simp [State.aluRegLit_eq, regErrors_of_lt h]

theorem aluInPlace_err_of_lt (s : State) (f : Byte → Byte) {r : Nat} (h : r < 8) : (s.aluInPlace f r).err = s.err := by
  rw [State.aluInPlace_eq, regErrors_of_lt h, State.raiseAll_nil, State.regWrite_err_of_lt _ _ h]

theorem jumpIf_err (s : State) (c : Bool) (addr : Word) : (s.jumpIf c addr).err = s.err := by
  rw [State.jumpIf_eq, State.setIp_err]

/-! ### Work that records no `INVALID_REGISTER` -/

/-- `ERR` holds in `u` what it held in `s`, and after that only other records than `INVALID_REGISTER`. -/
def RaisesNoRegisterError (s u : State) : Prop :=
  ∃ rs, u.err = (s.raiseAll rs).err ∧ ∀ r ∈ rs, r.code ≠ .invalidRegister

namespace RaisesNoRegisterError

variable {s u : State}

theorem of_err_eq (h : u.err = s.err) : s.RaisesNoRegisterError u := ⟨[], h, by simp⟩

theorem congr {t : State} (h : s.RaisesNoRegisterError t) (herr : u.err = t.err) : s.RaisesNoRegisterError u := by
  obtain ⟨rs, ht, hrs⟩ := h
  exact ⟨rs, herr.trans ht, hrs⟩

theorem of_raise {c : ErrorCode} (hc : c ≠ .invalidRegister) (h : u.err = (s.raise (ErrorRecord.ofCode c)).err) :
    s.RaisesNoRegisterError u :=
  ⟨[ErrorRecord.ofCode c], h, by simpa [ErrorRecord.ofCode] using hc⟩

theorem push (s : State) (v : Byte) : s.RaisesNoRegisterError (s.push v) := by
  obtain ⟨rs, herr, _, hrs⟩ := s.push_err v
  exact ⟨rs, herr, hrs⟩

theorem saveAll (s : State) (vs : List Byte) : s.RaisesNoRegisterError (s.saveAll vs) := by
  obtain ⟨n, herr⟩ := s.saveAll_err vs
  exact ⟨_, herr, fun r hr => by simp [List.eq_of_mem_replicate hr, ErrorRecord.ofCode]⟩

/-- An `INVALID_REGISTER` recorded afterwards was recorded before. -/
theorem mem_err (h : s.RaisesNoRegisterError u) {q : ErrorRecord} (hq : q ∈ u.err) (hcode : q.code = .invalidRegister) :
    q ∈ s.err := by
  obtain ⟨rs, herr, hrs⟩ := h
  rw [herr] at hq
  exact (State.mem_raiseAll_err hq).resolve_right fun hmem => hrs q hmem hcode

end RaisesNoRegisterError

end State

theorem registersExist_iff (i : Instr) :
    i.registersExist = true ↔ (∀ r ∈ i.regOperands, r < 8) ∧ ∀ p ∈ i.pairBase, p < 7 := by
  cases hpair : i.pairBase <;> simp [Instr.registersExist, hpair]

open State.RaisesNoRegisterError in
/-- An instruction whose registers exist records errors of its own kind alone (spec/60_exceptions.md R205). -/
theorem exec_raisesNoRegisterError {i : Instr} {s u : State} (h : exec i s = .next u)
    (hregs : i.registersExist = true) : s.RaisesNoRegisterError u := by
  obtain ⟨hreg, hpair⟩ := (registersExist_iff i).1 hregs
  cases i with
  | nop | hlt | jmp _ | ret => cases h; exact of_err_eq rfl
  | mlr lit d => cases h; exact of_err_eq (s.regWrite_err_of_lt lit (hreg d (.head _)))
  | mrr a d =>
    rw [exec, execMrr, s.regRead_of_lt (hreg a (.head _))] at h
    cases h; exact of_err_eq (s.regWrite_err_of_lt _ (hreg d (.tail _ (.head _))))
  | mlm lit p =>
    rw [exec, execMlm, s.ptr_of_lt (hpair p rfl)] at h
    cases h; exact of_err_eq rfl
  | mrm a p =>
    rw [exec, execMrm, s.regRead_of_lt (hreg a (.head _))] at h
    simp only [s.ptr_of_lt (hpair p rfl)] at h
    cases h; exact of_err_eq rfl
  | mmr p d =>
    rw [exec, execMmr, s.ptr_of_lt (hpair p rfl)] at h
    cases h; exact of_err_eq (s.regWrite_err_of_lt _ (hreg d (.tail _ (.head _))))
  | lnd a b | lor a b | lxr a b | lbc a b | add a b | sub a b | mul a b =>
    cases h; exact of_err_eq (s.aluRegReg_err_of_lt _ (hreg a (.head _)) (hreg b (.tail _ (.head _))))
  | lsl r lit | lsr r lit => cases h; exact of_err_eq (s.aluRegLit_err_of_lt _ lit (hreg r (.head _)))
  | inc r | dec r => cases h; exact of_err_eq (s.aluInPlace_err_of_lt _ (hreg r (.head _)))
  | div a b =>
    simp only [exec, execDiv, s.regRead_of_lt (hreg a (.head _)), s.regRead_of_lt (hreg b (.tail _ (.head _)))] at h
    split at h <;> cases h
    · exact of_raise (c := .divideByZero) nofun rfl
    · exact of_err_eq rfl
  | jeq r a | jne r a =>
    simp only [exec, execJeq, execJne, s.regRead_of_lt (hreg r (.head _))] at h
    cases h; exact of_err_eq (s.jumpIf_err _ a)
  | spl lit => cases h; exact push s lit
  | spr r =>
    rw [exec, execSpr, s.regRead_of_lt (hreg r (.head _))] at h
    cases h; exact push s _
  | stp r =>
    simp only [exec, execStp] at h
    split at h <;> cases h
    · exact of_raise (c := .stackUnderflow) nofun rfl
    · exact of_err_eq (State.regWrite_err_of_lt _ _ (hreg r (.head _)))
  | cll a =>
    simp only [exec, execCll, Host.Outcome.next.injEq] at h
    subst h
    exact (saveAll s s.frame).congr (by rw [State.setIp_err, State.setFs_err])
  | pnt a len => cases h; exact of_err_eq (State.outRange_err len.toNat a s)
  | rin r =>
    have hwrite (v : State) (b : Byte) : (v.regWrite r b).err = v.err := v.regWrite_err_of_lt b (hreg r (.head _))
    simp only [exec, execRin] at h
    obtain ⟨b, rest, _, hr⟩ | ⟨_, _, hr⟩ | ⟨_, _, hr⟩ := s.inRead_cases <;> rw [hr] at h <;> cases h
    · exact of_err_eq (hwrite _ b)
    · exact of_raise (c := .readInput) nofun (by rw [hwrite, State.raise_err, State.raise_err]; rfl)

/-- Settles O25, from the errors an instruction can record once its registers exist. -/
theorem existingRegistersRaiseNoRegisterError : Obligations.ExistingRegistersRaiseNoRegisterError :=
  fun _ _ _ h hregs _ hq hcode => (exec_raisesNoRegisterError h hregs).mem_err hq hcode

end Sys2Proof.Machine

/-! PROOFS. The step's dispatch (O5, O6, O7, O8, O9, O12, O24, O29, O30, O32): what a fetch and a row of fetches deliver, below
the limit and across it; that the step is then the meaning of what the bytes decode to; and what checked access to a register
or to a pointer pair answers. -/

namespace Sys2Proof

/-! ### How many bytes an instruction has -/

theorem operandBytes_opcode (i : Instr) : operandBytes i.opcode = i.row.operandBytes := by
  rw [operandBytes, opcodeRow_opcode]

/-- The length of an encoding is a function of its opcode byte alone (spec/30_encoding.md R90). -/
theorem encode_length (i : Instr) : (encode i).length = operandBytes i.opcode + 1 := by
  have hoperands : i.operands.length = i.row.operandBytes := by cases i <;> rfl
  rw [encode, List.length_cons, hoperands, operandBytes_opcode]

theorem operandBytes_le (op : Byte) : operandBytes op ≤ 3 := by
  unfold operandBytes
  split
  case h_1 row _ => cases row <;> simp [OpcodeRow.operandBytes]
  case h_2 => exact Nat.zero_le 3

end Sys2Proof

namespace Sys2Proof.Machine

namespace State

/-! ### One fetch -/

theorem fetch_of_ne {s : State} (h : s.ip ≠ Config.fetchLimit) : s.fetch = (s.memRead s.ip, s.setIp (s.ip + 1)) := if_neg h

theorem fetch_of_eq {s : State} (h : s.ip = Config.fetchLimit) :
    s.fetch = (Config.refusedFetchByte, (s.setIp 0).raise (ErrorRecord.ofCode .ipOutOfBounds)) := if_pos h

/-! ### A row of fetches -/

theorem word_add_succ (a : Word) (n : Nat) : a + BitVec.ofNat 16 (n + 1) = a + 1 + BitVec.ofNat 16 n := by
  rw [BitVec.ofNat_add]; ac_rfl

/-- The `n` bytes in memory from address `a` on. -/
def bytesFrom (s : State) (a : Word) (n : Nat) : List Byte :=
  (List.range n).map fun k => s.memRead (a + BitVec.ofNat 16 k)

theorem bytesFrom_succ (s : State) (a : Word) (n : Nat) :
    s.bytesFrom a (n + 1) = s.memRead a :: s.bytesFrom (a + 1) n := by
  rw [bytesFrom, List.range_succ_eq_map, List.map_cons, List.map_map, BitVec.add_zero]
  exact congrArg _ (List.map_congr_left fun k _ => congrArg s.memRead (word_add_succ a k))

theorem bytesFrom_eq {s : State} {a : Word} {bytes : List Byte}
    (h : ∀ k (hk : k < bytes.length), s.memRead (a + BitVec.ofNat 16 k) = bytes[k]) :
    s.bytesFrom a bytes.length = bytes :=
  List.ext_getElem (by simp [bytesFrom]) fun k _ hk => by simpa [bytesFrom] using h k hk

theorem fetchMany_succ (n : Nat) (s : State) :
    fetchMany (n + 1) s = (s.fetch.1 :: (fetchMany n s.fetch.2).1, (fetchMany n s.fetch.2).2) := rfl

/-- Fetches that all lie below the limit deliver the bytes from IP on and advance IP past them; none is refused. -/
theorem fetchMany_of_below {n : Nat} {s : State} (h : s.ip.toNat + n ≤ 0xFFFF) :
    fetchMany n s = (s.bytesFrom s.ip n, s.setIp (s.ip + BitVec.ofNat 16 n)) := by
  induction n generalizing s with
  | zero => simp [fetchMany, bytesFrom]
  | succ n ih =>
    have hne : s.ip ≠ Config.fetchLimit := by
      intro hip
      rw [hip, BitVec.toNat_ofNat] at h
      omega
    have hnext : (s.ip + 1).toNat + n ≤ 0xFFFF := by
      rw [BitVec.toNat_add, show (1 : Word).toNat = 1 from rfl]
      omega
    rw [fetchMany_succ, fetch_of_ne hne, ih (s := s.setIp (s.ip + 1)) hnext, bytesFrom_succ, word_add_succ]
    rfl

/-- A row of fetches meets the limit at most once: after a refused fetch IP is at 0, a whole address space below it. -/
theorem fetchMany_err {n : Nat} (s : State) (h : n ≤ 0x10000) :
    (fetchMany n s).2.err = s.err ∨ (fetchMany n s).2.err = (s.raise (ErrorRecord.ofCode .ipOutOfBounds)).err := by
  induction n generalizing s with
  | zero => exact .inl rfl
  | succ n ih =>
    rw [fetchMany_succ]
    by_cases hip : s.ip = Config.fetchLimit
    · have hbelow : s.fetch.2.ip.toNat + n ≤ 0xFFFF := by
        rw [fetch_ip, hip, show (Config.fetchLimit + 1).toNat = 0 from rfl]
        omega
      right
      rw [fetchMany_of_below hbelow, setIp_err, fetch_of_eq hip, ← raise_setIp, setIp_err]
    · have hrest := ih (s.setIp (s.ip + 1)) (by omega)
      rw [← raise_setIp, setIp_err, setIp_err] at hrest
      rwa [fetch_of_ne hip]

/-! ### The fetches of an instruction -/

theorem fetchInstr_length_le (s : State) : s.fetchInstr.1.length ≤ 4 := by
  rw [fetchInstr_length]
  exact Nat.succ_le_succ (operandBytes_le s.fetch.1)

/-- The fetches of an instruction raise at most one error (spec/40_step_dispatch.md R102). -/
theorem fetchInstr_err (s : State) :
    s.fetchInstr.2.err = s.err ∨ s.fetchInstr.2.err = (s.raise (ErrorRecord.ofCode .ipOutOfBounds)).err := by
  rw [fetchInstr_eq_fetchMany]
  exact fetchMany_err s (by have := operandBytes_le s.fetch.1; omega)

theorem fetchInstr_of_no_operands {s : State} (h : operandBytes s.fetch.1 = 0) :
    s.fetchInstr = ([s.fetch.1], s.fetch.2) := by
  rw [fetchInstr_eq_fetchMany, h]
  rfl

/-- An encoding that lies in memory from IP on, below the limit, is what is fetched. -/
theorem fetchInstr_of_encoded {s : State} {i : Instr} (hbelow : s.ip.toNat + (encode i).length ≤ 0xFFFF)
    (hbytes : ∀ k (h : k < (encode i).length), s.memRead (s.ip + BitVec.ofNat 16 k) = (encode i)[k]) :
    s.fetchInstr = (encode i, s.setIp (s.ip + BitVec.ofNat 16 (encode i).length)) := by
  have hmany := fetchMany_of_below hbelow
  rw [bytesFrom_eq hbytes, encode_length, fetchMany_succ] at hmany
  have hop : s.fetch.1 = i.opcode := (List.cons.inj (congrArg Prod.fst hmany)).1
  rw [fetchInstr_eq_fetchMany, hop, encode_length, fetchMany_succ, hmany]

theorem fetchInstr_at_limit {s : State} (h : s.ip = Config.fetchLimit) :
    s.fetchInstr = ([0x00], (s.setIp 0).raise (ErrorRecord.ofCode .ipOutOfBounds)) := by
  have hfetch := fetch_of_eq h
  rw [fetchInstr_of_no_operands (by rw [hfetch]; rfl), hfetch]
  rfl

/-- Where no error is recorded, `raise` records the first one. -/
theorem raise_of_err_nil {s : State} (r : ErrorRecord) (h : s.err = []) : s.raise r = s.setErr [r] := by
  rw [raise_of_room r (by simp [h]), h, List.nil_append]

end State

/-- Settles O7: one fetch by its two cases, and the fetches of an instruction by their bound of four. -/
theorem fetchAdvancesOrIsRefused : Obligations.FetchAdvancesOrIsRefused :=
  ⟨fun _ => State.fetch_of_ne, fun _ => State.fetch_of_eq, fun s => ⟨s.fetchInstr_length_le, s.fetchInstr_err⟩⟩

/-! ### From the fetched bytes to the step -/

/-- What is fetched decodes to a well-formed instruction only as its whole encoding. -/
theorem fetchInstr_of_decode {s : State} {i : Instr} {rest : List Byte} (h : decode s.fetchInstr.1 = .ok (i, rest)) :
    i.wellFormed = true ∧ rest = [] ∧ s.fetchInstr.1 = encode i := by
  have hrest : rest = [] := by
    obtain ⟨j, hj⟩ | ⟨_, _, herr⟩ := s.fetchInstr_decodes
    · cases hj.symm.trans h; rfl
    · cases herr.symm.trans h
  subst hrest
  obtain ⟨hwf, hbytes⟩ := encodeInvertsDecode _ i [] h
  exact ⟨hwf, rfl, hbytes.trans (List.append_nil _)⟩

theorem step_of_exec_next {s t : State} {i : Instr} {rest : List Byte} (hs : s.status = .running)
    (hd : decode s.fetchInstr.1 = .ok (i, rest)) (he : exec i s.fetchInstr.2 = .next t) : step s = .next t.endStep := by
  rw [step_of_decode hs hd, he]
  rfl

/-- While its read is unanswered a step changes nothing (log entry 6). -/
theorem step_of_exec_awaiting {s : State} {i : Instr} {rest : List Byte} (hs : s.status = .running)
    (hd : decode s.fetchInstr.1 = .ok (i, rest)) (he : exec i s.fetchInstr.2 = .fault .awaitingInput) :
    step s = .next s := by
  rw [step_of_decode hs hd, he]
  rfl

/-- Settles O5: the round trip of the encoding, and the two answers of the instruction's meaning. -/
theorem stepRunsFetchedInstruction : Obligations.StepRunsFetchedInstruction := by
  intro s i rest hs hd
  obtain ⟨hwf, hrest, _⟩ := fetchInstr_of_decode hd
  exact ⟨hwf, hrest, fun _ => step_of_exec_next hs hd, step_of_exec_awaiting hs hd⟩

/-- Settles O6: the encoding is what is fetched, and it decodes to the instruction. -/
theorem stepRunsInstructionAtIp : Obligations.StepRunsInstructionAtIp := by
  intro s i hs hwf hbelow hbytes
  have hfetch := State.fetchInstr_of_encoded hbelow hbytes
  have hd : decode s.fetchInstr.1 = .ok (i, []) := by
    simpa [hfetch] using decodeInvertsEncode i [] hwf
  have hstate := congrArg Prod.snd hfetch
  exact ⟨fun t he => step_of_exec_next hs hd (hstate ▸ he), fun he => step_of_exec_awaiting hs hd (hstate ▸ he)⟩

theorem runsAs_of_decode {bytes : List Byte} {i : Instr} (h : decode bytes = .ok (i, [])) : RunsAs bytes i :=
  fun _ hs hbytes => step_of_decode hs (hbytes ▸ h)

/-! ### The steps that end in a fault of the dispatch, and `NOP` -/

/-- Settles O8: an opcode without a row has no operands, so one byte is fetched and the record follows. -/
theorem unknownOpcodeFaults : Obligations.UnknownOpcodeFaults := by
  rintro s op ⟨hs, herr⟩ hip rfl hop
  have hrow : opcodeRow (s.memRead s.ip) = none := (opcodeRow_eq_none_iff _).2 hop
  have hfetch : s.fetch = (s.memRead s.ip, s.setIp (s.ip + 1)) := State.fetch_of_ne hip
  have hinstr : s.fetchInstr = ([s.memRead s.ip], s.setIp (s.ip + 1)) := by
    rw [State.fetchInstr_of_no_operands (by rw [hfetch, operandBytes, hrow]), hfetch]
  have hd : decode s.fetchInstr.1 = .error (.unknownOpcode s.fetch.1) := by
    rw [hinstr, hfetch, decode_cons, hrow]
  have hraise : (s.setIp (s.ip + 1)).unknownOpcode (s.memRead s.ip) s.ip =
      (s.setIp (s.ip + 1)).setErr [ErrorRecord.ofOpcode (s.memRead s.ip) s.ip] := State.raise_of_err_nil _ herr
  rw [step_of_unknownOpcode hs hd, hinstr, hfetch, hraise, State.endStep_of_error (by simp)]
  rfl

/-- Settles O32: `0x00` decodes to `NOP` and has no operands, and a refused fetch delivers it. -/
theorem nopHasNoEffect : Obligations.NopHasNoEffect := by
  refine ⟨runsAs_of_decode rfl, fun _ => rfl, ?_, ?_⟩
  · rintro s ⟨hs, herr⟩ hip hbyte
    have hfetch : s.fetch = (0x00, s.setIp (s.ip + 1)) := by rw [State.fetch_of_ne hip, hbyte]
    have hinstr : s.fetchInstr = ([0x00], s.setIp (s.ip + 1)) := by
      rw [State.fetchInstr_of_no_operands (by rw [hfetch]; rfl), hfetch]
    have hstep : step s = .next s.fetchInstr.2.endStep :=
      step_of_exec_next hs (i := .nop) (rest := []) (by rw [hinstr]; rfl) rfl
    rw [hstep, hinstr, State.endStep_of_no_error (by simpa using herr)]
  · rintro s ⟨_, herr⟩ hip
    rw [State.fetchInstr_at_limit hip]
    exact ⟨rfl, State.raise_of_err_nil _ herr⟩

/-- Settles O9: at the top of memory a `NOP` is fetched (O32), and the record of the refused fetch ends the step. -/
theorem stepAtTopOfMemoryFaults : Obligations.StepAtTopOfMemoryFaults := by
  obtain ⟨_, hexec, _, hlimit⟩ := nopHasNoEffect
  rintro s hready hip
  obtain ⟨hd, hstate⟩ := hlimit s hready hip
  obtain ⟨hs, _⟩ := hready
  rw [step_of_exec_next hs hd (hexec _), hstate, State.endStep_of_error (by simp)]

/-! ### Completion, and IP -/

theorem exec_completes {i : Instr} {s : State} (h : ∀ r, i = .rin r → ¬ s.Waits) : ∃ u, exec i s = .next u := by
  obtain ⟨u, hu, _⟩ | ⟨⟨r, hr⟩, hwaits, _⟩ := exec_cases i s
  · exact ⟨u, hu⟩
  · exact absurd hwaits (h r hr)

/-- Settles O24: the only meaning that can answer no next state is that of a `RIN` that waits. -/
theorem everyInstructionCompletes : Obligations.EveryInstructionCompletes := fun _ _ => exec_completes

/-- The conditional jump `i` is not taken in `s` (spec/44_jump.md R151, R152). -/
def State.JumpUntaken (s : State) (i : Instr) : Prop :=
  (∃ r a, i = .jeq r a ∧ s.x 0 ≠ s.regVal r) ∨ (∃ r a, i = .jne r a ∧ s.x 0 = s.regVal r)

/-- Only a jump that is taken, a call or a return overwrites IP. -/
theorem exec_ip_eq {i : Instr} {s u : State} (h : exec i s = .next u) (hi : i.writesIp = true → s.JumpUntaken i) :
    u.ip = s.ip := by
  by_cases hw : i.writesIp = true
  · obtain ⟨r, a, rfl, hne⟩ | ⟨r, a, rfl, heq⟩ := hi hw
    · rw [exec, execJeq, State.regRead_eq] at h
      cases h
      simp [State.jumpIf_eq, condEq, hne]
    · rw [exec, execJne, State.regRead_eq] at h
      cases h
      simp [State.jumpIf_eq, condNe, heq]
  · exact (exec_updates h).ip_eq (by simpa using hw)

theorem State.fetchInstr_x (s : State) (r : Fin 8) : s.fetchInstr.2.x r = s.x r := by
  rw [State.x, State.x, State.fetchInstr_regs]

theorem State.fetchInstr_regVal (s : State) (r : Nat) : s.fetchInstr.2.regVal r = s.regVal r :=
  State.regVal_congr s.fetchInstr_x r

theorem State.JumpUntaken.fetchInstr {s : State} {i : Instr} (h : s.JumpUntaken i) : s.fetchInstr.2.JumpUntaken i := by
  simpa only [State.JumpUntaken, State.fetchInstr_x, State.fetchInstr_regVal] using h

theorem State.fetchInstr_waits_iff (s : State) : s.fetchInstr.2.Waits ↔ s.Waits := by
  rw [State.Waits, State.Waits, State.fetchInstr_input]

/-- The step of an instruction that leaves IP alone ends with IP past the bytes of that instruction. -/
theorem step_ip_of_no_jump {s : State} {i : Instr} (hs : s.status = .running) (hd : decode s.fetchInstr.1 = .ok (i, []))
    (hjump : i.writesIp = true → s.JumpUntaken i) (hwaits : ∀ r, i = .rin r → ¬ s.Waits) :
    ∃ t, step s = .next t ∧ t.ip = s.ip + BitVec.ofNat 16 (1 + operandBytes i.opcode) := by
  obtain ⟨u, hu⟩ := exec_completes (s := s.fetchInstr.2) fun r hr => s.fetchInstr_waits_iff.not.2 (hwaits r hr)
  obtain ⟨_, _, hbytes⟩ := fetchInstr_of_decode hd
  refine ⟨u.endStep, step_of_exec_next hs hd hu, ?_⟩
  rw [State.endStep_ip, exec_ip_eq hu fun hw => (hjump hw).fetchInstr, State.fetchInstr_ip, hbytes, encode_length,
    Nat.add_comm]

/-- Settles O12: IP past the bytes of the instruction, modulo 65536. -/
theorem ipAdvancesByLength : Obligations.IpAdvancesByLength := by
  intro s i hs hd hjmp hcll hret hjeq hjne hwaits
  have hjump : i.writesIp = true → s.JumpUntaken i := by
    cases i with
    | jmp a => exact absurd rfl (hjmp a)
    | cll a => exact absurd rfl (hcll a)
    | ret => exact absurd rfl hret
    | jeq r a => exact fun _ => .inl ⟨r, a, rfl, hjeq r a rfl⟩
    | jne r a => exact fun _ => .inr ⟨r, a, rfl, hjne r a rfl⟩
    | _ => exact nofun
  obtain ⟨t, ht, hip⟩ := step_ip_of_no_jump hs hd hjump hwaits
  have hlen := operandBytes_le i.opcode
  refine ⟨t, ht, ?_⟩
  rw [hip, BitVec.toNat_add, BitVec.toNat_ofNat]
  omega

/-! ### Checked access to registers and pointer pairs -/

theorem State.regVal_of_ge (s : State) {r : Nat} (h : 8 ≤ r) : s.regVal r = 0x00 := by
  simp [State.regVal, Nat.not_lt.2 h]

theorem State.regVal_of_lt (s : State) {r : Nat} (h : r < 8) : s.regVal r = s.x ⟨r, h⟩ := s.regVal_fin ⟨r, h⟩

theorem State.regWrite_of_ge (s : State) {r : Nat} (v : Byte) (h : 8 ≤ r) :
    s.regWrite r v = s.raise (ErrorRecord.ofIndex r) := dif_neg (Nat.not_lt.2 h)

/-- Settles O29, from the equations of checked access. -/
theorem checkedRegisterAccess : Obligations.CheckedRegisterAccess := by
  refine ⟨fun s i => ?_, fun s i hi => ?_, fun s i v => ?_, fun s i v => s.regWrite_of_ge v⟩
  · rw [s.regRead_of_lt i.isLt, State.regVal_fin]
  · rw [State.regRead_eq, s.regVal_of_ge hi, regErrors_of_ge hi]
    rfl
  · rw [State.regWrite_fin]
    exact ⟨s.setX_x_same i v, fun j hj => s.setX_x_other v hj.symm, s.setX_err i v⟩

/-- Settles O30: a pointer is its two checked reads, so its outcome goes by how many of the two registers exist. -/
theorem pointerPairOutcomes : Obligations.PointerPairOutcomes := by
  refine ⟨fun s r hr => ?_, fun s => ?_, fun s r hr => ?_, joinBytes_toNat⟩
  · rw [s.ptr_of_lt hr, State.ptrVal, s.regVal_of_lt (by omega), s.regVal_of_lt (by omega)]
  · rw [State.ptr_eq, State.ptrVal, s.regVal_of_lt (by omega), s.regVal_of_ge (by omega), ptrErrors,
      regErrors_of_lt (by omega), regErrors_of_ge (by omega)]
    rfl
  · rw [State.ptr_eq, State.ptrVal, s.regVal_of_ge hr, s.regVal_of_ge (by omega), ptrErrors, regErrors_of_ge hr,
      regErrors_of_ge (by omega)]
    rfl

end Sys2Proof.Machine

/-! PROOFS. The moves (O33, O34, O35, O53): each move as one equation, what a store leaves in memory, and what a later load
or fetch then delivers, also after a push and after the saves of a call. -/

namespace Sys2Proof.Machine

namespace State

/-! ### Pointer pairs and writes to a missing register -/

theorem ptrErrors_of_lt {p : Nat} (h : p < 7) : ptrErrors p = [] := by
  rw [ptrErrors, regErrors_of_lt (by omega), regErrors_of_lt (by omega), List.append_nil]

/-- After other records, a write to a missing register only adds its own. -/
theorem raiseAll_regWrite_of_ge (s : State) (rs : List ErrorRecord) {d : Nat} (v : Byte) (h : 8 ≤ d) :
    (s.raiseAll rs).regWrite d v = s.raiseAll (rs ++ [ErrorRecord.ofIndex d]) := by
  rw [regWrite_of_ge _ v h, raiseAll_append]
  rfl

/-! ### What a store leaves in memory -/

theorem store_memRead_same {s : State} (hwf : s.mem.wf = true) (rs : List ErrorRecord) (a : Word) (v : Byte) :
    ((s.raiseAll rs).memWrite a v).memRead a = v := by
  rw [raiseAll_memWrite, raiseAll_memRead, memWrite_memRead_same s hwf]

theorem store_memRead_other {s : State} (hwf : s.mem.wf = true) (rs : List ErrorRecord) {a b : Word} (v : Byte)
    (h : b ≠ a) : ((s.raiseAll rs).memWrite a v).memRead b = s.memRead b := by
  rw [raiseAll_memWrite, raiseAll_memRead, memWrite_memRead_other s hwf v h.symm]

/-! ### What a push and a row of saves leave in memory -/

/-- A push below the limit leaves its byte at the old SP, whether or not the frame count wraps. -/
theorem push_memRead_sp {s : State} (hwf : s.mem.wf = true) (hsp : s.sp ≠ Config.stackLimit) (v : Byte) :
    (s.push v).memRead s.sp = v := by
  have hwritten : (((s.memWrite s.sp v).setSp (s.sp + 1)).setFs (s.fs + 1)).memRead s.sp = v :=
    memWrite_memRead_same s hwf s.sp v
  obtain ⟨hlimit, _⟩ | ⟨_, _, h⟩ | ⟨_, _, h⟩ := s.push_cases v
  · exact absurd hlimit hsp
  · rw [h, hwritten]
  · rw [h, raise_memRead, hwritten]

theorem save_of_ne {s : State} (h : s.sp ≠ Config.stackLimit) (v : Byte) :
    s.save v = (s.memWrite s.sp v).setSp (s.sp + 1) := if_neg h

theorem save_wf {s : State} (hwf : s.mem.wf = true) (v : Byte) : (s.save v).mem.wf = true := by
  obtain ⟨_, h⟩ | ⟨_, h⟩ := s.save_cases v <;> rw [h]
  · rwa [raise_mem]
  · exact memWrite_wf hwf s.sp v

theorem add_one_toNat_of_ne_stackLimit {a : Word} (h : a ≠ Config.stackLimit) : (a + 1).toNat = a.toNat + 1 := by
  bv_omega

/-- Saves write at SP and above, so they leave every byte below SP. -/
theorem saveAll_memRead_below {s : State} (hwf : s.mem.wf = true) (vs : List Byte) {a : Word}
    (ha : a.toNat < s.sp.toNat) : (s.saveAll vs).memRead a = s.memRead a := by
  induction vs generalizing s with
  | nil => rfl
  | cons v rest ih =>
    obtain ⟨_, hsave⟩ | ⟨hne, hsave⟩ := s.save_cases v
    · rw [saveAll_cons, ih (save_wf hwf v) (by rwa [hsave, raise_sp]), hsave, raise_memRead]
    · have hbelow : a.toNat < (s.save v).sp.toNat := by
        rw [hsave, setSp_sp, add_one_toNat_of_ne_stackLimit hne]
        omega
      have hother : s.sp ≠ a := by
        rintro rfl
        omega
      rw [saveAll_cons, ih (save_wf hwf v) hbelow, hsave, setSp_memRead, memWrite_memRead_other s hwf v hother]

/-- Of a row of saves, each that finds SP below the limit leaves its byte where SP then stands. -/
theorem saveAll_memRead {s : State} (hwf : s.mem.wf = true) (vs : List Byte) {k : Nat} (hk : k < vs.length)
    (hroom : k < 65535 - s.sp.toNat) : (s.saveAll vs).memRead (s.sp + BitVec.ofNat 16 k) = vs[k] := by
  induction vs generalizing s k with
  | nil => cases hk
  | cons v rest ih =>
    have hne : s.sp ≠ Config.stackLimit := by
      intro hlimit
      simp [hlimit] at hroom
    have hsp : (s.save v).sp = s.sp + 1 := by rw [save_of_ne hne, setSp_sp]
    have hnext : (s.save v).sp.toNat = s.sp.toNat + 1 := by rw [hsp, add_one_toNat_of_ne_stackLimit hne]
    rw [saveAll_cons]
    cases k with
    | zero =>
      rw [BitVec.add_zero, saveAll_memRead_below (save_wf hwf v) rest (by omega), save_of_ne hne, setSp_memRead,
        memWrite_memRead_same s hwf]
      rfl
    | succ k =>
      rw [word_add_succ, ← hsp]
      exact ih (save_wf hwf v) (Nat.lt_of_succ_lt_succ hk) (by omega)

/-! ### What a fetch then delivers -/

theorem fetch_setIp {s : State} {a : Word} (h : a ≠ Config.fetchLimit) : (s.setIp a).fetch.1 = s.memRead a := by
  rw [fetch_of_ne (s := s.setIp a) h]
  rfl

end State

/-! ### Each move as one equation -/

section

variable (s : State) (lit : Byte) (r p d : Nat)

theorem exec_mlr : exec (.mlr lit d) s = .next (s.regWrite d lit) := rfl

theorem exec_mrr : exec (.mrr r d) s = .next ((s.raiseAll (regErrors r)).regWrite d (s.regVal r)) := by
  rw [exec, execMrr, State.regRead_eq]

theorem exec_mlm : exec (.mlm lit p) s = .next ((s.raiseAll (ptrErrors p)).memWrite (s.ptrVal p) lit) := by
  rw [exec, execMlm, State.ptr_eq]

theorem exec_mrm : exec (.mrm r p) s =
    .next ((s.raiseAll (regErrors r ++ ptrErrors p)).memWrite (s.ptrVal p) (s.regVal r)) := by
  simp only [exec, execMrm, State.regRead_eq, State.ptr_eq, State.ptrVal_raiseAll, State.raiseAll_append]

theorem exec_mmr : exec (.mmr p d) s =
    .next ((s.raiseAll (ptrErrors p)).regWrite d (s.memRead (s.ptrVal p))) := by
  simp only [exec, execMmr, State.ptr_eq, State.raiseAll_memRead]

theorem exec_spr : exec (.spr r) s = .next ((s.raiseAll (regErrors r)).push (s.regVal r)) := by
  rw [exec, execSpr, State.regRead_eq]

end

/-! ### The moves settled -/

/-- Settles O33: the two moves as equations, whose register write goes by whether the destination exists. -/
theorem movesToARegister : Obligations.MovesToARegister := by
  refine ⟨fun _ _ => runsAs_of_decode rfl, fun lit d s => ?_, fun lit d s hd => ?_, fun _ _ => runsAs_of_decode rfl,
    fun r d s => ?_, fun r d s hd => ?_⟩
  · rw [exec_mlr, State.regWrite_fin]
  · rw [exec_mlr, s.regWrite_of_ge lit hd]
    rfl
  · rw [exec_mrr, State.regWrite_fin]
  · rw [exec_mrr, s.raiseAll_regWrite_of_ge _ _ hd]
    rfl

/-- Settles O34: both moves are a store at the pair's address after the records of their reads. -/
theorem movesToMemory : Obligations.MovesToMemory := by
  refine ⟨fun _ _ => runsAs_of_decode rfl, fun _ _ => runsAs_of_decode rfl, fun lit p s => exec_mlm s lit p,
    fun r p s => exec_mrm s r p, fun lit p s t hwf h => ?_, fun r p s t hwf h => ?_⟩
  · cases (exec_mlm s lit p).symm.trans h
    exact ⟨State.store_memRead_same hwf _ _ lit, fun _ => State.store_memRead_other hwf _ lit⟩
  · cases (exec_mrm s r p).symm.trans h
    exact ⟨State.store_memRead_same hwf _ _ _, fun _ => State.store_memRead_other hwf _ _⟩

/-- Settles O35: the load as an equation, whose register write goes by whether the destination exists. -/
theorem movesFromMemory : Obligations.MovesFromMemory := by
  refine ⟨fun _ _ => runsAs_of_decode rfl, fun p d s => ?_, fun p d s hd => ?_⟩
  · rw [exec_mmr, State.regWrite_fin]
  · rw [exec_mmr, s.raiseAll_regWrite_of_ge _ _ hd]
    rfl

/-! ### A load or a fetch after a store -/

/-- A load through the pair that has just addressed a store delivers the byte stored: the store changes no register, so the
pair still holds the address (spec/41_move.md R125). -/
theorem exec_mmr_after_store {s : State} (hwf : s.mem.wf = true) {p : Nat} (hp : p < 7) (r : Fin 8) (v : Byte) :
    exec (.mmr p r.val) (s.memWrite (s.ptrVal p) v) = .next ((s.memWrite (s.ptrVal p) v).setX r v) := by
  have haddr : (s.memWrite (s.ptrVal p) v).ptrVal p = s.ptrVal p := rfl
  rw [exec_mmr, State.ptrErrors_of_lt hp, State.raiseAll_nil, State.regWrite_fin, haddr, State.memWrite_memRead_same s hwf]

/-- A fetch at the address of a store delivers the byte stored (spec/20_memory.md R67). -/
theorem fetch_after_store {s : State} (hwf : s.mem.wf = true) (rs : List ErrorRecord) {a : Word}
    (ha : a ≠ Config.fetchLimit) (v : Byte) : (((s.raiseAll rs).memWrite a v).setIp a).fetch.1 = v := by
  rw [State.fetch_setIp ha, State.store_memRead_same hwf]

/-- A fetch at the SP of a push delivers the byte pushed. -/
theorem fetch_after_push {s : State} (hwf : s.mem.wf = true) (rs : List ErrorRecord) (hsp : s.sp ≠ Config.stackLimit)
    (v : Byte) : (((s.raiseAll rs).push v).setIp s.sp).fetch.1 = v := by
  have hread := State.push_memRead_sp (s := s.raiseAll rs) (by rwa [State.raiseAll_mem]) (by rwa [State.raiseAll_sp]) v
  rw [State.raiseAll_sp] at hread
  rw [State.fetch_setIp hsp, hread]

/-- A fetch where a call has saved its `k`-th byte delivers that byte: the call's own jump and its new frame leave memory. -/
theorem fetch_after_call {s : State} (hwf : s.mem.wf = true) (addr : Word) {k : Nat} (hk : k < s.frame.length)
    (hroom : k < 65535 - s.sp.toNat) :
    ((((s.saveAll s.frame).setFs 0).setIp addr).setIp (s.sp + BitVec.ofNat 16 k)).fetch.1 = s.frame[k] := by
  have hbelow : s.sp + BitVec.ofNat 16 k ≠ Config.fetchLimit := by
    intro hlimit
    have hnat := congrArg BitVec.toNat hlimit
    rw [BitVec.toNat_add, BitVec.toNat_ofNat, BitVec.toNat_ofNat] at hnat
    omega
  rw [State.fetch_setIp hbelow, State.setIp_memRead, State.setFs_memRead, State.saveAll_memRead hwf s.frame hk hroom]

/-- Settles O53: the state after each store, push or call, and what a load or a fetch delivers there. -/
theorem storeThenLoadOrFetch : Obligations.StoreThenLoadOrFetch := by
  refine ⟨fun v p q r s hwf hp => ⟨?_, ?_⟩, fun v p q s hwf ha => ⟨?_, ?_⟩, fun v q s hwf hsp => ⟨?_, ?_⟩,
    fun a k hk s hwf hroom => ⟨_, rfl, fetch_after_call hwf a hk hroom⟩⟩
  · have hstore : exec (.mlm v p) s = .next (s.memWrite (s.ptrVal p) v) := by
      rw [exec_mlm, State.ptrErrors_of_lt hp, State.raiseAll_nil]
    exact ⟨_, _, hstore, exec_mmr_after_store hwf hp r v, State.setX_x_same _ r v, rfl⟩
  · have hstore : exec (.mrm q.val p) s = .next (s.memWrite (s.ptrVal p) (s.x q)) := by
      rw [exec_mrm, regErrors_fin, State.ptrErrors_of_lt hp, List.append_nil, State.raiseAll_nil, State.regVal_fin]
    exact ⟨_, _, hstore, exec_mmr_after_store hwf hp r (s.x q), State.setX_x_same _ r _, rfl⟩
  · exact ⟨_, exec_mlm s v p, fetch_after_store hwf _ ha v⟩
  · exact ⟨_, exec_mrm s q p, fetch_after_store hwf _ ha _⟩
  · exact ⟨_, rfl, fetch_after_push hwf [] hsp v⟩
  · exact ⟨_, exec_spr s q, fetch_after_push hwf _ hsp _⟩

end Sys2Proof.Machine

/-! PROOFS. The logical operations and the shifts (O36, O37), and any two-register operation after the loads of its operands
(O54): the ALU's results in the natural numbers, then what the machine makes of a two-register operation, whatever it
computes. -/

namespace Sys2Proof.Machine

/-! ### The results of the ALU -/

/-- The complement of the mask is its difference from 255 (spec/42_logical.md R133). -/
theorem aluBitClear_eq (a b : Byte) : aluBitClear a b = a &&& (255#8 - b) :=
  congrArg (a &&& ·) (BitVec.allOnes_sub_eq_not b).symm

theorem aluShiftLeft_eq (v n : Byte) :
    aluShiftLeft v n = if 8 ≤ n.toNat then 0 else BitVec.ofNat 8 (v.toNat * 2 ^ n.toNat % 256) := by
  have hshift : v <<< n.toNat = BitVec.ofNat 8 (v.toNat * 2 ^ n.toNat % 256) :=
    BitVec.eq_of_toNat_eq (by simp [Nat.shiftLeft_eq])
  rw [aluShiftLeft, hshift]

theorem aluShiftRight_eq (v n : Byte) :
    aluShiftRight v n = if 8 ≤ n.toNat then 0 else BitVec.ofNat 8 (v.toNat / 2 ^ n.toNat) := by
  have hshift : v >>> n.toNat = BitVec.ofNat 8 (v.toNat / 2 ^ n.toNat) := by
    rw [← Nat.shiftRight_eq_div_pow, ← BitVec.toNat_ushiftRight, BitVec.ofNat_toNat, BitVec.setWidth_eq]
  rw [aluShiftRight, hshift]

theorem aluAdd_toNat (a b : Byte) : (aluAdd a b).toNat = (a.toNat + b.toNat) % 256 := BitVec.toNat_ofNat ..

theorem aluSub_toNat (a b : Byte) : (aluSub a b).toNat = (a.toNat + (256 - b.toNat)) % 256 := by
  have hb := byte_toNat_lt b
  rw [aluSub, BitVec.toNat_ofInt]
  omega

theorem aluMul_toNat (a b : Byte) : (aluMul a b).toNat = a.toNat * b.toNat % 256 := BitVec.toNat_ofNat ..

/-- A quotient is no greater than its dividend, so it fits a byte. -/
theorem aluDiv_toNat (a b : Byte) : (aluDiv a b).toNat = a.toNat / b.toNat := by
  rw [aluDiv, BitVec.toNat_ofNat]
  exact Nat.mod_eq_of_lt ((Nat.div_le_self _ _).trans_lt a.isLt)

/-! ### The operations settled -/

/-- Settles O36: each of the four is the two-register shape with its own operator. -/
theorem logicalOperations : Obligations.LogicalOperations := by
  refine ⟨fun _ _ => ⟨runsAs_of_decode rfl, runsAs_of_decode rfl, runsAs_of_decode rfl, runsAs_of_decode rfl⟩,
    fun a b s => ⟨?and, ?or, ?xor, ?clear⟩⟩
  case and => exact congrArg Host.Outcome.next (s.aluRegReg_eq aluAnd a b)
  case or => exact congrArg Host.Outcome.next (s.aluRegReg_eq aluOr a b)
  case xor => exact congrArg Host.Outcome.next (s.aluRegReg_eq aluXor a b)
  case clear => rw [← aluBitClear_eq]; exact congrArg Host.Outcome.next (s.aluRegReg_eq aluBitClear a b)

/-- Settles O37: both are the shape of a shift, whose result is a product or a quotient by a power of two. -/
theorem shiftOperations : Obligations.ShiftOperations := by
  refine ⟨fun _ _ => ⟨runsAs_of_decode rfl, runsAs_of_decode rfl⟩, fun r n s => ⟨?left, ?right⟩⟩
  case left => rw [← aluShiftLeft_eq]; exact congrArg Host.Outcome.next (s.aluRegLit_eq aluShiftLeft r n)
  case right => rw [← aluShiftRight_eq]; exact congrArg Host.Outcome.next (s.aluRegLit_eq aluShiftRight r n)

/-! ### An operation after the loads of its operands -/

/-- A division by a value other than 0 is a two-register operation like the others (spec/43_arithmetic.md R145). -/
theorem exec_div_of_ne {s : State} {a b : Nat} (h : s.regVal b ≠ 0) :
    exec (.div a b) s = .next (s.aluRegReg aluDiv a b) := by
  simp only [exec, execDiv, State.aluRegReg, State.regRead_eq, State.regVal_raiseAll, if_neg h]

theorem exec_mlr_fin (lit : Byte) (d : Fin 8) (s : State) : exec (.mlr lit d.val) s = .next (s.setX d lit) := by
  rw [exec_mlr, State.regWrite_fin]

/-- On registers that exist a two-register operation is one register write. -/
theorem State.aluRegReg_fin (s : State) (f : Byte → Byte → Byte) (a b : Fin 8) :
    s.aluRegReg f a.val b.val = s.setX 0 (f (s.x a) (s.x b)) := by
  simp only [State.aluRegReg_eq, regErrors_fin, State.regVal_fin, List.append_nil, State.raiseAll_nil]

theorem execAll_cons_of_next {i : Instr} {s t : State} (rest : List Instr) (h : exec i s = .next t) :
    execAll (i :: rest) s = execAll rest t := by
  rw [execAll, h]

/-- `s` once `MLR a, R1` and `MLR b, R2` have run. -/
def State.withOperands (s : State) (a b : Byte) : State := (s.setX 1 a).setX 2 b

theorem State.withOperands_x1 (s : State) (a b : Byte) : (s.withOperands a b).x 1 = a := by
  rw [State.withOperands, State.setX_x_other _ _ (by decide), State.setX_x_same]

theorem State.withOperands_x2 (s : State) (a b : Byte) : (s.withOperands a b).x 2 = b := State.setX_x_same _ 2 b

theorem execAll_loads (s : State) (a b : Byte) (rest : List Instr) :
    execAll (.mlr a 1 :: .mlr b 2 :: rest) s = execAll rest (s.withOperands a b) :=
  (execAll_cons_of_next _ (exec_mlr_fin a 1 s)).trans (execAll_cons_of_next _ (exec_mlr_fin b 2 _))

/-- A two-register operation on the two registers just loaded combines what was loaded. It writes `x[0]` alone, so both
operands stay, and both registers exist, so it records no error. -/
theorem execAll_loads_aluRegReg {s : State} {a b : Byte} {i : Instr} {result : Nat} (f : Byte → Byte → Byte)
    (hi : exec i (s.withOperands a b) = .next ((s.withOperands a b).aluRegReg f 1 2)) (hf : (f a b).toNat = result) :
    ∃ t, execAll [.mlr a 1, .mlr b 2, i] s = .next t ∧ (t.x 0).toNat = result ∧ t.x 1 = a ∧ t.x 2 = b ∧
      t.err = s.err := by
  have hop : (s.withOperands a b).aluRegReg f 1 2 = (s.withOperands a b).setX 0 (f a b) := by
    refine (State.aluRegReg_fin _ f 1 2).trans ?_
    rw [State.withOperands_x1, State.withOperands_x2]
  refine ⟨(s.withOperands a b).setX 0 (f a b), ?run, ?result, ?first, ?second, rfl⟩
  case run => rw [execAll_loads, execAll_cons_of_next _ (hop ▸ hi), execAll]
  case result => rw [State.setX_x_same, hf]
  case first => rw [State.setX_x_other _ _ (by decide), State.withOperands_x1]
  case second => rw [State.setX_x_other _ _ (by decide), State.withOperands_x2]

/-- Settles O54: each operation is a two-register operation on the operands loaded, division because its divisor is not 0, and
what its operator makes of them is the result named. -/
theorem operationAfterLoadingOperands : Obligations.OperationAfterLoadingOperands := by
  intro s a b i result hmem hdiv
  simp only [List.mem_cons, Prod.mk.injEq, List.not_mem_nil, or_false] at hmem
  obtain ⟨rfl, rfl⟩ | ⟨rfl, rfl⟩ | ⟨rfl, rfl⟩ | ⟨rfl, rfl⟩ | ⟨rfl, rfl⟩ | ⟨rfl, rfl⟩ | ⟨rfl, rfl⟩ | ⟨rfl, rfl⟩ := hmem
  · exact execAll_loads_aluRegReg aluAnd rfl rfl
  · exact execAll_loads_aluRegReg aluOr rfl rfl
  · exact execAll_loads_aluRegReg aluXor rfl rfl
  · exact execAll_loads_aluRegReg aluBitClear rfl rfl
  · exact execAll_loads_aluRegReg aluAdd rfl (aluAdd_toNat a b)
  · exact execAll_loads_aluRegReg aluSub rfl (aluSub_toNat a b)
  · exact execAll_loads_aluRegReg aluMul rfl (aluMul_toNat a b)
  · have hdivisor : (s.withOperands a b).regVal 2 = b := (State.regVal_fin _ 2).trans (s.withOperands_x2 a b)
    exact execAll_loads_aluRegReg aluDiv (exec_div_of_ne (hdivisor.trans_ne (hdiv rfl))) (aluDiv_toNat a b)

end Sys2Proof.Machine

/-! PROOFS. The arithmetic instructions (O38, O39, O40): the ALU's results as bytes, and what the in-place shape and a division
do in each of their cases. -/

namespace Sys2Proof.Machine

/-! ### The results as bytes -/

theorem aluAdd_eq (a b : Byte) : aluAdd a b = BitVec.ofNat 8 ((a.toNat + b.toNat) % 256) :=
  (BitVec.toNat_eq_nat.1 (aluAdd_toNat a b)).2

theorem aluSub_eq (a b : Byte) : aluSub a b = BitVec.ofNat 8 ((a.toNat + (256 - b.toNat)) % 256) :=
  (BitVec.toNat_eq_nat.1 (aluSub_toNat a b)).2

theorem aluMul_eq (a b : Byte) : aluMul a b = BitVec.ofNat 8 (a.toNat * b.toNat % 256) :=
  (BitVec.toNat_eq_nat.1 (aluMul_toNat a b)).2

/-! ### The in-place shape -/

theorem State.aluInPlace_fin (s : State) (f : Byte → Byte) (r : Fin 8) : s.aluInPlace f r.val = s.setX r (f (s.x r)) := by
  rw [aluInPlace_eq, regErrors_fin, raiseAll_nil, regWrite_fin, regVal_fin]

/-- On a missing register the read and the write each raise their own error (decision D5). -/
theorem State.aluInPlace_of_ge (s : State) (f : Byte → Byte) {r : Nat} (h : 8 ≤ r) :
    s.aluInPlace f r = (s.raise (ErrorRecord.ofIndex r)).raise (ErrorRecord.ofIndex r) := by
  rw [aluInPlace_eq, raiseAll_regWrite_of_ge _ _ _ h, regErrors_of_ge h]
  rfl

/-! ### Division by zero -/

/-- With a divisor value of 0 a division only raises, and `x[0]` keeps its value (decision D6). -/
theorem exec_div_of_eq_zero {s : State} {a b : Nat} (h : s.regVal b = 0) :
    exec (.div a b) s =
      .next (s.raiseAll (regErrors a ++ regErrors b ++ [ErrorRecord.ofCode .divideByZero])) := by
  simp only [exec, execDiv, State.regRead_eq, State.regVal_raiseAll, if_pos h, State.raiseAll_append, State.raiseAll_cons,
    State.raiseAll_nil]

/-! ### The arithmetic instructions settled -/

/-- Settles O38: both are the in-place shape, with 1 added or subtracted, and it goes by whether the register exists. -/
theorem incrementAndDecrement : Obligations.IncrementAndDecrement := by
  refine ⟨fun _ => ⟨runsAs_of_decode rfl, runsAs_of_decode rfl⟩, fun r s => ⟨?inc, ?dec⟩,
    fun r s hr => ⟨?incMissing, ?decMissing⟩⟩
  case inc => exact congrArg Host.Outcome.next ((s.aluInPlace_fin _ r).trans (congrArg (s.setX r) (aluAdd_eq _ 1)))
  case dec => exact congrArg Host.Outcome.next ((s.aluInPlace_fin _ r).trans (congrArg (s.setX r) (aluSub_eq _ 1)))
  case incMissing => exact congrArg Host.Outcome.next (s.aluInPlace_of_ge _ hr)
  case decMissing => exact congrArg Host.Outcome.next (s.aluInPlace_of_ge _ hr)

/-- Settles O39: each of the three is the two-register shape with its own operator. -/
theorem addSubtractMultiply : Obligations.AddSubtractMultiply := by
  refine ⟨fun _ _ => ⟨runsAs_of_decode rfl, runsAs_of_decode rfl, runsAs_of_decode rfl⟩, fun a b s => ⟨?add, ?sub, ?mul⟩⟩
  case add => rw [← aluAdd_eq]; exact congrArg Host.Outcome.next (s.aluRegReg_eq aluAdd a b)
  case sub =>
    rw [Nat.add_sub_assoc (byte_toNat_lt _).le, ← aluSub_eq]
    exact congrArg Host.Outcome.next (s.aluRegReg_eq aluSub a b)
  case mul => rw [← aluMul_eq]; exact congrArg Host.Outcome.next (s.aluRegReg_eq aluMul a b)

/-- Settles O40: a division goes by whether the divisor's value is 0. -/
theorem divideOrRaise : Obligations.DivideOrRaise := by
  refine ⟨fun _ _ => runsAs_of_decode rfl, fun a b s hb => ?quotient, fun a b s hb => ?byZero⟩
  case quotient => exact (exec_div_of_ne hb).trans (congrArg Host.Outcome.next (s.aluRegReg_eq aluDiv a b))
  case byZero => exact exec_div_of_eq_zero hb

end Sys2Proof.Machine

/-! PROOFS. The jumps (O41, O42): the step of a `JMP` from what its three fetches deliver, be one of them refused or not, and
each conditional jump as one equation. -/

namespace Sys2Proof.Machine

/-! ### The step of a `JMP` -/

/-- A fetch at an address below the limit, whole. -/
theorem State.fetch_at {s : State} {a : Word} {b : Byte} (hip : s.ip = a) (ha : a ≠ Config.fetchLimit)
    (hb : s.memRead a = b) : s.fetch = (b, s.setIp (a + 1)) := by
  subst hip hb
  exact fetch_of_ne ha

theorem State.fetch_setIp_limit (s : State) :
    (s.setIp Config.fetchLimit).fetch = (0x00, (s.setIp 0).raise (ErrorRecord.ofCode .ipOutOfBounds)) := fetch_of_eq rfl

/-- After a refused fetch the next byte comes from address 0 (spec/40_step_dispatch.md R102). -/
theorem State.fetch_after_refused (s : State) (r : ErrorRecord) :
    ((s.setIp 0).raise r).fetch = (s.memRead 0, (s.setIp 1).raise r) := by
  rw [fetch_at (a := 0) (raise_ip (s.setIp 0) r) (by decide) (raise_memRead (s.setIp 0) r 0), raise_setIp]
  rfl

/-- The step of a `JMP` from its three fetches: the opcode, then the address, high byte first (spec/44_jump.md R150). -/
theorem step_jmp_of_fetches {s t u v : State} {hi lo : Byte} (hs : s.status = .running) (hop : s.fetch = (0x60, t))
    (hhi : t.fetch = (hi, u)) (hlo : u.fetch = (lo, v)) : step s = .next (v.setIp (joinBytes hi lo)).endStep := by
  have hinstr : s.fetchInstr = ([0x60, hi, lo], v) := by
    rw [State.fetchInstr_eq_fetchMany, hop, show operandBytes 0x60 + 1 = 3 from rfl, State.fetchMany_succ, hop,
      State.fetchMany_succ, hhi, State.fetchMany_succ, hlo]
    rfl
  have hd : decode s.fetchInstr.1 = .ok (.jmp (joinBytes hi lo), []) := by rw [hinstr]; rfl
  rw [step_of_exec_next hs hd rfl, hinstr]

/-- Where one fetch of a jump was refused, its record is the only one, and the end of the step enters the fault. -/
theorem State.endStep_of_refused_jump {s : State} (h : s.err = []) (a b : Word) (r : ErrorRecord) :
    (((s.setIp a).raise r).setIp b).endStep = ((s.setIp b).setErr [r]).setStatus .faulted := by
  rw [raise_setIp, raise_of_err_nil r (s := (s.setIp a).setIp b) h, endStep_of_error (by simp)]
  rfl

/-- Settles O41: the three fetches go by where IP stands, and the address takes the place of the IP they leave. -/
theorem jumpSetsIp : Obligations.JumpSetsIp := by
  refine ⟨fun _ _ => runsAs_of_decode rfl, fun _ _ => rfl, ?whole, ?lowRefused, ?highRefused⟩
  case whole =>
    rintro s hi lo ⟨hs, herr⟩ hip hop hhi hlo
    have hopFetch : s.fetch = (0x60, s.setIp (s.ip + 1)) := State.fetch_at rfl (by bv_omega) hop
    have hhiFetch : (s.setIp (s.ip + 1)).fetch = (hi, s.setIp (s.ip + 1 + 1)) := State.fetch_at rfl (by bv_omega) hhi
    have hloFetch : (s.setIp (s.ip + 1 + 1)).fetch = (lo, s.setIp (s.ip + 2 + 1)) :=
      State.fetch_at (s.ip.add_assoc 1 1) (by bv_omega) hlo
    rw [step_jmp_of_fetches hs hopFetch hhiFetch hloFetch]
    exact congrArg Host.Outcome.next (State.endStep_of_no_error herr)
  case lowRefused =>
    rintro s hi ⟨hs, herr⟩ hip hop hhi
    have hopFetch : s.fetch = (0x60, s.setIp 0xFFFE) := State.fetch_at hip (by decide) hop
    have hhiFetch : (s.setIp 0xFFFE).fetch = (hi, s.setIp 0xFFFF) :=
      State.fetch_at (a := 0xFFFE) rfl (by decide) hhi
    rw [step_jmp_of_fetches hs hopFetch hhiFetch s.fetch_setIp_limit, State.endStep_of_refused_jump herr]
    rfl
  case highRefused =>
    rintro s lo ⟨hs, herr⟩ hip hop rfl
    have hopFetch : s.fetch = (0x60, s.setIp 0xFFFF) := State.fetch_at hip (by decide) hop
    rw [step_jmp_of_fetches hs hopFetch s.fetch_setIp_limit (s.fetch_after_refused _), State.endStep_of_refused_jump herr]
    rfl

/-! ### The conditional jumps -/

theorem condEq_of_eq {v w : Byte} (h : v = w) : condEq v w = true := beq_iff_eq.2 h

theorem condEq_of_ne {v w : Byte} (h : v ≠ w) : condEq v w = false := beq_eq_false_iff_ne.2 h

/-- The two conditions exclude each other, and one of them holds. -/
theorem condNe_eq_not_condEq (v w : Byte) : condNe v w = !condEq v w := rfl

theorem exec_jeq (r : Nat) (a : Word) (s : State) :
    exec (.jeq r a) s = .next ((s.raiseAll (regErrors r)).jumpIf (condEq (s.x 0) (s.regVal r)) a) := by
  simp only [exec, execJeq, State.regRead_eq, State.raiseAll_x]

theorem exec_jne (r : Nat) (a : Word) (s : State) :
    exec (.jne r a) s = .next ((s.raiseAll (regErrors r)).jumpIf (!condEq (s.x 0) (s.regVal r)) a) := by
  simp only [exec, execJne, State.regRead_eq, State.raiseAll_x, condNe_eq_not_condEq]

/-- Settles O42: both jumps go by the one comparison of `x[0]` with the value read, so exactly one of the two is taken. -/
theorem conditionalJumps : Obligations.ConditionalJumps := by
  refine ⟨fun _ _ _ => ⟨runsAs_of_decode rfl, runsAs_of_decode rfl⟩, fun r a s => ⟨fun heq => ?equal, fun hne => ?differ⟩⟩
  case equal =>
    rw [exec_jeq, exec_jne, condEq_of_eq heq]
    exact ⟨rfl, rfl⟩
  case differ =>
    rw [exec_jeq, exec_jne, condEq_of_ne hne]
    exact ⟨rfl, rfl⟩

end Sys2Proof.Machine

/-! PROOFS. The stack, the call and the return (O43, O44, O45, O46, O50, O51, O52): a push and a pop in each of their cases, a
row of saves as one equation, the frame a return reads back, and what these undo of one another. -/

namespace Sys2Proof.Machine

/-! ### A push and a pop, in each case -/

namespace State

theorem push_of_limit {s : State} (h : s.sp = Config.stackLimit) (v : Byte) :
    s.push v = s.raise (ErrorRecord.ofCode .stackOverflow) := if_pos h

theorem push_of_room {s : State} (hsp : s.sp ≠ Config.stackLimit) (hfs : s.fs ≠ Config.frameLimit) (v : Byte) :
    s.push v = ((s.memWrite s.sp v).setSp (s.sp + 1)).setFs (s.fs + 1) := by
  simp only [push, if_neg hsp, if_neg hfs]

/-- The push that wraps the frame count is carried out like any other (decision D7). -/
theorem push_of_full_frame {s : State} (hsp : s.sp ≠ Config.stackLimit) (hfs : s.fs = Config.frameLimit) (v : Byte) :
    s.push v = (((s.raise (ErrorRecord.ofCode .frameTooLarge)).memWrite s.sp v).setSp (s.sp + 1)).setFs 0 := by
  simp only [push, if_neg hsp, hfs, if_true, raise_memWrite, raise_setSp]
  rfl

theorem push_memRead_other {s : State} (hwf : s.mem.wf = true) {a : Word} (ha : a ≠ s.sp ∨ s.sp = Config.stackLimit)
    (v : Byte) : (s.push v).memRead a = s.memRead a := by
  have hwritten (hsp : s.sp ≠ Config.stackLimit) :
      (((s.memWrite s.sp v).setSp (s.sp + 1)).setFs (s.fs + 1)).memRead a = s.memRead a :=
    memWrite_memRead_other s hwf v (ha.resolve_right hsp).symm
  obtain ⟨_, h⟩ | ⟨hsp, _, h⟩ | ⟨hsp, _, h⟩ := s.push_cases v <;> rw [h]
  · rw [raise_memRead]
  · rw [hwritten hsp]
  · rw [raise_memRead, hwritten hsp]

end State

theorem exec_spl (v : Byte) (s : State) : exec (.spl v) s = .next (s.push v) := rfl

theorem exec_stp_of_refused {s : State} (h : s.fs = 0 ∨ s.sp = Config.stackBase) (r : Nat) :
    exec (.stp r) s = .next (s.raise (ErrorRecord.ofCode .stackUnderflow)) := if_pos (s.popRefused_iff.2 h)

theorem exec_stp_of_room {s : State} (hfs : s.fs ≠ 0) (hsp : s.sp ≠ Config.stackBase) (r : Nat) :
    exec (.stp r) s =
      .next (((s.setSp (s.sp - 1)).setFs (s.fs - 1)).regWrite r (s.memRead (s.sp - 1))) :=
  if_neg (s.popRefused_iff.not.2 (not_or.2 ⟨hfs, hsp⟩))

/-- Settles O43: both are one push, `SPR` after the record of its register read, so each goes by the case of the push. -/
theorem pushInstructions : Obligations.PushInstructions := by
  refine ⟨fun _ => runsAs_of_decode rfl, fun _ => runsAs_of_decode rfl,
    fun v s => ⟨fun hsp => ?_, fun hsp hfs => ?_, fun hsp hfs => ?_⟩,
    fun r s => ⟨fun hsp => ?_, fun hsp hfs => ?_, fun hsp hfs => ?_⟩, ?frame⟩
  · rw [exec_spl, State.push_of_limit hsp]
    rfl
  · rw [exec_spl, State.push_of_room hsp hfs]
  · rw [exec_spl, State.push_of_full_frame hsp hfs]
    rfl
  · rw [exec_spr, State.push_of_limit (by rwa [State.raiseAll_sp]), State.raiseAll_append]
    rfl
  · rw [exec_spr, State.push_of_room (by rwa [State.raiseAll_sp]) (by rwa [State.raiseAll_fs]), State.raiseAll_sp,
      State.raiseAll_fs]
  · rw [exec_spr, State.push_of_full_frame (by rwa [State.raiseAll_sp]) (by rwa [State.raiseAll_fs]), State.raiseAll_sp,
      State.raiseAll_append]
    rfl
  case frame =>
    rintro i s t (⟨v, rfl⟩ | ⟨r, rfl⟩) hwf h a ha
    · cases (exec_spl v s).symm.trans h
      exact State.push_memRead_other hwf ha v
    · cases (exec_spr s r).symm.trans h
      rw [State.push_memRead_other (by rwa [State.raiseAll_mem]) (by rwa [State.raiseAll_sp]), State.raiseAll_memRead]

/-- Settles O44: a pop that is not refused is one register write after SP and FS have gone down. -/
theorem popInstruction : Obligations.PopInstruction := by
  refine ⟨fun _ => runsAs_of_decode rfl, fun r s h => exec_stp_of_refused h r, fun r s hfs hsp => ?_,
    fun r s hr hfs hsp => ?_⟩
  · rw [exec_stp_of_room hfs hsp, State.regWrite_fin]
  · rw [exec_stp_of_room hfs hsp, State.regWrite_of_ge _ _ hr]
    rfl

/-! ### A row of saves -/

namespace State

theorem saveAll_append (s : State) (vs ws : List Byte) : s.saveAll (vs ++ ws) = (s.saveAll vs).saveAll ws := by
  induction vs generalizing s with
  | nil => rfl
  | cons v rest ih => exact ih (s.save v)

/-- At the limit every save is refused. -/
theorem saveAll_of_limit {s : State} (h : s.sp = Config.stackLimit) (vs : List Byte) :
    s.saveAll vs = s.raiseAll (List.replicate vs.length (ErrorRecord.ofCode .stackOverflow)) := by
  induction vs generalizing s with
  | nil => rfl
  | cons v rest ih =>
    have hsave : s.save v = s.raise (ErrorRecord.ofCode .stackOverflow) := if_pos h
    rw [saveAll_cons, hsave, ih (by rwa [raise_sp])]
    rfl

/-- A row of saves writes as many bytes as there is room for, and each of the others is refused. -/
theorem saveAll_eq (s : State) (vs : List Byte) :
    s.saveAll vs = (s.saveAll (vs.take (65535 - s.sp.toNat))).raiseAll
      (List.replicate (vs.length - (65535 - s.sp.toNat)) (ErrorRecord.ofCode .stackOverflow)) := by
  obtain hfits | hover := Nat.le_total vs.length (65535 - s.sp.toNat)
  · rw [List.take_of_length_le hfits, Nat.sub_eq_zero_of_le hfits]
    rfl
  · have hlength : (vs.take (65535 - s.sp.toNat)).length = 65535 - s.sp.toNat := List.length_take_of_le hover
    have hlimit : (s.saveAll (vs.take (65535 - s.sp.toNat))).sp = Config.stackLimit := by
      rw [(saveAll_err_of_room (by omega)).2, hlength]
      bv_omega
    conv_lhs => rw [← List.take_append_drop (65535 - s.sp.toNat) vs]
    rw [saveAll_append, saveAll_of_limit hlimit, List.length_drop]

theorem saveAll_take_room (s : State) (vs : List Byte) :
    (s.saveAll (vs.take (65535 - s.sp.toNat))).err = s.err ∧
      (s.saveAll (vs.take (65535 - s.sp.toNat))).sp = s.sp + BitVec.ofNat 16 (min vs.length (65535 - s.sp.toNat)) := by
  have hlength := List.length_take (l := vs) (i := 65535 - s.sp.toNat)
  rw [Nat.min_comm, ← hlength]
  exact saveAll_err_of_room (by omega)

theorem saveAll_sp (s : State) (vs : List Byte) :
    (s.saveAll vs).sp = s.sp + BitVec.ofNat 16 (min vs.length (65535 - s.sp.toNat)) := by
  rw [saveAll_eq, raiseAll_sp, (s.saveAll_take_room vs).2]

theorem saveAll_err_eq (s : State) (vs : List Byte) :
    (s.saveAll vs).err = (s.raiseAll (List.replicate (vs.length - min vs.length (65535 - s.sp.toNat))
      (ErrorRecord.ofCode .stackOverflow))).err := by
  have hrefused : vs.length - min vs.length (65535 - s.sp.toNat) = vs.length - (65535 - s.sp.toNat) := by omega
  rw [hrefused, saveAll_eq]
  exact raiseAll_err_congr (s.saveAll_take_room vs).1 _

@[simp] theorem saveAll_x (s : State) (vs : List Byte) (r : Fin 8) : (s.saveAll vs).x r = s.x r := by
  simp [State.x]

/-- A row of saves writes only where it finds room, from SP upward. -/
theorem saveAll_memRead_other {s : State} (hwf : s.mem.wf = true) (vs : List Byte) {b : Word}
    (hb : ∀ k, k < min vs.length (65535 - s.sp.toNat) → b ≠ s.sp + BitVec.ofNat 16 k) :
    (s.saveAll vs).memRead b = s.memRead b := by
  induction vs generalizing s with
  | nil => rfl
  | cons v rest ih =>
    obtain ⟨hlimit, _⟩ | ⟨hne, hsave⟩ := s.save_cases v
    · rw [saveAll_of_limit hlimit, raiseAll_memRead]
    · have hroom : 65535 - s.sp.toNat = 65535 - (s.save v).sp.toNat + 1 := by
        rw [hsave, setSp_sp]
        bv_omega
      rw [List.length_cons, hroom, Nat.add_min_add_right] at hb
      have hfirst : s.sp ≠ b := by simpa using (hb 0 (Nat.succ_pos _)).symm
      rw [saveAll_cons, ih (save_wf hwf v), hsave, setSp_memRead, memWrite_memRead_other s hwf v hfirst]
      intro k hk
      rw [hsave, setSp_sp, ← word_add_succ]
      exact hb (k + 1) (Nat.succ_lt_succ hk)

end State

/-- Settles O45: a call is the row of the nine saves, after which it sets FS and IP. -/
theorem callSavesFrame : Obligations.CallSavesFrame := by
  refine ⟨fun _ _ => runsAs_of_decode rfl, fun a s => ?_⟩
  have hlength : s.frame.length = 9 := rfl
  have hsp := s.saveAll_sp s.frame
  have herr := s.saveAll_err_eq s.frame
  rw [hlength] at hsp herr
  refine ⟨((s.saveAll s.frame).setFs 0).setIp a, rfl, ?sp, rfl, rfl, ?err, fun r => by simp, by simp, by simp, by simp,
    by simp, fun hwf => ⟨?_, ?_⟩⟩
  case sp => rw [State.setIp_sp, State.setFs_sp, hsp]
  case err =>
    rw [State.setIp_err, State.setFs_err, herr]
    rfl
  · intro k hk hroom
    rw [State.setIp_memRead, State.setFs_memRead]
    exact State.saveAll_memRead hwf s.frame hk hroom
  · intro b hb
    rw [State.setIp_memRead, State.setFs_memRead]
    exact State.saveAll_memRead_other hwf s.frame hb

/-! ### What a return reads back -/

/-- `s` once the nine bytes below `b` have been read back into it, and SP taken below them (spec/45_stack_call.md R168). -/
def State.withFrameBelow (s : State) (b : Word) : State :=
  let regs := (((((s.setX 7 (s.memRead (b - 3))).setX 6 (s.memRead (b - 4))).setX 5 (s.memRead (b - 5))).setX 4
    (s.memRead (b - 6))).setX 3 (s.memRead (b - 7))).setX 2 (s.memRead (b - 8))
  ((regs.setIp (joinBytes (s.memRead (b - 2)) (s.memRead (b - 1)))).setFs (s.memRead (b - 9))).setSp (b - 9)

theorem exec_ret (s : State) : exec .ret s = .next (s.withFrameBelow (s.sp - s.fs.setWidth 16)) := by
  generalize hb : s.sp - s.fs.setWidth 16 = b
  simp only [exec, execRet, State.restoreX_eq, State.restore, State.setIp_sp, State.setSp_sp, State.setX_sp,
    State.setIp_memRead, State.setSp_memRead, State.setX_memRead, hb, BitVec.sub_sub]
  rfl

/-- Settles O46, from the return as one equation: no two of the nine bytes go to the same place. -/
theorem returnRestoresFrame : Obligations.ReturnRestoresFrame := by
  refine ⟨runsAs_of_decode rfl, ?_⟩
  rintro s b rfl
  refine ⟨_, exec_ret s, ?_⟩
  simp [State.withFrameBelow, State.setX_x]

/-! ### A call and its return -/

/-- A call that fits leaves `ERR` as it was and SP past its nine saves, each of which holds its byte. -/
theorem exec_cll_of_room {a : Word} {s t : State} (hwf : s.mem.wf = true) (hsp : s.sp.toNat ≤ 0xFFF6)
    (h : exec (.cll a) s = .next t) :
    t.err = s.err ∧ t.sp = s.sp + 9 ∧ t.fs = 0 ∧
      ∀ k (hk : k < s.frame.length), t.memRead (s.sp + BitVec.ofNat 16 k) = s.frame[k] := by
  obtain ⟨u, hu, husp, hufs, _, huerr, _, _, _, _, _, humem⟩ := callSavesFrame.2 a s
  cases hu.symm.trans h
  have hroom : min 9 (65535 - s.sp.toNat) = 9 := by omega
  rw [hroom] at husp huerr
  refine ⟨huerr, husp, hufs, fun k hk => (humem hwf).1 k hk ?_⟩
  have hk9 : k < 9 := hk
  omega

/-- Nine bytes up, and down again to the `k`-th of them. -/
theorem word_add_nine_sub (a : Word) {k : Nat} (hk : k < 9) :
    a + 9 - BitVec.ofNat 16 (9 - k) = a + BitVec.ofNat 16 k := by
  bv_omega

/-- Settles O50: the bytes below the callee's own are the nine that the call saved, so the return reads the caller's back. -/
theorem callAndReturnAreInverse : Obligations.CallAndReturnAreInverse := by
  intro a s t u hwf hsp hcall hkept husp
  obtain ⟨hterr, htsp, htfs, hsaved⟩ := exec_cll_of_room hwf hsp hcall
  have hbase : s.sp + 9 = u.sp - u.fs.setWidth 16 := by rw [husp, BitVec.add_sub_cancel]
  obtain ⟨v, hret, hip, h7, h6, h5, h4, h3, h2, hfs, hvsp, h0, h1, herr, _, hmem, _⟩ :=
    returnRestoresFrame.2 u (s.sp + 9) hbase
  have hread (k : Nat) (hk : k < 9) : u.memRead (s.sp + 9 - BitVec.ofNat 16 (9 - k)) = s.frame[k]'hk := by
    rw [word_add_nine_sub s.sp hk, hkept k hk, hsaved k hk]
  refine ⟨hterr, ?base, v, hret, ?sp, hfs.trans (hread 0 (by decide)), ?ip, fun r hr => ?regs, h0, h1, herr, hmem⟩
  case base =>
    rw [htsp, htfs]
    exact (BitVec.add_zero _).symm
  case sp => rw [hvsp, BitVec.add_sub_cancel]
  case ip =>
    have hhigh : u.memRead (s.sp + 9 - 2) = highByte s.ip := hread 7 (by decide)
    have hlow : u.memRead (s.sp + 9 - 1) = lowByte s.ip := hread 8 (by decide)
    rw [hip, hhigh, hlow, joinBytes_highByte_lowByte]
  case regs =>
    match r, hr with
    | 0, hr | 1, hr => exact absurd hr (by decide)
    | 2, _ => exact h2.trans (hread 1 (by decide))
    | 3, _ => exact h3.trans (hread 2 (by decide))
    | 4, _ => exact h4.trans (hread 3 (by decide))
    | 5, _ => exact h5.trans (hread 4 (by decide))
    | 6, _ => exact h6.trans (hread 5 (by decide))
    | 7, _ => exact h7.trans (hread 6 (by decide))

/-! ### The base of the frame -/

/-- Where the callee's own bytes begin: SP less FS. -/
def State.frameBase (s : State) : Word := s.sp - s.fs.setWidth 16

namespace State

/-- A push that does not wrap the frame count leaves the frame where it begins. -/
theorem push_frameBase {s : State} (hfs : s.fs ≠ Config.frameLimit) (v : Byte) : (s.push v).frameBase = s.frameBase := by
  obtain ⟨_, h⟩ | ⟨_, _, h⟩ | ⟨_, hfull, _⟩ := s.push_cases v
  · rw [h, frameBase, raise_sp, raise_fs, frameBase]
  · rw [h, frameBase, setFs_fs, setFs_sp, setSp_sp, frameBase]
    bv_omega
  · exact absurd hfull hfs

/-- Raising a record always shows in a list that had room. -/
theorem raiseAll_err_ne_of_room {s : State} (h : s.err.length < Config.errCap) {rs : List ErrorRecord} (hrs : rs ≠ []) :
    (s.raiseAll rs).err ≠ s.err := by
  obtain ⟨r, rest, rfl⟩ := List.exists_cons_of_ne_nil hrs
  intro heq
  have hgrows := (raiseAll_err_grows (s.raise r) rest).length_le
  rw [← raiseAll_cons, heq, raise_of_room r h, setErr_err, List.length_append, List.length_singleton] at hgrows
  omega

/-- A push onto a full frame records an error, be it refused or carried out. -/
theorem push_err_of_full_frame {s : State} (hfs : s.fs = Config.frameLimit) (v : Byte) :
    ∃ r, (s.push v).err = (s.raise r).err := by
  by_cases hsp : s.sp = Config.stackLimit
  · exact ⟨_, by rw [push_of_limit hsp]⟩
  · exact ⟨ErrorRecord.ofCode .frameTooLarge, by rw [push_of_full_frame hsp hfs]; rfl⟩

/-- A push that leaves `ERR` as it was before its register access keeps the base of the frame. -/
theorem push_frameBase_of_no_error {s : State} (hroom : s.err.length < Config.errCap) {rs : List ErrorRecord} {v : Byte}
    (herr : ((s.raiseAll rs).push v).err = s.err) : ((s.raiseAll rs).push v).frameBase = s.frameBase := by
  have hfs : (s.raiseAll rs).fs ≠ Config.frameLimit := by
    intro hfull
    obtain ⟨r, hr⟩ := push_err_of_full_frame hfull v
    refine raiseAll_err_ne_of_room hroom (rs := rs ++ [r]) (by simp) ?_
    rw [raiseAll_append, ← herr, hr]
    rfl
  rw [push_frameBase hfs, frameBase, raiseAll_sp, raiseAll_fs, frameBase]

end State

/-- A pop keeps the base of the frame, refused or not. -/
theorem exec_stp_frameBase {r : Nat} {s t : State} (h : exec (.stp r) s = .next t) : t.frameBase = s.frameBase := by
  by_cases hrefused : s.fs = 0 ∨ s.sp = Config.stackBase
  · cases (exec_stp_of_refused hrefused r).symm.trans h
    rw [State.frameBase, State.raise_sp, State.raise_fs, State.frameBase]
  · obtain ⟨hfs, hsp⟩ := not_or.1 hrefused
    cases (exec_stp_of_room hfs hsp r).symm.trans h
    rw [State.frameBase, State.regWrite_sp, State.regWrite_fs, State.setFs_sp, State.setFs_fs, State.setSp_sp,
      State.frameBase]
    bv_omega

/-- Settles O51: a push keeps the base of the frame unless it wraps the frame count, which it records; a pop always keeps it. -/
theorem stackInstructionsKeepFrameBase : Obligations.StackInstructionsKeepFrameBase := by
  rintro i s t (⟨v, rfl⟩ | ⟨r, rfl⟩ | ⟨r, rfl⟩) hroom h herr
  · cases (exec_spl v s).symm.trans h
    exact State.push_frameBase_of_no_error (rs := []) hroom herr
  · cases (exec_spr s r).symm.trans h
    exact State.push_frameBase_of_no_error hroom herr
  · exact exec_stp_frameBase h

/-! ### Pushes and pops -/

theorem State.push_wf {s : State} (hwf : s.mem.wf = true) (v : Byte) : (s.push v).mem.wf = true := by
  obtain ⟨_, h⟩ | ⟨_, _, h⟩ | ⟨_, _, h⟩ := s.push_cases v <;> rw [h]
  · rwa [State.raise_mem]
  · exact State.memWrite_wf hwf s.sp v
  · rw [State.raise_mem]
    exact State.memWrite_wf hwf s.sp v

theorem execAll_append_of_next {is : List Instr} {s t : State} (js : List Instr) (h : execAll is s = .next t) :
    execAll (is ++ js) s = execAll js t := by
  induction is generalizing s with
  | nil =>
    cases h
    rfl
  | cons i rest ih =>
    rw [execAll] at h
    cases hi : exec i s with
    | next u =>
      rw [hi] at h
      rw [List.cons_append, execAll_cons_of_next _ hi, ih h]
    | fault f =>
      rw [hi] at h
      cases h
    | refused r =>
      rw [hi] at h
      cases h

/-- In a state that stands where `s` stood after a push, a pop takes SP and FS back to where `s` had them, and delivers the
byte at the SP of `s`. The stack of `s` is not below its base, so the pop is not refused (R166, R169). -/
theorem exec_stp_of_pushed {s t : State} (hbase : 0xFF00 ≤ s.sp.toNat) (hframe : s.fs ≠ Config.frameLimit)
    (hsp : t.sp = s.sp + 1) (hfs : t.fs = s.fs + 1) (r : Fin 8) :
    exec (.stp r.val) t = .next (((t.setSp s.sp).setFs s.fs).setX r (t.memRead s.sp)) := by
  have hfs0 : t.fs ≠ 0 := by bv_omega
  have hspBase : t.sp ≠ Config.stackBase := by bv_omega
  rw [exec_stp_of_room hfs0 hspBase, State.regWrite_fin, hsp, hfs, BitVec.add_sub_cancel, BitVec.add_sub_cancel]

/-- What `t` is once the bytes `vs` have been pushed in `s` and popped again into the registers `rs`, in reverse: its stack
and its errors are those of `s`, and so are its registers and its stack but for what the pops and the pushes wrote. -/
structure State.PoppedInto (s t : State) (vs : List Byte) (rs : List (Fin 8)) : Prop where
  sp : t.sp = s.sp
  fs : t.fs = s.fs
  err : t.err = s.err
  popped : ∀ k (h : k < rs.length) (h' : k < vs.length), t.x rs[k] = vs[k]
  kept : ∀ r, r ∉ rs → t.x r = s.x r
  below : ∀ a : Word, a.toNat < s.sp.toNat → t.memRead a = s.memRead a

/-- Pushes and as many pops in reverse order, by induction on the bytes: the first push and the last pop enclose the rest. -/
theorem execAll_pushes_pops {s : State} {vs : List Byte} {rs : List (Fin 8)} (hwf : s.mem.wf = true)
    (hbase : 0xFF00 ≤ s.sp.toNat) (hroom : s.sp.toNat + vs.length ≤ 0xFFFF) (hframe : s.fs.toNat + vs.length ≤ 0xFF)
    (hlength : rs.length = vs.length) (hnodup : rs.Nodup) :
    ∃ t, execAll (vs.map Instr.spl ++ rs.reverse.map (fun r => Instr.stp r.val)) s = .next t ∧ s.PoppedInto t vs rs := by
  induction vs generalizing s rs with
  | nil =>
    cases List.eq_nil_of_length_eq_zero hlength
    exact ⟨s, rfl, rfl, rfl, rfl, nofun, fun _ _ => rfl, fun _ _ => rfl⟩
  | cons v vs ih =>
    obtain ⟨r, rs, rfl⟩ := List.exists_cons_of_length_eq_add_one hlength
    obtain ⟨hr, hnodup⟩ := List.nodup_cons.1 hnodup
    rw [List.length_cons] at hroom hframe hlength
    have hlimit : s.sp ≠ Config.stackLimit := by bv_omega
    have hfs : s.fs ≠ Config.frameLimit := by bv_omega
    have hpush := State.push_of_room hlimit hfs v
    have hpushSp : (s.push v).sp = s.sp + 1 := by rw [hpush]; rfl
    have hpushFs : (s.push v).fs = s.fs + 1 := by rw [hpush]; rfl
    obtain ⟨t, ht, inner⟩ := ih (s := s.push v) (rs := rs) (State.push_wf hwf v) (by bv_omega) (by bv_omega) (by bv_omega)
      (Nat.succ.inj hlength) hnodup
    have hread : t.memRead s.sp = v := by
      rw [inner.below s.sp (by bv_omega), State.push_memRead_sp hwf hlimit]
    have hpop := exec_stp_of_pushed hbase hfs (inner.sp.trans hpushSp) (inner.fs.trans hpushFs) r
    rw [hread] at hpop
    refine ⟨((t.setSp s.sp).setFs s.fs).setX r v, ?run, rfl, rfl, ?err, ?popped, ?kept, ?below⟩
    case run =>
      rw [List.map_cons, List.cons_append, execAll_cons_of_next _ (exec_spl v s), List.reverse_cons, List.map_append,
        ← List.append_assoc, execAll_append_of_next _ ht, List.map_singleton, execAll_cons_of_next [] hpop, execAll]
    case err =>
      rw [State.setX_err, State.setFs_err, State.setSp_err, inner.err, hpush]
      rfl
    case popped =>
      intro k hk hk'
      cases k with
      | zero => exact State.setX_x_same _ r v
      | succ k =>
        have hk : k < rs.length := Nat.lt_of_succ_lt_succ hk
        have hne : r ≠ rs[k] := fun h => hr (h ▸ List.getElem_mem hk)
        exact (State.setX_x_other _ v hne).trans (inner.popped k hk (Nat.lt_of_succ_lt_succ hk'))
    case kept =>
      intro q hq
      obtain ⟨hqr, hqrs⟩ := not_or.1 (List.mem_cons.not.1 hq)
      rw [State.setX_x_other _ v (Ne.symm hqr), State.setFs_x, State.setSp_x, inner.kept q hqrs, hpush]
      rfl
    case below =>
      intro a ha
      rw [State.setX_memRead, State.setFs_memRead, State.setSp_memRead, inner.below a (by bv_omega),
        State.push_memRead_other hwf (.inl (by bv_omega))]

/-- Settles O52: the bytes pushed fit in the stack and in the frame, which holds no more than the stack; and an `SPR` of a
register that exists is the `SPL` of its value, so the copy is the case of one byte. -/
theorem pushesAndPopsAreInverse : Obligations.PushesAndPopsAreInverse := by
  refine ⟨fun s vs rs hwf hfs hbase hroom hlength hnodup => ?_, fun s r1 r2 hwf hfs hbase hlimit => ?_⟩
  · obtain ⟨t, ht, h⟩ := execAll_pushes_pops hwf hbase hroom (by bv_omega) hlength hnodup
    exact ⟨t, ht, h.sp, h.fs.trans hfs, h.err, h.popped, h.kept⟩
  · have hspr : exec (.spr r1.val) s = exec (.spl (s.x r1)) s := by
      rw [exec_spr, regErrors_fin, State.raiseAll_nil, State.regVal_fin, exec_spl]
    have hroom : s.sp.toNat + [s.x r1].length ≤ 0xFFFF := by
      rw [List.length_singleton]
      bv_omega
    have hframe : s.fs.toNat + [s.x r1].length ≤ 0xFF := by
      rw [List.length_singleton]
      bv_omega
    obtain ⟨t, ht, h⟩ := execAll_pushes_pops (rs := [r2]) hwf hbase hroom hframe rfl (List.nodup_singleton r2)
    refine ⟨t, ?_, h.popped 0 Nat.one_pos Nat.one_pos, fun r hr => h.kept r (List.mem_singleton.not.2 hr), h.sp, h.fs,
      h.err⟩
    rw [← ht, execAll, hspr]
    rfl

end Sys2Proof.Machine

/-! PROOFS. Input and output (O47, O48, O58): `PNT` as one equation on the trace, `RIN` as one equation for each of the three
answers to its read, and the steps of a `RIN` that waits and of one that finds a byte. -/

namespace Sys2Proof.Machine

/-! ### `PNT` -/

theorem exec_pnt (a : Word) (len : Byte) (s : State) :
    exec (.pnt a len) s = .next (s.setOutput (s.output ++
      ((List.range len.toNat).map (fun k => OutEvent.byte (s.memRead (a + BitVec.ofNat 16 k))) ++ [.flush]))) :=
  congrArg Host.Outcome.next (s.outRange_outFlush len.toNat a)

theorem word_add_ofNat (a : Word) (k : Nat) : a + BitVec.ofNat 16 k = BitVec.ofNat 16 ((a.toNat + k) % 65536) := by
  apply BitVec.eq_of_toNat_eq
  rw [BitVec.toNat_add, BitVec.toNat_ofNat, BitVec.toNat_ofNat]
  omega

/-- Settles O47: the trace `PNT` leaves, with its addresses as naturals modulo 65536. -/
theorem printEmitsBytes : Obligations.PrintEmitsBytes := by
  refine ⟨fun _ _ _ => runsAs_of_decode rfl, fun a len s => ?_⟩
  simp only [exec_pnt, word_add_ofNat, List.append_assoc]

/-! ### `RIN`, by the answer to its read -/

theorem exec_rin_of_pending {s : State} {b : Byte} {rest : List Byte} (r : Nat) (hp : s.input.pending = b :: rest) :
    exec (.rin r) s = .next ((s.setInput { s.input with pending := rest }).regWrite r b) := by
  simp only [exec, execRin, State.inRead, hp]

theorem exec_rin_of_fails {s : State} (r : Nat) (hp : s.input.pending = []) (ht : s.input.tail = .fails) :
    exec (.rin r) s = .next (((s.setFailedReads (s.failedReads + 1)).raise (ErrorRecord.ofCode .readInput)).regWrite r
      (Config.rinFailValue s.failedReads)) := by
  simp only [exec, execRin, State.inRead, hp, ht]

theorem exec_rin_of_waits {s : State} (r : Nat) (h : s.Waits) : exec (.rin r) s = .fault .awaitingInput := by
  obtain ⟨hp, ht⟩ := h
  simp only [exec, execRin, State.inRead, hp, ht]

/-- Settles O48: the three answers, and for the two that complete whether the register exists. -/
theorem readInput : Obligations.ReadInput := by
  refine ⟨fun _ => runsAs_of_decode rfl, fun r s b rest hp => ?taken, fun r s b rest hr hp => ?lost,
    fun r s hp ht => ?failed, fun r s hr hp ht => ?failedAndLost, fun r s => exec_rin_of_waits r⟩
  case taken => rw [exec_rin_of_pending r hp, State.regWrite_fin]
  case lost =>
    rw [exec_rin_of_pending r hp, State.regWrite_of_ge _ b hr]
    rfl
  case failed =>
    rw [exec_rin_of_fails r hp ht, State.regWrite_fin]
    rfl
  case failedAndLost =>
    rw [exec_rin_of_fails r hp ht, State.regWrite_of_ge _ _ hr]
    rfl

/-! ### The step of a `RIN` -/

/-- The fetches neither read the input nor depend on it, so a `RIN` finds what was first in it before the step, whether its
register exists or not. -/
theorem step_rin_eq_of_pending {s : State} {r : Nat} {b : Byte} {rest : List Byte} (hs : s.status = .running)
    (hd : decode s.fetchInstr.1 = .ok (.rin r, [])) (hp : s.input.pending = b :: rest) :
    step s = .next ((s.fetchInstr.2.setInput { s.input with pending := rest }).regWrite r b).endStep := by
  rw [← s.fetchInstr_input] at hp ⊢
  exact step_of_exec_next hs hd (exec_rin_of_pending r hp)

/-- Settles O58: the waiting step is O48's fault; the byte supplied is the only one unread, so taking it leaves the input as
it was before. -/
theorem waitingChangesNothing : Obligations.WaitingChangesNothing := by
  intro s r b hs hd hwaits
  have ⟨hnone, _⟩ := hwaits
  refine ⟨step_of_exec_awaiting hs hd (exec_rin_of_waits r (s.fetchInstr_waits_iff.2 hwaits)), ?_⟩
  have hd' : decode (s.deliver b).fetchInstr.1 = .ok (.rin r, []) := by rwa [State.deliver, State.fetchInstr_setInput]
  have hp : (s.deliver b).input.pending = [b] := by rw [State.deliver, hnone]; rfl
  refine ⟨_, step_rin_eq_of_pending hs hd' hp, ?input, ?ip, fun h => ?register⟩
  case input =>
    rw [State.endStep_input, State.regWrite_input, State.setInput_input, State.deliver, State.setInput_input, ← hnone]
  case ip =>
    rw [State.endStep_ip, State.regWrite_ip, State.setInput_ip, State.deliver, State.fetchInstr_setInput,
      State.setInput_ip]
  case register => rw [State.endStep_x, State.regWrite_fin _ ⟨r, h⟩, State.setX_x_same]

end Sys2Proof.Machine

/-! PROOFS. Halting, the errors of a step, and reset (O10, O17, O26, O31, O49, O57, O59): what a machine that is not running
answers, how many records an instruction raises at most, and how many accesses the memory port carries. -/

namespace Sys2Proof.Machine

/-! ### A machine that is not running -/

theorem step_of_not_running {s : State} (h : s.status ≠ .running) : step s = .fault (.notRunning s.status) := by
  cases hs : s.status with
  | running => exact absurd hs h
  | halted | faulted => simp only [step, hs]

theorem step_ne_next_of_not_running {s : State} (h : s.status ≠ .running) (t : State) : step s ≠ .next t := by
  rw [step_of_not_running h]
  exact nofun

theorem run_of_not_running {s : State} (h : s.status ≠ .running) (n : Nat) : run n s = s := by
  cases n with
  | zero => rfl
  | succ n => rw [run, step_of_not_running h]

@[simp] theorem Input.supply_status (input : Input) (k : Nat) (s : State) : (input.supply k s).2.status = s.status := by
  rw [Input.supply_eq]; rfl

/-- What the environment supplies does not set a machine running, and where no step is taken the run keeps the state from
before it. -/
theorem runOn_of_not_running {s : State} (h : s.status ≠ .running) (input : Input) (n k : Nat) :
    (runOn input n k s).2 = s := by
  cases n with
  | zero => rfl
  | succ n =>
    obtain ⟨t, hs, _⟩ | ⟨_, hrun⟩ := runOn_succ input n k s
    · exact absurd hs (step_ne_next_of_not_running (by rwa [Input.supply_status]) t)
    · rw [hrun]

theorem Reaches.eq_of_not_running {s t : State} (h : s.status ≠ .running) (hreach : Reaches s t) : t = s := by
  induction hreach with
  | refl => rfl
  | step _ hstep ih => exact absurd (ih ▸ hstep) (step_ne_next_of_not_running h _)

/-- Settles O10: no step is taken, and so no run goes on, whichever way it is run. -/
theorem terminalStatesAreFinal : Obligations.TerminalStatesAreFinal :=
  fun _ h => ⟨step_of_not_running h, State.memAccesses_of_not_running h, run_of_not_running h,
    runOn_of_not_running h, fun _ => Reaches.eq_of_not_running h, fun _ => rfl⟩

/-! ### `HLT` -/

/-- Below the limit an opcode without operands is all that is fetched. -/
theorem State.fetchInstr_of_opcode {s : State} {op : Byte} (hip : s.ip ≠ Config.fetchLimit) (hbyte : s.memRead s.ip = op)
    (hop : operandBytes op = 0) : s.fetchInstr = ([op], s.setIp (s.ip + 1)) := by
  have hfetch : s.fetch = (op, s.setIp (s.ip + 1)) := by rw [State.fetch_of_ne hip, hbyte]
  rw [State.fetchInstr_of_no_operands (by rw [hfetch, hop]), hfetch]

/-- Settles O49: `0xFF` is all that is fetched, and no error turns the halt into a fault. -/
theorem haltEndsTheRun : Obligations.HaltEndsTheRun := by
  refine ⟨runsAs_of_decode rfl, fun _ => rfl, ?_⟩
  rintro s ⟨hs, herr⟩ hip hbyte
  have hfetch := State.fetchInstr_of_opcode hip hbyte rfl
  have hstep : step s = .next (s.fetchInstr.2.setStatus .halted).endStep :=
    step_of_exec_next hs (i := .hlt) (rest := []) (by rw [hfetch]; rfl) rfl
  rw [hstep, hfetch, State.endStep_of_no_error (by simpa using herr)]

/-! ### The error list and the outputs -/

theorem State.raise_of_full {s : State} (r : ErrorRecord) (h : Config.errCap ≤ s.err.length) : s.raise r = s :=
  if_neg (Nat.not_lt.2 h)

/-- Settles O31, by whether the list has room. -/
theorem raiseAppendsOneRecord : Obligations.RaiseAppendsOneRecord :=
  fun _ q => ⟨State.raise_of_room q, State.raise_of_full q⟩

theorem State.exitStatus_eq (s : State) : s.exitStatus = if s.status = .faulted then 1 else 0 := by
  split
  · next h => exact State.exitStatus_of_faulted h
  · next h => exact State.exitStatus_of_ne_faulted h

/-- The four bits of `err_count` hold every length that fits the capacity. -/
theorem State.errCount_toNat {s : State} (h : s.err.length ≤ Config.errCap) : s.errCount.toNat = s.err.length := by
  rw [State.errCount, BitVec.toNat_ofNat]
  exact Nat.mod_eq_of_lt (h.trans_lt (by decide))

theorem State.errRec_of_lt {s : State} {k : Nat} (h : k < s.err.length) :
    s.errRec k = (s.err[k].code.bits, s.err[k].info0, s.err[k].info1) := by
  rw [State.errRec, List.getElem?_eq_getElem h]

theorem State.errRec_of_ge {s : State} {k : Nat} (h : s.err.length ≤ k) : s.errRec k = (0, 0, 0) := by
  rw [State.errRec, List.getElem?_eq_none h]

/-- Settles O59: the codes as they are tabled, and each output by its cases. -/
theorem statusAndErrorOutputs : Obligations.StatusAndErrorOutputs :=
  ⟨⟨rfl, rfl, rfl⟩, State.exitStatus_eq, ⟨rfl, rfl, rfl, rfl, rfl, rfl, rfl, rfl⟩, fun _ => State.errCount_toNat,
    fun _ _ => State.errRec_of_lt, fun _ _ => State.errRec_of_ge⟩

/-! ### How many records an instruction raises -/

/-- `ERR` holds in `u` what it held in `s`, and after that what raising at most `n` records adds. -/
def State.RaisesAtMost (n : Nat) (s u : State) : Prop :=
  ∃ rs, rs.length ≤ n ∧ u.err = (s.raiseAll rs).err

namespace State.RaisesAtMost

variable {m n : Nat} {s t u : State}

theorem of_err_eq (h : u.err = s.err) : RaisesAtMost n s u := ⟨[], Nat.zero_le n, h⟩

theorem mono (h : RaisesAtMost m s u) (hmn : m ≤ n) : RaisesAtMost n s u := by
  obtain ⟨rs, hlen, herr⟩ := h
  exact ⟨rs, hlen.trans hmn, herr⟩

theorem trans (h : RaisesAtMost m s t) (h' : RaisesAtMost n t u) : RaisesAtMost (m + n) s u := by
  obtain ⟨rs, hlen, herr⟩ := h
  obtain ⟨qs, hlen', herr'⟩ := h'
  refine ⟨rs ++ qs, by rw [List.length_append]; omega, ?_⟩
  rw [herr', State.raiseAll_append, State.raiseAll_err_congr herr]

theorem congr (h : RaisesAtMost n s t) (herr : u.err = t.err) : RaisesAtMost n s u := h.trans (.of_err_eq (n := 0) herr)

theorem raise (s : State) (r : ErrorRecord) : RaisesAtMost 1 s (s.raise r) := ⟨[r], Nat.le_refl 1, rfl⟩

theorem raiseAll (s : State) (rs : List ErrorRecord) : RaisesAtMost rs.length s (s.raiseAll rs) :=
  ⟨rs, Nat.le_refl _, rfl⟩

theorem regRead (s : State) (r : Nat) : RaisesAtMost (regErrors r).length s (s.regRead r).2 := by
  rw [State.regRead_eq]
  exact raiseAll s _

theorem ptr (s : State) (p : Nat) : RaisesAtMost (ptrErrors p).length s (s.ptr p).2 := by
  rw [State.ptr_eq]
  exact raiseAll s _

theorem regWrite (s : State) (r : Nat) (v : Byte) : RaisesAtMost (regErrors r).length s (s.regWrite r v) :=
  ⟨_, Nat.le_refl _, s.regWrite_err r v⟩

theorem regRead_one (s : State) (r : Nat) : RaisesAtMost 1 s (s.regRead r).2 := (regRead s r).mono (regErrors_length_le r)

theorem regWrite_one (s : State) (r : Nat) (v : Byte) : RaisesAtMost 1 s (s.regWrite r v) :=
  (regWrite s r v).mono (regErrors_length_le r)

theorem push (s : State) (v : Byte) : RaisesAtMost 1 s (s.push v) := by
  obtain ⟨rs, herr, hlen, _⟩ := s.push_err v
  exact ⟨rs, hlen, herr⟩

theorem saveAll (s : State) (vs : List Byte) : RaisesAtMost vs.length s (s.saveAll vs) :=
  ⟨_, (List.length_replicate ..).trans_le (Nat.sub_le _ _), s.saveAll_err_eq vs⟩

/-- From no error on, as many records as the capacity allows are all recorded, and none is dropped. -/
theorem err_length_le (h : RaisesAtMost n s u) (hs : s.err = []) (hn : n ≤ Config.errCap) : u.err.length ≤ n := by
  obtain ⟨rs, hlen, herr⟩ := h
  rw [herr, State.raiseAll_of_room (by simpa [hs] using hlen.trans hn), State.setErr_err, hs]
  exact hlen

end State.RaisesAtMost

theorem ptrErrors_length_le (p : Nat) : (ptrErrors p).length ≤ 2 := by
  rw [ptrErrors, List.length_append]
  exact Nat.add_le_add (regErrors_length_le p) (regErrors_length_le (p + 1))

/-- A bound on the records an instruction raises, its fetches left out (spec/60_exceptions.md R212). It counts the missing
registers only of those that could raise three: with a refused fetch among their bytes they cannot. -/
def errorBound : Instr → Nat
  | .mrm r p | .mmr p r => (regErrors r).length + (ptrErrors p).length
  | .div a b => (regErrors a).length + (regErrors b).length + 1
  | .cll _ => 9
  | _ => 2

open State in
theorem exec_raisesAtMost {i : Instr} {s u : State} (h : exec i s = .next u) : RaisesAtMost (errorBound i) s u := by
  cases i with
  | nop | hlt | jmp _ | ret => cases h; exact .of_err_eq rfl
  | mlr lit d => cases h; exact (RaisesAtMost.regWrite_one s d lit).mono (Nat.le_succ 1)
  | mrr a d => cases h; exact (RaisesAtMost.regRead_one s a).trans (.regWrite_one _ d _)
  | mlm lit p => cases h; exact ((RaisesAtMost.ptr s p).congr rfl).mono (ptrErrors_length_le p)
  | mrm a p => cases h; exact ((RaisesAtMost.regRead s a).trans (.ptr _ p)).congr rfl
  | mmr p d =>
    cases h
    exact ((RaisesAtMost.ptr s p).trans (.regWrite _ d _)).mono (Nat.le_of_eq (Nat.add_comm _ _))
  | lnd a b | lor a b | lxr a b | lbc a b | add a b | sub a b | mul a b =>
    cases h; exact ((RaisesAtMost.regRead_one s a).trans (.regRead_one _ b)).congr rfl
  | lsl r lit | lsr r lit => cases h; exact ((RaisesAtMost.regRead_one s r).congr rfl).mono (Nat.le_succ 1)
  | inc r | dec r => cases h; exact (RaisesAtMost.regRead_one s r).trans (.regWrite_one _ r _)
  | div a b =>
    have hread := (RaisesAtMost.regRead s a).trans (.regRead _ b)
    simp only [exec, execDiv] at h
    split at h <;> cases h
    · exact hread.trans (.raise _ _)
    · exact (hread.congr rfl).mono (Nat.le_succ _)
  | jeq r a | jne r a =>
    cases h; exact ((RaisesAtMost.regRead_one s r).congr (jumpIf_err _ _ a)).mono (Nat.le_succ 1)
  | spl lit => cases h; exact (RaisesAtMost.push s lit).mono (Nat.le_succ 1)
  | spr r => cases h; exact (RaisesAtMost.regRead_one s r).trans (.push _ _)
  | stp r =>
    simp only [exec, execStp] at h
    split at h <;> cases h
    · exact (RaisesAtMost.raise s _).mono (Nat.le_succ 1)
    · have hpop : RaisesAtMost 1 s s.pop.2 := .of_err_eq rfl
      exact hpop.trans (.regWrite_one _ r _)
  | cll a =>
    simp only [exec, execCll, Host.Outcome.next.injEq] at h
    subst h
    exact (RaisesAtMost.saveAll s s.frame).congr (by rw [setIp_err, setFs_err])
  | pnt a len => cases h; exact .of_err_eq (outRange_err len.toNat a s)
  | rin r =>
    simp only [exec, execRin] at h
    obtain ⟨b, rest, _, hr⟩ | ⟨_, _, hr⟩ | ⟨_, _, hr⟩ := s.inRead_cases <;> rw [hr] at h <;> cases h
    · have htaken : RaisesAtMost 1 s (s.setInput { s.input with pending := rest }) := .of_err_eq rfl
      exact htaken.trans (.regWrite_one _ r b)
    · have hcounted : RaisesAtMost 0 s (s.setFailedReads (s.failedReads + 1)) := .of_err_eq rfl
      exact hcounted.trans ((RaisesAtMost.raise _ _).trans (.regWrite_one _ r _))

/-! ### How many records a step raises -/

theorem errorBound_le_three {i : Instr} (hi : ∀ a, i ≠ .cll a) : errorBound i ≤ 3 := by
  cases i with
  | cll a => exact absurd rfl (hi a)
  | mrm r p | mmr p r => exact Nat.add_le_add (regErrors_length_le r) (ptrErrors_length_le p)
  | div a b => exact Nat.succ_le_succ (Nat.add_le_add (regErrors_length_le a) (regErrors_length_le b))
  | _ => exact Nat.le_succ 2

theorem errorBound_le_nine (i : Instr) : errorBound i ≤ 9 := by
  by_cases hi : ∃ a, i = .cll a
  · obtain ⟨a, rfl⟩ := hi
    exact Nat.le_refl 9
  · exact (errorBound_le_three fun a ha => hi ⟨a, ha⟩).trans (by decide)

theorem eq_zero_of_regByte_eq_zero {r : Nat} (hr : r < 256) (h : regByte r = 0) : r = 0 := by
  rw [← regByte_toNat hr, h]
  rfl

/-- A refused byte among the two operand bytes of a `REG, REG` format names R0 (spec/30_encoding.md R82). -/
theorem eq_zero_or_of_refused_mem {op : Byte} {a b : Nat} (hop : op ≠ 0) (hwf : ∀ r ∈ [a, b], r < 256)
    (h : Config.refusedFetchByte ∈ [op, regByte a, regByte b]) : a = 0 ∨ b = 0 := by
  obtain rfl | hbyte | hbyte : 0 = op ∨ 0 = regByte a ∨ 0 = regByte b := by simpa using h
  · exact absurd rfl hop
  · exact .inl (eq_zero_of_regByte_eq_zero (hwf a (.head _)) hbyte.symm)
  · exact .inr (eq_zero_of_regByte_eq_zero (hwf b (.tail _ (.head _))) hbyte.symm)

theorem regErrors_length_of_zero_or {a b : Nat} (h : a = 0 ∨ b = 0) :
    (regErrors a).length + (regErrors b).length ≤ 1 := by
  have hzero : (regErrors 0).length = 0 := rfl
  have ha := regErrors_length_le a
  have hb := regErrors_length_le b
  obtain rfl | rfl := h <;> omega

theorem regErrors_ptrErrors_length_of_zero_or {r p : Nat} (h : r = 0 ∨ p = 0) :
    (regErrors r).length + (ptrErrors p).length ≤ 2 := by
  have hreg : (regErrors 0).length = 0 := rfl
  have hptr : (ptrErrors 0).length = 0 := rfl
  have hr := regErrors_length_le r
  have hp := ptrErrors_length_le p
  obtain rfl | rfl := h <;> omega

/-- A refused fetch delivers `0x00`, which as an operand names R0 or the pair from it: both exist, so at most two are left. -/
theorem errorBound_le_two_of_refused {i : Instr} (hi : ∀ a, i ≠ .cll a) (hwf : i.wellFormed = true)
    (h : Config.refusedFetchByte ∈ encode i) : errorBound i ≤ 2 := by
  rw [Instr.wellFormed_iff] at hwf
  cases i with
  | cll a => exact absurd rfl (hi a)
  | mrm r p =>
    have hzero : r = 0 ∨ p = 0 := eq_zero_or_of_refused_mem (op := 0x04) (by decide) hwf h
    exact regErrors_ptrErrors_length_of_zero_or hzero
  | mmr p r =>
    have hzero : p = 0 ∨ r = 0 := eq_zero_or_of_refused_mem (op := 0x05) (by decide) hwf h
    exact regErrors_ptrErrors_length_of_zero_or hzero.symm
  | div a b =>
    have hzero : a = 0 ∨ b = 0 := eq_zero_or_of_refused_mem (op := 0x45) (by decide) hwf h
    exact Nat.succ_le_succ (regErrors_length_of_zero_or hzero)
  | _ => exact Nat.le_refl 2

/-- A row of fetches that records an error has delivered the byte of a refused one. -/
theorem State.fetchMany_refused (n : Nat) (s : State) :
    (State.fetchMany n s).2.err = s.err ∨ Config.refusedFetchByte ∈ (State.fetchMany n s).1 := by
  induction n generalizing s with
  | zero => exact .inl rfl
  | succ n ih =>
    rw [State.fetchMany_succ]
    by_cases hip : s.ip = Config.fetchLimit
    · exact .inr (by rw [State.fetch_of_eq hip]; exact .head _)
    · rw [State.fetch_of_ne hip]
      exact (ih (s.setIp (s.ip + 1))).imp id (.tail _)

/-- The fetches of an instruction record nothing, or one error with its byte among those fetched. -/
theorem State.fetchInstr_raises (s : State) :
    State.RaisesAtMost 0 s s.fetchInstr.2 ∨
    State.RaisesAtMost 1 s s.fetchInstr.2 ∧ Config.refusedFetchByte ∈ s.fetchInstr.1 := by
  obtain hnone | hrefused := State.fetchMany_refused (operandBytes s.fetch.1 + 1) s
  · exact .inl (.of_err_eq hnone)
  · refine .inr ⟨?_, hrefused⟩
    obtain hnone | hone := s.fetchInstr_err
    · exact .of_err_eq hnone
    · exact ⟨[ErrorRecord.ofCode .ipOutOfBounds], Nat.le_refl 1, hone⟩

/-- The fetches and the instruction together. -/
theorem exec_fetched_raisesAtMost {s u : State} {i : Instr} (hd : decode s.fetchInstr.1 = .ok (i, []))
    (he : exec i s.fetchInstr.2 = .next u) :
    State.RaisesAtMost 10 s u ∧ ((∀ a, i ≠ .cll a) → State.RaisesAtMost 3 s u) := by
  obtain ⟨hwf, _, hbytes⟩ := fetchInstr_of_decode hd
  have hexec := exec_raisesAtMost he
  obtain hfetch | ⟨hfetch, hrefused⟩ := s.fetchInstr_raises
  · have hall := hfetch.trans hexec
    rw [Nat.zero_add] at hall
    exact ⟨hall.mono ((errorBound_le_nine i).trans (by decide)), fun hi => hall.mono (errorBound_le_three hi)⟩
  · rw [hbytes] at hrefused
    exact ⟨(hfetch.trans hexec).mono (Nat.add_le_add_left (errorBound_le_nine i) 1),
      fun hi => (hfetch.trans hexec).mono (Nat.add_le_add_left (errorBound_le_two_of_refused hi hwf hrefused) 1)⟩

theorem step_raisesAtMost {s t : State} (h : step s = .next t) :
    State.RaisesAtMost 10 s t ∧
      ((∀ a, decode s.fetchInstr.1 ≠ .ok (.cll a, [])) → State.RaisesAtMost 3 s t) := by
  obtain ⟨_, ⟨i, u, hd, he, rfl⟩ | ⟨_, _, _, rfl⟩ | ⟨_, _, rfl⟩⟩ := step_next_cases h
  · obtain ⟨hten, hthree⟩ := exec_fetched_raisesAtMost hd he
    exact ⟨hten.congr u.endStep_err, fun hcll => (hthree fun a ha => hcll a (ha ▸ hd)).congr u.endStep_err⟩
  · exact ⟨.of_err_eq rfl, fun _ => .of_err_eq rfl⟩
  · have hfetch : State.RaisesAtMost 1 s s.fetchInstr.2 := s.fetchInstr_raises.elim (·.mono (Nat.zero_le 1)) And.left
    have htwo := (hfetch.trans (.raise _ _)).congr (s.fetchInstr.2.unknownOpcode s.fetch.1 s.ip).endStep_err
    exact ⟨htwo.mono (by decide), fun _ => htwo.mono (by decide)⟩

/-- A `CLL` whose second byte is a refused fetch, and none of whose nine saves finds room. -/
def State.callWithoutRoom : State := { State.reset with ip := 0xFFFE, sp := 0xFFFF, mem := [(0xFFFE, 0x83)] }

/-- Settles O26: the records of the fetches and of the instruction, none of which is dropped; ten are those of
`State.callWithoutRoom`. -/
theorem errorsOfAStepAreBounded : Obligations.ErrorsOfAStepAreBounded := by
  refine ⟨fun s t hready h => ?_, State.callWithoutRoom, _, ⟨rfl, rfl⟩, rfl, rfl⟩
  obtain ⟨_, herr⟩ := hready
  obtain ⟨hten, hthree⟩ := step_raisesAtMost h
  exact ⟨hten.err_length_le herr (by decide), fun hcll => (hthree hcll).err_length_le herr (by decide)⟩

/-! ### How many accesses the port carries -/

/-- A row of fetches that meets the limit issues one access less. -/
theorem fetchAccesses_length {n : Nat} (ip : Word) (hn : n ≤ 0x10000) :
    (fetchAccesses n ip).length = if ip.toNat + n ≤ 0xFFFF then n else n - 1 := by
  induction n generalizing ip with
  | zero => split <;> rfl
  | succ n ih =>
    have hrest := ih (ip + 1) (by omega)
    by_cases hip : ip = Config.fetchLimit
    · subst hip
      have hwrap : (Config.fetchLimit + 1).toNat + n ≤ 0xFFFF := by
        rw [show (Config.fetchLimit + 1).toNat = 0 from rfl]
        omega
      rw [if_pos hwrap] at hrest
      rw [State.fetchAccesses_succ, List.length_append, hrest, if_neg (by rw [BitVec.toNat_ofNat]; omega)]
      exact Nat.zero_add n
    · have hnext := State.add_one_toNat_of_ne_stackLimit hip
      rw [hnext] at hrest
      rw [fetchAccesses, if_neg hip, List.length_append, List.length_singleton, hrest]
      have hlt : ip.toNat < 0xFFFF := by bv_omega
      split_ifs <;> omega

/-- A row of stack writes carries one for each byte that finds room. -/
theorem saveAccesses_length (sp : Word) (vs : List Byte) :
    (saveAccesses sp vs).length = min vs.length (65535 - sp.toNat) := by
  induction vs generalizing sp with
  | nil => exact (Nat.zero_min _).symm
  | cons v rest ih =>
    rw [saveAccesses, List.length_cons]
    by_cases hsp : sp = Config.stackLimit
    · rw [if_pos hsp, hsp]
      exact (Nat.min_zero _).symm
    · rw [if_neg hsp, List.length_cons, ih, State.add_one_toNat_of_ne_stackLimit hsp]
      have hlt : sp.toNat < 65535 := by bv_omega
      omega

theorem saveAccesses_singleton_length (sp : Word) (v : Byte) :
    (saveAccesses sp [v]).length = if sp = Config.stackLimit then 0 else 1 := by
  rw [saveAccesses]
  split <;> rfl

@[simp] theorem restoreAccesses_length (n : Nat) (sp : Word) : (restoreAccesses n sp).length = n := by
  induction n generalizing sp with
  | zero => rfl
  | succ n ih => rw [restoreAccesses, List.length_cons, ih]

@[simp] theorem rangeAccesses_length (n : Nat) (a : Word) : (rangeAccesses n a).length = n := by
  induction n generalizing a with
  | zero => rfl
  | succ n ih => rw [rangeAccesses, List.length_cons, ih]

/-- The data accesses an instruction makes are as many as the table of spec/70_reset_and_hazards.md R260 says. -/
theorem dataAccesses_length (i : Instr) (s : State) : (dataAccesses i s).length = i.dataAccessCount s := by
  cases i with
  | spl v => exact saveAccesses_singleton_length s.sp v
  | spr r => exact saveAccesses_singleton_length s.sp (s.regVal r)
  | stp r =>
    by_cases h : s.fs = 0 ∨ s.sp = 0xFF00
    · rw [dataAccesses, Instr.dataAccessCount, if_pos (s.popRefused_iff.2 h), if_pos h, List.length_nil]
    · rw [dataAccesses, Instr.dataAccessCount, if_neg (s.popRefused_iff.not.2 h), if_neg h, restoreAccesses_length]
  | cll a => exact saveAccesses_length s.sp s.frame
  | pnt a len => exact rangeAccesses_length len.toNat a
  | _ => rfl

/-- The table reads SP and FS alone, which the fetches leave. -/
theorem dataAccessCount_fetchInstr (i : Instr) (s : State) : i.dataAccessCount s.fetchInstr.2 = i.dataAccessCount s := by
  cases i <;> simp only [Instr.dataAccessCount, State.fetchInstr_sp, State.fetchInstr_fs]

/-- An unknown opcode was fetched below the limit: what a refused fetch delivers is a `NOP`. -/
theorem ip_ne_fetchLimit_of_unknownOpcode {s : State} (h : opcodeRow s.fetch.1 = none) : s.ip ≠ Config.fetchLimit := by
  intro hip
  rw [State.fetch_of_eq hip] at h
  cases h

theorem State.memAccesses_of_unknownOpcode {s : State} {e : DecodeError} (hs : s.status = .running)
    (hd : decode s.fetchInstr.1 = .error e) : s.memAccesses = [.read s.ip] := by
  obtain ⟨i, hi⟩ | ⟨hrow, hbytes, _⟩ := s.fetchInstr_decodes
  · cases hi.symm.trans hd
  · rw [State.memAccesses_of_error hs hd, hbytes]
    exact congrArg (· ++ []) (if_neg (ip_ne_fetchLimit_of_unknownOpcode hrow))

/-- Settles O17: the fetches of the instruction, less the refused one, and the row of the table. -/
theorem memoryAccessCounts : Obligations.MemoryAccessCounts := by
  refine ⟨fun s i hs hd hwaits => ?_, fun s op hs hd => State.memAccesses_of_unknownOpcode hs hd,
    fun s r hd hwaits => ?_, fun s => State.memAccesses_of_not_running⟩
  · obtain ⟨u, hu⟩ := exec_completes (s := s.fetchInstr.2) fun r hr => s.fetchInstr_waits_iff.not.2 (hwaits r hr)
    obtain ⟨_, _, hbytes⟩ := fetchInstr_of_decode hd
    have hshort := operandBytes_le i.opcode
    rw [State.memAccesses_of_next hs hd hu, List.length_append, dataAccesses_length, dataAccessCount_fetchInstr, hbytes,
      encode_length, Nat.add_comm (operandBytes i.opcode), fetchAccesses_length s.ip (by omega), Nat.add_sub_cancel_left]
  · exact State.memAccesses_of_fault hd (exec_rin_of_waits r (s.fetchInstr_waits_iff.2 hwaits))

/-! ### Reset in the middle of a step -/

theorem State.resetMidStep_mem (s : State) (n : Nat) (input : InputStream) :
    (s.resetMidStep n input).mem = s.mem.applyAll (s.memAccesses.take n) := rfl

/-- Settles O57: after all the accesses of a step the memory is the one they make of it (O16). -/
theorem resetInMidStep : Obligations.ResetInMidStep := by
  refine ⟨fun s t n input h => ⟨rfl, fun hall => ?_, rfl, rfl, rfl, rfl⟩, fun s n input h => ?_⟩
  · rw [State.resetMidStep_mem, List.take_of_length_le hall]
    exact (memoryFollowsThePort.1 s t h).symm
  · rw [State.resetMidStep_mem, State.memAccesses_of_not_running h, List.take_nil, Memory.applyAll_nil]

end Sys2Proof.Machine
